-- ==== Sys2Proof/Word.lean ====
section
/-! DEFINITION. The word types of the machine (spec `00_scope.md` R5, R6). -/

namespace Sys2Proof

/-- One byte of memory or of an instruction. -/
abbrev Byte := BitVec 8

/-- A quadword: an MMX register, a general register, an address, a COUNT. -/
abbrev Quad := BitVec 64

/-- A full vector register, `VLMAX = 256` bits (`10_state.md` R11, decision D4). -/
abbrev Vec := BitVec 256

end Sys2Proof
end

