-- ==== Sys2Proof/Config.lean ====
section
/-! DEFINITION. The implementation parameters of the machine (spec `00_scope.md` R4). The host's step takes a state
only, so they stand in State as one record that no instruction writes (log 1). No parameter is a free value of the
kind that needs an opaque constant: the spec leaves no result of an instruction open. -/

namespace Sys2Proof

/-- `MODE` (R4, R164): 64-bit mode, or 32-bit protected or compatibility mode. -/
inductive Mode where
  | mode64
  | mode32
deriving DecidableEq, Repr

/-- A range of byte addresses, `base .. base + size - 1`, and the size of the reads that it serves. -/
structure ReadRange where
  base : Nat
  size : Nat
  /-- `some n` where the range serves reads of `n` bytes alone, `none` where it serves reads of every size. -/
  only : Option Nat
deriving DecidableEq, Repr

/-- The parameters of R4 that are not fixed by decision. -/
structure Params where
  /-- `MODE`. -/
  mode : Mode
  /-- `HAS_MMX`, the CPUID feature flag of opcode-table rows 1, 3, 5, 7, 9, 11 (`10_state.md` R17). -/
  hasMmx : Bool
  /-- `HAS_SSE2`, of rows 2, 4, 6, 8, 10, 12. -/
  hasSse2 : Bool
  /-- `HAS_AVX`, of rows 13 to 18. -/
  hasAvx : Bool
  /-- `HAS_AVX2`, of rows 19 to 24. -/
  hasAvx2 : Bool
  /-- `Admit` as data (`20_memory.md` R35): a read of `n` bytes is admitted where one of these ranges holds all of it and
  serves that size. Every predicate of an address and a size can be set, by `admits_expressible` (log 15). -/
  admitted : List ReadRange
  /-- The implementation-specific linear-address width that says which addresses are canonical (`20_memory.md` R39). -/
  linearBits : Nat
  /-- `ENTRY`, where a run starts (R160). -/
  entry : Quad
  /-- `END`, where a run is over (R163); `none` where no end is fixed. -/
  endAt : Option Quad
deriving DecidableEq, Repr

/-- `VLMAX`, the width of a full vector register (decision D4). -/
def vlmax : Nat := 256

/-- `NMMX`, the number of MMX registers (decision D5). -/
def nmmx : Nat := 8

end Sys2Proof
end

