-- ==== Sys2Proof/Syntax.lean ====
section
/-! DEFINITION. The syntax: one constructor of `Instr` for each of the 24 rows of the opcode table (spec
`30_encoding.md` R53). A term keeps every bit of the encoding that the table leaves to the programmer (the REX and VEX
bits that extend nothing too), so that its length (R62) and its bytes are functions of the term. Bits that VEX stores
inverted (R60) are kept here uninverted, as the value they stand for. -/

namespace Sys2Proof

/-- A REX prefix `0100WRXB` (R55). -/
structure Rex where
  w : Bool
  r : Bool
  x : Bool
  b : Bool
deriving DecidableEq, Repr

/-- A VEX prefix (R60): `vex2` is `C5H xx`, `vex3` is `C4H xx xx`. `pp = 01` and `mmmmm = 00001` in every form, and `L` is
said by the constructor of `Instr`. `r`, `x`, `b`, `vvvv` are `Rx`, `Xx`, `Bx`, the complement of the stored `vvvv`. -/
inductive Vex where
  | vex2 (r : Bool) (vvvv : BitVec 4)
  | vex3 (r x b w : Bool) (vvvv : BitVec 4)
deriving DecidableEq, Repr

/-- The displacement that `mod` = 00, 01, 10 gives (R56, R58). -/
inductive Disp where
  | none
  | disp8 (d : BitVec 8)
  | disp32 (d : BitVec 32)
deriving DecidableEq, Repr

/-- A memory operand as ModRM and SIB spell it (R56 to R59). -/
inductive MemOperand where
  /-- No SIB byte: a base register and a displacement. -/
  | base (rm : BitVec 3) (disp : Disp)
  /-- `mod = 00`, `rm = 101`: `pc`-relative in mode64, the displacement alone in mode32. -/
  | dispOnly (disp : BitVec 32)
  /-- A SIB byte with a base register. -/
  | sib (scale : BitVec 2) (index base : BitVec 3) (disp : Disp)
  /-- A SIB byte with `mod = 00`, `base = 101`: no base register, a `disp32`. -/
  | sibNoBase (scale : BitVec 2) (index : BitVec 3) (disp : BitVec 32)
deriving DecidableEq, Repr

/-- The ModRM r/m operand of an RM or RVM form: a register (`mod = 11`) or memory. -/
inductive RmOperand where
  | reg (n : BitVec 3)
  | mem (m : MemOperand)
deriving DecidableEq, Repr

/-- The operands after the opcode of an MI or VMI form: a register and the immediate, or a ModRM byte whose `mod` is not
11, which raises `#UD` whatever follows it (R64 step 4, R66; log 12). -/
inductive ImmOperand where
  | reg (n : BitVec 3) (imm8 : Byte)
  | memForm (mod : BitVec 2) (rm : BitVec 3)
deriving DecidableEq, Repr

/-- The instructions, in the order of the opcode table (R53). RM and RVM forms hold the prefix, `ModRM.reg` and the r/m
operand; MI and VMI forms hold the prefix and the r/m operand with the immediate. -/
inductive Instr where
  /-- Row 1, `0F F1 /r`, `PSLLW mm, mm/m64` (R90). -/
  | psllwMmMmm64 (rex : Option Rex) (reg : BitVec 3) (rm : RmOperand)
  /-- Row 2, `66 0F F1 /r`, `PSLLW xmm1, xmm2/m128` (R100). -/
  | psllwXmmXmmm128 (rex : Option Rex) (reg : BitVec 3) (rm : RmOperand)
  /-- Row 3, `0F 71 /6 ib`, `PSLLW mm, imm8` (R91). -/
  | psllwMmImm8 (rex : Option Rex) (rm : ImmOperand)
  /-- Row 4, `66 0F 71 /6 ib`, `PSLLW xmm1, imm8` (R101). -/
  | psllwXmmImm8 (rex : Option Rex) (rm : ImmOperand)
  /-- Row 5, `0F F2 /r`, `PSLLD mm, mm/m64` (R92). -/
  | pslldMmMmm64 (rex : Option Rex) (reg : BitVec 3) (rm : RmOperand)
  /-- Row 6, `66 0F F2 /r`, `PSLLD xmm1, xmm2/m128` (R102). -/
  | pslldXmmXmmm128 (rex : Option Rex) (reg : BitVec 3) (rm : RmOperand)
  /-- Row 7, `0F 72 /6 ib`, `PSLLD mm, imm8` (R93). -/
  | pslldMmImm8 (rex : Option Rex) (rm : ImmOperand)
  /-- Row 8, `66 0F 72 /6 ib`, `PSLLD xmm1, imm8` (R103). -/
  | pslldXmmImm8 (rex : Option Rex) (rm : ImmOperand)
  /-- Row 9, `0F F3 /r`, `PSLLQ mm, mm/m64` (R94). -/
  | psllqMmMmm64 (rex : Option Rex) (reg : BitVec 3) (rm : RmOperand)
  /-- Row 10, `66 0F F3 /r`, `PSLLQ xmm1, xmm2/m128` (R104). -/
  | psllqXmmXmmm128 (rex : Option Rex) (reg : BitVec 3) (rm : RmOperand)
  /-- Row 11, `0F 73 /6 ib`, `PSLLQ mm, imm8` (R95). -/
  | psllqMmImm8 (rex : Option Rex) (rm : ImmOperand)
  /-- Row 12, `66 0F 73 /6 ib`, `PSLLQ xmm1, imm8` (R105). -/
  | psllqXmmImm8 (rex : Option Rex) (rm : ImmOperand)
  /-- Row 13, `VEX.NDS.128.66.0F.WIG F1 /r`, `VPSLLW xmm1, xmm2, xmm3/m128` (R110). -/
  | vpsllwXmmXmmXmmm128 (vex : Vex) (reg : BitVec 3) (rm : RmOperand)
  /-- Row 14, `VEX.NDD.128.66.0F.WIG 71 /6 ib`, `VPSLLW xmm1, xmm2, imm8` (R111). -/
  | vpsllwXmmXmmImm8 (vex : Vex) (rm : ImmOperand)
  /-- Row 15, `VEX.NDS.128.66.0F.WIG F2 /r`, `VPSLLD xmm1, xmm2, xmm3/m128` (R112). -/
  | vpslldXmmXmmXmmm128 (vex : Vex) (reg : BitVec 3) (rm : RmOperand)
  /-- Row 16, `VEX.NDD.128.66.0F.WIG 72 /6 ib`, `VPSLLD xmm1, xmm2, imm8` (R113). -/
  | vpslldXmmXmmImm8 (vex : Vex) (rm : ImmOperand)
  /-- Row 17, `VEX.NDS.128.66.0F.WIG F3 /r`, `VPSLLQ xmm1, xmm2, xmm3/m128` (R114). -/
  | vpsllqXmmXmmXmmm128 (vex : Vex) (reg : BitVec 3) (rm : RmOperand)
  /-- Row 18, `VEX.NDD.128.66.0F.WIG 73 /6 ib`, `VPSLLQ xmm1, xmm2, imm8` (R115). -/
  | vpsllqXmmXmmImm8 (vex : Vex) (rm : ImmOperand)
  /-- Row 19, `VEX.NDS.256.66.0F.WIG F1 /r`, `VPSLLW ymm1, ymm2, xmm3/m128` (R120). -/
  | vpsllwYmmYmmXmmm128 (vex : Vex) (reg : BitVec 3) (rm : RmOperand)
  /-- Row 20, `VEX.NDD.256.66.0F.WIG 71 /6 ib`, `VPSLLW ymm1, ymm2, imm8` (R121). -/
  | vpsllwYmmYmmImm8 (vex : Vex) (rm : ImmOperand)
  /-- Row 21, `VEX.NDS.256.66.0F.WIG F2 /r`, `VPSLLD ymm1, ymm2, xmm3/m128` (R122). -/
  | vpslldYmmYmmXmmm128 (vex : Vex) (reg : BitVec 3) (rm : RmOperand)
  /-- Row 22, `VEX.NDD.256.66.0F.WIG 72 /6 ib`, `VPSLLD ymm1, ymm2, imm8` (R123). -/
  | vpslldYmmYmmImm8 (vex : Vex) (rm : ImmOperand)
  /-- Row 23, `VEX.NDS.256.66.0F.WIG F3 /r`, `VPSLLQ ymm1, ymm2, xmm3/m128` (R124). -/
  | vpsllqYmmYmmXmmm128 (vex : Vex) (reg : BitVec 3) (rm : RmOperand)
  /-- Row 24, `VEX.NDD.256.66.0F.WIG 73 /6 ib`, `VPSLLQ ymm1, ymm2, imm8` (R125). -/
  | vpsllqYmmYmmImm8 (vex : Vex) (rm : ImmOperand)
deriving DecidableEq, Repr

end Sys2Proof
end

