-- ==== Sys2Proof/WellFormed.lean ====
section
/-! DEFINITION. Which terms of the syntax stand for an encoding that the decoder admits in a mode (spec `30_encoding.md`
R54, R55, R56, R58, R61). -/

namespace Sys2Proof

/-- A SIB byte is needed for `rm = 100`, and `mod = 00` with `rm = 101` or `base = 101` has another meaning (R56, R58). -/
def MemOperand.wf : MemOperand → Bool
  | .base rm .none => rm != 4#3 && rm != 5#3
  | .base rm _ => rm != 4#3
  | .dispOnly _ => true
  | .sib _ _ sb .none => sb != 5#3
  | .sib _ _ _ _ => true
  | .sibNoBase _ _ _ => true

def RmOperand.wf : RmOperand → Bool
  | .reg _ => true
  | .mem m => m.wf

/-- The memory form of an MI or VMI operand has `mod` other than 11 (R66). -/
def ImmOperand.wf : ImmOperand → Bool
  | .reg _ _ => true
  | .memForm mod _ => mod != 3#2

/-- REX exists in mode64 only (R55). -/
def rexWf (m : Mode) : Option Rex → Bool
  | none => true
  | some _ => m == .mode64

/-- `REX.R` (false without a REX prefix). -/
def rexR (rex : Option Rex) : Bool := rex.elim false Rex.r

/-- `REX.B` (false without a REX prefix). -/
def rexB (rex : Option Rex) : Bool := rex.elim false Rex.b

/-- An MMX RM form: `REX.R` is refused, and `REX.B` with a register r/m operand too (R55, decision D21). -/
def mmxRmWf (m : Mode) (rex : Option Rex) (rm : RmOperand) : Bool :=
  rexWf m rex && !rexR rex && rm.wf &&
    (match rm with
     | .reg _ => !rexB rex
     | .mem _ => true)

/-- An MMX MI form: as an MMX RM form, `REX.R` extending nothing (R55). -/
def mmxMiWf (m : Mode) (rex : Option Rex) (rm : ImmOperand) : Bool :=
  rexWf m rex && !rexR rex && rm.wf &&
    (match rm with
     | .reg _ _ => !rexB rex
     | .memForm _ _ => true)

/-- An SSE2 RM form: every REX bit is admitted (R55). -/
def sseRmWf (m : Mode) (rex : Option Rex) (rm : RmOperand) : Bool :=
  rexWf m rex && rm.wf

/-- An SSE2 MI form: `REX.R` is refused (R55). -/
def sseMiWf (m : Mode) (rex : Option Rex) (rm : ImmOperand) : Bool :=
  rexWf m rex && !rexR rex && rm.wf

/-- In mode32 a VEX prefix exists only when bits 7:6 of its second byte are 11 (R61 (d)). -/
def Vex.wf (m : Mode) : Vex → Bool
  | .vex2 r v => m == .mode64 || (!r && !v.getLsbD 3)
  | .vex3 r x _ _ _ => m == .mode64 || (!r && !x)

/-- `Rx` of a VEX prefix. -/
def Vex.rBit : Vex → Bool
  | .vex2 r _ => r
  | .vex3 r _ _ _ _ => r

def rvmWf (m : Mode) (vex : Vex) (rm : RmOperand) : Bool :=
  vex.wf m && rm.wf

/-- A VMI form admits only the stored value `R = 1` (R61 (e), decision D21). -/
def vmiWf (m : Mode) (vex : Vex) (rm : ImmOperand) : Bool :=
  vex.wf m && !vex.rBit && rm.wf

/-- `WellFormed m i`: the decoder of mode `m` admits an encoding that spells `i`. -/
def WellFormed (m : Mode) : Instr → Bool
  | .psllwMmMmm64 rex _ rm => mmxRmWf m rex rm
  | .psllwXmmXmmm128 rex _ rm => sseRmWf m rex rm
  | .psllwMmImm8 rex rm => mmxMiWf m rex rm
  | .psllwXmmImm8 rex rm => sseMiWf m rex rm
  | .pslldMmMmm64 rex _ rm => mmxRmWf m rex rm
  | .pslldXmmXmmm128 rex _ rm => sseRmWf m rex rm
  | .pslldMmImm8 rex rm => mmxMiWf m rex rm
  | .pslldXmmImm8 rex rm => sseMiWf m rex rm
  | .psllqMmMmm64 rex _ rm => mmxRmWf m rex rm
  | .psllqXmmXmmm128 rex _ rm => sseRmWf m rex rm
  | .psllqMmImm8 rex rm => mmxMiWf m rex rm
  | .psllqXmmImm8 rex rm => sseMiWf m rex rm
  | .vpsllwXmmXmmXmmm128 vex _ rm => rvmWf m vex rm
  | .vpsllwXmmXmmImm8 vex rm => vmiWf m vex rm
  | .vpslldXmmXmmXmmm128 vex _ rm => rvmWf m vex rm
  | .vpslldXmmXmmImm8 vex rm => vmiWf m vex rm
  | .vpsllqXmmXmmXmmm128 vex _ rm => rvmWf m vex rm
  | .vpsllqXmmXmmImm8 vex rm => vmiWf m vex rm
  | .vpsllwYmmYmmXmmm128 vex _ rm => rvmWf m vex rm
  | .vpsllwYmmYmmImm8 vex rm => vmiWf m vex rm
  | .vpslldYmmYmmXmmm128 vex _ rm => rvmWf m vex rm
  | .vpslldYmmYmmImm8 vex rm => vmiWf m vex rm
  | .vpsllqYmmYmmXmmm128 vex _ rm => rvmWf m vex rm
  | .vpsllqYmmYmmImm8 vex rm => vmiWf m vex rm

end Sys2Proof
end

