-- ==== Sys2Proof/Decode.lean ====
section
/-! DEFINITION. The decoder, total on any bytes and refusing by name, and after it the encoder and the length (spec
`30_encoding.md` R50 to R69). -/

namespace Sys2Proof

/-! ## Fields of the instruction bytes -/

/-- `ModRM.mod` or `SIB.scale`, bits 7:6 (R56, R58). -/
def bits76 (b : Byte) : BitVec 2 := b.extractLsb' 6 2

/-- `ModRM.reg` or `SIB.index`, bits 5:3 (R56, R58). -/
def bits53 (b : Byte) : BitVec 3 := b.extractLsb' 3 3

/-- `ModRM.rm` or `SIB.base`, bits 2:0 (R56, R58). -/
def bits20 (b : Byte) : BitVec 3 := b.extractLsb' 0 3

/-- The byte whose bits 7:6, 5:3 and 2:0 are given: a ModRM byte or a SIB byte. -/
def packModRm (hi : BitVec 2) (mid lo : BitVec 3) : Byte := (hi ++ mid ++ lo : BitVec 8)

/-- The last byte of the two VEX prefixes, less its top bit: `vvvv` (stored inverted), `L`, `pp` (R60). -/
def vexVvvv (b : Byte) : BitVec 4 := ~~~(b.extractLsb' 3 4)
def vexL (b : Byte) : Bool := b.getLsbD 2
def vexPp (b : Byte) : BitVec 2 := b.extractLsb' 0 2

/-- Four bytes, least significant first (R58). -/
def packDisp32 (b0 b1 b2 b3 : Byte) : BitVec 32 := (b3 ++ b2 ++ b1 ++ b0 : BitVec 32)

/-! ## Reasons to refuse -/

/-- Why the decoder refuses bytes. A refusal says that the bytes spell no instruction of the spec, not that the chip
faults on them (R64). Each is safe: it can only lose a run. -/
inductive DecodeRefusal where
  /-- The bytes end before the instruction does. -/
  | truncated
  /-- A prefix byte or an order of prefixes outside R54: `F0`, `F2`, `F3`, a segment override, `67`, a second or
  misplaced `66`, a misplaced REX. -/
  | prefixNotAdmitted (b : Byte)
  /-- A VEX prefix after `66` or REX (R61 (c)). -/
  | vexAfterPrefix (b : Byte)
  /-- In mode32, `C4` or `C5` whose next byte's bits 7:6 are not 11: `LES` or `LDS` (R61 (d)). -/
  | notVexInMode32 (b : Byte)
  /-- The byte where the escape `0FH` must stand is another byte (R64 step 1). -/
  | notEscape (b : Byte)
  /-- An opcode byte other than the six of R53 (R67). -/
  | opcodeNotListed (b : Byte)
  /-- Opcode `71`, `72` or `73` with `ModRM.reg` other than 6 (R67). -/
  | opcodeExtensionNotSix (reg : BitVec 3)
  /-- `VEX.mmmmm` other than 00001 (R68). -/
  | vexMapNotListed (mmmmm : BitVec 5)
  /-- `VEX.pp` other than 01 (R68). -/
  | vexPpNotListed (pp : BitVec 2)
  /-- `REX.R = 1` naming an MMX register, or on an MI form (R55, decision D21). -/
  | rexRExtendsNothing
  /-- `REX.B = 1` naming an MMX register (R55, decision D21). -/
  | rexBExtendsNothing
  /-- The stored `VEX.R = 0` on a VMI form (R61 (e), decision D21). -/
  | vexRExtendsNothing
deriving DecidableEq, Repr

/-- What a decoding step answers: a value and the bytes that follow it, or the reason to refuse. -/
abbrev Decoded (α : Type) := Except DecodeRefusal (α × List Byte)

/-! ## The opcode table (R53) -/

/-- The element width of a row: words, doublewords or quadwords (R6). -/
inductive Elem where
  | word
  | dword
  | qword
deriving DecidableEq, Repr

/-- The six opcode bytes: the element, and whether the row takes an immediate (`/6 ib`) or an r/m operand (`/r`). -/
def opcodeRow (op : Byte) : Option (Elem × Bool) :=
  if op = 0xF1#8 then some (.word, false)
  else if op = 0xF2#8 then some (.dword, false)
  else if op = 0xF3#8 then some (.qword, false)
  else if op = 0x71#8 then some (.word, true)
  else if op = 0x72#8 then some (.dword, true)
  else if op = 0x73#8 then some (.qword, true)
  else none

/-- Rows 1, 5, 9. -/
def mkMmRm : Elem → Option Rex → BitVec 3 → RmOperand → Instr
  | .word => .psllwMmMmm64
  | .dword => .pslldMmMmm64
  | .qword => .psllqMmMmm64

/-- Rows 2, 6, 10. -/
def mkXmmRm : Elem → Option Rex → BitVec 3 → RmOperand → Instr
  | .word => .psllwXmmXmmm128
  | .dword => .pslldXmmXmmm128
  | .qword => .psllqXmmXmmm128

/-- Rows 3, 7, 11. -/
def mkMmImm : Elem → Option Rex → ImmOperand → Instr
  | .word => .psllwMmImm8
  | .dword => .pslldMmImm8
  | .qword => .psllqMmImm8

/-- Rows 4, 8, 12. -/
def mkXmmImm : Elem → Option Rex → ImmOperand → Instr
  | .word => .psllwXmmImm8
  | .dword => .pslldXmmImm8
  | .qword => .psllqXmmImm8

/-- Rows 13, 15, 17 (`L = 0`) and 19, 21, 23 (`L = 1`). -/
def mkVexRm : Bool → Elem → Vex → BitVec 3 → RmOperand → Instr
  | false, .word => .vpsllwXmmXmmXmmm128
  | false, .dword => .vpslldXmmXmmXmmm128
  | false, .qword => .vpsllqXmmXmmXmmm128
  | true, .word => .vpsllwYmmYmmXmmm128
  | true, .dword => .vpslldYmmYmmXmmm128
  | true, .qword => .vpsllqYmmYmmXmmm128

/-- Rows 14, 16, 18 (`L = 0`) and 20, 22, 24 (`L = 1`). -/
def mkVexImm : Bool → Elem → Vex → ImmOperand → Instr
  | false, .word => .vpsllwXmmXmmImm8
  | false, .dword => .vpslldXmmXmmImm8
  | false, .qword => .vpsllqXmmXmmImm8
  | true, .word => .vpsllwYmmYmmImm8
  | true, .dword => .vpslldYmmYmmImm8
  | true, .qword => .vpsllqYmmYmmImm8

/-! ## ModRM, SIB, displacement, immediate -/

def takeDisp32 : List Byte → Decoded (BitVec 32)
  | b0 :: b1 :: b2 :: b3 :: rest => .ok (packDisp32 b0 b1 b2 b3, rest)
  | _ => .error .truncated

/-- The displacement of `mod` = 00, 01 or 10 (R56, R58). -/
def takeDisp (mod : BitVec 2) (bs : List Byte) : Decoded Disp :=
  if mod = 0#2 then .ok (.none, bs)
  else if mod = 1#2 then
    match bs with
    | [] => .error .truncated
    | d :: rest => .ok (.disp8 d, rest)
  else
    match takeDisp32 bs with
    | .error e => .error e
    | .ok (d, rest) => .ok (.disp32 d, rest)

/-- The SIB byte and its displacement (R58). -/
def takeSib (mod : BitVec 2) : List Byte → Decoded MemOperand
  | [] => .error .truncated
  | sib :: bs =>
    if mod = 0#2 ∧ bits20 sib = 5#3 then
      match takeDisp32 bs with
      | .error e => .error e
      | .ok (d, rest) => .ok (.sibNoBase (bits76 sib) (bits53 sib) d, rest)
    else
      match takeDisp mod bs with
      | .error e => .error e
      | .ok (d, rest) => .ok (.sib (bits76 sib) (bits53 sib) (bits20 sib) d, rest)

/-- The memory operand of a ModRM byte whose `mod` is not 11 (R56). -/
def takeMem (mod : BitVec 2) (rm : BitVec 3) (bs : List Byte) : Decoded MemOperand :=
  if rm = 4#3 then takeSib mod bs
  else if mod = 0#2 ∧ rm = 5#3 then
    match takeDisp32 bs with
    | .error e => .error e
    | .ok (d, rest) => .ok (.dispOnly d, rest)
  else
    match takeDisp mod bs with
    | .error e => .error e
    | .ok (d, rest) => .ok (.base rm d, rest)

/-- The r/m operand of an RM or RVM form (R56). -/
def takeRm (modrm : Byte) (bs : List Byte) : Decoded RmOperand :=
  if bits76 modrm = 3#2 then .ok (.reg (bits20 modrm), bs)
  else
    match takeMem (bits76 modrm) (bits20 modrm) bs with
    | .error e => .error e
    | .ok (m, rest) => .ok (.mem m, rest)

/-- The operand of an MI or VMI form: with `mod` other than 11 nothing more is read (R64 step 4, R66; log 12). -/
def takeImm (modrm : Byte) (bs : List Byte) : Decoded ImmOperand :=
  if bits76 modrm = 3#2 then
    match bs with
    | [] => .error .truncated
    | imm8 :: rest => .ok (.reg (bits20 modrm) imm8, rest)
  else .ok (.memForm (bits76 modrm) (bits20 modrm), bs)

/-! ## The legacy shape (R64 steps 1, 2 and 4) -/

/-- After the ModRM byte of rows 1, 5, 9 and 2, 6, 10 (`p66`). On the MMX forms `REX.R`, and `REX.B` with `mod = 11`, are
refused (R55, D21). -/
def decodeLegacyRm (p66 : Bool) (rex : Option Rex) (e : Elem) (modrm : Byte) (bs : List Byte) : Decoded Instr :=
  if !p66 && rexR rex then .error .rexRExtendsNothing
  else if !p66 && rexB rex && bits76 modrm == 3#2 then .error .rexBExtendsNothing
  else
    match takeRm modrm bs with
    | .error e' => .error e'
    | .ok (rm, rest) =>
      .ok (if p66 then mkXmmRm e rex (bits53 modrm) rm else mkMmRm e rex (bits53 modrm) rm, rest)

/-- After the ModRM byte of rows 3, 7, 11 and 4, 8, 12 (`p66`). `REX.R` extends nothing on an MI form and is refused, and
`REX.B` naming an MMX register too (R55, D21). -/
def decodeLegacyImm (p66 : Bool) (rex : Option Rex) (e : Elem) (modrm : Byte) (bs : List Byte) : Decoded Instr :=
  if bits53 modrm ≠ 6#3 then .error (.opcodeExtensionNotSix (bits53 modrm))
  else if rexR rex then .error .rexRExtendsNothing
  else if !p66 && rexB rex && bits76 modrm == 3#2 then .error .rexBExtendsNothing
  else
    match takeImm modrm bs with
    | .error e' => .error e'
    | .ok (rm, rest) => .ok (if p66 then mkXmmImm e rex rm else mkMmImm e rex rm, rest)

/-- After the escape byte `0FH`. -/
def decodeAfterEscape (p66 : Bool) (rex : Option Rex) : List Byte → Decoded Instr
  | [] => .error .truncated
  | op :: bs =>
    match opcodeRow op with
    | none => .error (.opcodeNotListed op)
    | some (e, imm) =>
      match bs with
      | [] => .error .truncated
      | modrm :: bs =>
        if imm then decodeLegacyImm p66 rex e modrm bs else decodeLegacyRm p66 rex e modrm bs

/-- The bytes that R54 and R61 (c) name as prefixes that are not admitted where the escape byte must stand. -/
def prefixBytes : List Byte :=
  [0xF0#8, 0xF2#8, 0xF3#8, 0x26#8, 0x2E#8, 0x36#8, 0x3E#8, 0x64#8, 0x65#8, 0x67#8, 0x66#8]

/-- The name under which a byte other than `0FH` is refused where the escape byte must stand (R54, R61; log 17). -/
def escapeRefusal (m : Mode) (afterPrefix : Bool) (b : Byte) : DecodeRefusal :=
  if prefixBytes.contains b then .prefixNotAdmitted b
  else if m == .mode64 && b.extractLsb' 4 4 == 4#4 then .prefixNotAdmitted b
  else if b == 0xC4#8 || b == 0xC5#8 then
    if afterPrefix then .vexAfterPrefix b else .notVexInMode32 b
  else .notEscape b

/-- The escape byte and what follows it. -/
def decodeEscape (m : Mode) (p66 : Bool) (rex : Option Rex) : List Byte → Decoded Instr
  | [] => .error .truncated
  | b :: bs =>
    if b = 0x0F#8 then decodeAfterEscape p66 rex bs
    else .error (escapeRefusal m (p66 || rex.isSome) b)

/-- The REX prefix that a byte `40H..4FH` is (R55). -/
def rexOf (b : Byte) : Rex := ⟨b.getLsbD 3, b.getLsbD 2, b.getLsbD 1, b.getLsbD 0⟩

/-- The optional REX prefix, in mode64 only (R55), and what follows it. -/
def decodeRex (m : Mode) (p66 : Bool) : List Byte → Decoded Instr
  | [] => .error .truncated
  | b :: bs =>
    if m = .mode64 ∧ b.extractLsb' 4 4 = 4#4 then decodeEscape m p66 (some (rexOf b)) bs
    else decodeEscape m p66 none (b :: bs)

/-- The legacy shape: the optional `66` and what follows it (R50, R54). -/
def decodeLegacy (m : Mode) : List Byte → Decoded Instr
  | [] => .error .truncated
  | b :: bs => if b = 0x66#8 then decodeRex m true bs else decodeRex m false (b :: bs)

/-! ## The VEX shape (R64 steps 3 and 4) -/

/-- The opcode, ModRM byte and operands after a VEX prefix with its `L` bit. On a VMI form `Rx = 1` is refused
(R61 (e), D21). -/
def decodeVexOpcode (vex : Vex) (l : Bool) : List Byte → Decoded Instr
  | [] => .error .truncated
  | op :: bs =>
    match opcodeRow op with
    | none => .error (.opcodeNotListed op)
    | some (e, imm) =>
      match bs with
      | [] => .error .truncated
      | modrm :: bs =>
        if imm then
          if bits53 modrm ≠ 6#3 then .error (.opcodeExtensionNotSix (bits53 modrm))
          else if vex.rBit then .error .vexRExtendsNothing
          else
            match takeImm modrm bs with
            | .error e' => .error e'
            | .ok (rm, rest) => .ok (mkVexImm l e vex rm, rest)
        else
          match takeRm modrm bs with
          | .error e' => .error e'
          | .ok (rm, rest) => .ok (mkVexRm l e vex (bits53 modrm) rm, rest)

/-- After the byte `C5H` and its next byte (R60). -/
def decodeVex2 (b1 : Byte) (bs : List Byte) : Decoded Instr :=
  if vexPp b1 ≠ 1#2 then .error (.vexPpNotListed (vexPp b1))
  else decodeVexOpcode (.vex2 (!b1.getLsbD 7) (vexVvvv b1)) (vexL b1) bs

/-- After the byte `C4H` and its next byte (R60). -/
def decodeVex3 (b1 : Byte) : List Byte → Decoded Instr
  | [] => .error .truncated
  | b2 :: bs =>
    if b1.extractLsb' 0 5 ≠ 1#5 then .error (.vexMapNotListed (b1.extractLsb' 0 5))
    else if vexPp b2 ≠ 1#2 then .error (.vexPpNotListed (vexPp b2))
    else
      decodeVexOpcode (.vex3 (!b1.getLsbD 7) (!b1.getLsbD 6) (!b1.getLsbD 5) (b2.getLsbD 7) (vexVvvv b2))
        (vexL b2) bs

/-! ## The decoder (R64) -/

/-- `decode m bytes`: the instruction that the first bytes spell in mode `m`, and the bytes after it; or why not. -/
def decode (m : Mode) : List Byte → Decoded Instr
  | [] => .error .truncated
  | b :: bs =>
    if b = 0xC4#8 ∨ b = 0xC5#8 then
      match bs with
      | [] => .error .truncated
      | b1 :: rest =>
        if m = .mode64 ∨ bits76 b1 = 3#2 then
          if b = 0xC5#8 then decodeVex2 b1 rest else decodeVex3 b1 rest
        else decodeLegacy m (b :: bs)
    else decodeLegacy m (b :: bs)

/-! ## The encoder, from the same tables -/

def rexByte (rex : Rex) : Byte :=
  (4#4 ++ BitVec.ofBool rex.w ++ BitVec.ofBool rex.r ++ BitVec.ofBool rex.x ++ BitVec.ofBool rex.b : BitVec 8)

def disp32Bytes (d : BitVec 32) : List Byte :=
  [d.extractLsb' 0 8, d.extractLsb' 8 8, d.extractLsb' 16 8, d.extractLsb' 24 8]

/-- The `mod` field that announces a displacement (R56). -/
def Disp.mod : Disp → BitVec 2
  | .none => 0#2
  | .disp8 _ => 1#2
  | .disp32 _ => 2#2

def Disp.bytes : Disp → List Byte
  | .none => []
  | .disp8 d => [d]
  | .disp32 d => disp32Bytes d

/-- ModRM, SIB and displacement of a memory operand, `reg` being `ModRM.reg` (R56, R58). -/
def MemOperand.bytes (reg : BitVec 3) : MemOperand → List Byte
  | .base rm d => packModRm d.mod reg rm :: d.bytes
  | .dispOnly d => packModRm 0#2 reg 5#3 :: disp32Bytes d
  | .sib scale index sb d => packModRm d.mod reg 4#3 :: packModRm scale index sb :: d.bytes
  | .sibNoBase scale index d => packModRm 0#2 reg 4#3 :: packModRm scale index 5#3 :: disp32Bytes d

def RmOperand.bytes (reg : BitVec 3) : RmOperand → List Byte
  | .reg n => [packModRm 3#2 reg n]
  | .mem m => m.bytes reg

/-- ModRM with the extension `/6`, and the immediate (R52, R63). -/
def ImmOperand.bytes : ImmOperand → List Byte
  | .reg n imm8 => [packModRm 3#2 6#3 n, imm8]
  | .memForm mod rm => [packModRm mod 6#3 rm]

def legacyBytes (p66 : Bool) (rex : Option Rex) (op : Byte) (tail : List Byte) : List Byte :=
  (if p66 then [0x66#8] else []) ++ (rex.elim [] fun r => [rexByte r]) ++ (0x0F#8 :: op :: tail)

/-- The prefix bytes of R60, with `mmmmm = 00001` and `pp = 01`. -/
def Vex.bytes (l : Bool) : Vex → List Byte
  | .vex2 r v => [0xC5#8, (BitVec.ofBool (!r) ++ ~~~v ++ BitVec.ofBool l ++ 1#2 : BitVec 8)]
  | .vex3 r x b w v =>
    [0xC4#8, (BitVec.ofBool (!r) ++ BitVec.ofBool (!x) ++ BitVec.ofBool (!b) ++ 1#5 : BitVec 8),
      (BitVec.ofBool w ++ ~~~v ++ BitVec.ofBool l ++ 1#2 : BitVec 8)]

def vexFormBytes (l : Bool) (vex : Vex) (op : Byte) (tail : List Byte) : List Byte :=
  vex.bytes l ++ (op :: tail)

/-- The bytes that spell an instruction (R53, R54, R56, R58, R60, R63). -/
def encode : Instr → List Byte
  | .psllwMmMmm64 rex reg rm => legacyBytes false rex 0xF1#8 (rm.bytes reg)
  | .psllwXmmXmmm128 rex reg rm => legacyBytes true rex 0xF1#8 (rm.bytes reg)
  | .psllwMmImm8 rex rm => legacyBytes false rex 0x71#8 rm.bytes
  | .psllwXmmImm8 rex rm => legacyBytes true rex 0x71#8 rm.bytes
  | .pslldMmMmm64 rex reg rm => legacyBytes false rex 0xF2#8 (rm.bytes reg)
  | .pslldXmmXmmm128 rex reg rm => legacyBytes true rex 0xF2#8 (rm.bytes reg)
  | .pslldMmImm8 rex rm => legacyBytes false rex 0x72#8 rm.bytes
  | .pslldXmmImm8 rex rm => legacyBytes true rex 0x72#8 rm.bytes
  | .psllqMmMmm64 rex reg rm => legacyBytes false rex 0xF3#8 (rm.bytes reg)
  | .psllqXmmXmmm128 rex reg rm => legacyBytes true rex 0xF3#8 (rm.bytes reg)
  | .psllqMmImm8 rex rm => legacyBytes false rex 0x73#8 rm.bytes
  | .psllqXmmImm8 rex rm => legacyBytes true rex 0x73#8 rm.bytes
  | .vpsllwXmmXmmXmmm128 vex reg rm => vexFormBytes false vex 0xF1#8 (rm.bytes reg)
  | .vpsllwXmmXmmImm8 vex rm => vexFormBytes false vex 0x71#8 rm.bytes
  | .vpslldXmmXmmXmmm128 vex reg rm => vexFormBytes false vex 0xF2#8 (rm.bytes reg)
  | .vpslldXmmXmmImm8 vex rm => vexFormBytes false vex 0x72#8 rm.bytes
  | .vpsllqXmmXmmXmmm128 vex reg rm => vexFormBytes false vex 0xF3#8 (rm.bytes reg)
  | .vpsllqXmmXmmImm8 vex rm => vexFormBytes false vex 0x73#8 rm.bytes
  | .vpsllwYmmYmmXmmm128 vex reg rm => vexFormBytes true vex 0xF1#8 (rm.bytes reg)
  | .vpsllwYmmYmmImm8 vex rm => vexFormBytes true vex 0x71#8 rm.bytes
  | .vpslldYmmYmmXmmm128 vex reg rm => vexFormBytes true vex 0xF2#8 (rm.bytes reg)
  | .vpslldYmmYmmImm8 vex rm => vexFormBytes true vex 0x72#8 rm.bytes
  | .vpsllqYmmYmmXmmm128 vex reg rm => vexFormBytes true vex 0xF3#8 (rm.bytes reg)
  | .vpsllqYmmYmmImm8 vex rm => vexFormBytes true vex 0x73#8 rm.bytes

/-! ## The length (R62) -/

/-- `n_disp`. -/
def Disp.length : Disp → Nat
  | .none => 0
  | .disp8 _ => 1
  | .disp32 _ => 4

/-- 1 (ModRM) + `n_sib` + `n_disp`. -/
def RmOperand.length : RmOperand → Nat
  | .reg _ => 1
  | .mem (.base _ d) => 1 + d.length
  | .mem (.dispOnly _) => 1 + 4
  | .mem (.sib _ _ _ d) => 1 + 1 + d.length
  | .mem (.sibNoBase _ _ _) => 1 + 1 + 4

/-- 1 (ModRM) + `n_imm`; of the memory form, the ModRM byte alone, which is all that is decoded (log 12). -/
def ImmOperand.length : ImmOperand → Nat
  | .reg _ _ => 2
  | .memForm _ _ => 1

/-- `n_prefix` of the legacy shape and 1 for the opcode. -/
def legacyHead (p66 : Bool) (rex : Option Rex) : Nat := p66.toNat + rex.isSome.toNat + 1 + 1

/-- `n_prefix` of the VEX shape and 1 for the opcode. -/
def Vex.head : Vex → Nat
  | .vex2 _ _ => 2 + 1
  | .vex3 _ _ _ _ _ => 3 + 1

/-- The length of an instruction in bytes (R62). -/
def Instr.length : Instr → Nat
  | .psllwMmMmm64 rex _ rm => legacyHead false rex + rm.length
  | .psllwXmmXmmm128 rex _ rm => legacyHead true rex + rm.length
  | .psllwMmImm8 rex rm => legacyHead false rex + rm.length
  | .psllwXmmImm8 rex rm => legacyHead true rex + rm.length
  | .pslldMmMmm64 rex _ rm => legacyHead false rex + rm.length
  | .pslldXmmXmmm128 rex _ rm => legacyHead true rex + rm.length
  | .pslldMmImm8 rex rm => legacyHead false rex + rm.length
  | .pslldXmmImm8 rex rm => legacyHead true rex + rm.length
  | .psllqMmMmm64 rex _ rm => legacyHead false rex + rm.length
  | .psllqXmmXmmm128 rex _ rm => legacyHead true rex + rm.length
  | .psllqMmImm8 rex rm => legacyHead false rex + rm.length
  | .psllqXmmImm8 rex rm => legacyHead true rex + rm.length
  | .vpsllwXmmXmmXmmm128 vex _ rm => vex.head + rm.length
  | .vpsllwXmmXmmImm8 vex rm => vex.head + rm.length
  | .vpslldXmmXmmXmmm128 vex _ rm => vex.head + rm.length
  | .vpslldXmmXmmImm8 vex rm => vex.head + rm.length
  | .vpsllqXmmXmmXmmm128 vex _ rm => vex.head + rm.length
  | .vpsllqXmmXmmImm8 vex rm => vex.head + rm.length
  | .vpsllwYmmYmmXmmm128 vex _ rm => vex.head + rm.length
  | .vpsllwYmmYmmImm8 vex rm => vex.head + rm.length
  | .vpslldYmmYmmXmmm128 vex _ rm => vex.head + rm.length
  | .vpslldYmmYmmImm8 vex rm => vex.head + rm.length
  | .vpsllqYmmYmmXmmm128 vex _ rm => vex.head + rm.length
  | .vpsllqYmmYmmImm8 vex rm => vex.head + rm.length

/-! ## The opcode table's own numbering -/

/-- The longest instruction, in bytes (R62). -/
def maxLength : Nat := 10

/-- The bytes of a table word of `nbits` bits. The table writes `0FH ++ opcode ++ ModRM` as one number, the first byte the
most significant (R64), so byte `k` of `n` is bits `8(n-1-k)+7 : 8(n-1-k)`; the bytes after them, up to the longest
instruction, are 0 (log 13). -/
def tableBytes (nbits w : Nat) : List Byte :=
  let n := (nbits + 7) / 8
  ((List.range n).map fun k => BitVec.ofNat 8 (w >>> (8 * (n - 1 - k)))) ++ List.replicate (maxLength - n) 0#8

/-- The instruction that the decoder reads, in mode64, from a word numbered as the opcode table numbers it (log 13). -/
def decodeTableWord (nbits w : Nat) : Option Instr :=
  match decode .mode64 (tableBytes nbits w) with
  | .ok (i, _) => some i
  | .error _ => none

end Sys2Proof
end

