-- ==== Sys2Proof/Machine/State.lean ====
section
/-! DEFINITION. The state of the machine (spec `10_state.md`), the reasons a step can stop, and the state after reset. -/

namespace Sys2Proof.Machine

/-- Memory: (address, byte) pairs in one canonical form, see `Memory.wf`; the bytes of `20_memory.md` R30. -/
abbrev Memory := List Host.Cell

/-- The exceptions that a form raises in this machine (`60_exceptions.md` R130). -/
inductive Exc where
  /-- `#UD`, invalid opcode (R131 to R135). -/
  | ud
  /-- `#NM`, device not available (R132 to R134). -/
  | nm
  /-- `#MF`, x87 floating-point error pending (R132). -/
  | mf
  /-- `#GP(0)`, for the alignment of a legacy `m128` (R136). -/
  | gp0
  /-- `#AC(0)`, for the alignment of an `m64` with alignment checking on (R138; log 3). -/
  | ac0
  /-- `#MemFault(addr)`, which stands for `#SS(0)`, `#GP(0)` and `#PF` together (R137, decision D37). -/
  | memFault (addr : Quad)
deriving DecidableEq, Repr

/-- The fault record `(kind, pc)` (`10_state.md` R22). -/
structure FaultRecord where
  kind : Exc
  pc : Quad
deriving DecidableEq, Repr

/-- The control state that the operating system holds, read-only to every form (`10_state.md` R18). The premises
`OS_MMX_OK`, `OS_SSE_OK`, `OS_AVX_OK` are computed from it (log 2). -/
structure Control where
  /-- `CR0.EM`. -/
  cr0Em : Bool
  /-- `CR0.TS`. -/
  cr0Ts : Bool
  /-- `CR0.AM`. -/
  cr0Am : Bool
  /-- `CR4.OSFXSR`. -/
  cr4Osfxsr : Bool
  /-- `CR4.OSXSAVE`. -/
  cr4Osxsave : Bool
  /-- `XCR0[1]`, SSE state. -/
  xcr0Sse : Bool
  /-- `XCR0[2]`, AVX state. -/
  xcr0Avx : Bool
  /-- An unmasked x87 floating-point exception is pending. -/
  x87Pending : Bool
  /-- The privilege level CPL, read by the `#AC(0)` condition alone (R138, R145). -/
  cpl : BitVec 2
deriving DecidableEq, Repr

/-- The state of machine M (`10_state.md` R10 to R22), with the parameters of the step (`00_scope.md` R4; log 1). -/
structure State where
  /-- `MM[0..7]` (R10). -/
  mm : Vector Quad 8
  /-- `YMM[0..15]`; `XMM[i]` is the low half of `YMM[i]` (R11, R12). In mode32 only 0 to 7 are reachable (log 19). -/
  ymm : Vector Vec 16
  /-- `x[0..15]`, the general registers that form addresses (R14). -/
  x : Vector Quad 16
  /-- `pc`, the address of the instruction's first byte (R15). -/
  pc : Quad
  /-- The flags register, opaque but for `EFLAGS.AC` (R16, R18; log 6). -/
  flags : Quad
  /-- `MXCSR`, which no form reads or writes (R19; log 4). -/
  mxcsr : BitVec 32
  /-- The control state (R18). -/
  ctl : Control
  /-- The parameters of the step (R4). -/
  cfg : Params
  /-- `Mem` (`20_memory.md` R30). -/
  mem : Memory
  /-- `fault` (R22). -/
  fault : Option FaultRecord
deriving DecidableEq, Repr

/-- Why the machine stops with a fault. -/
inductive Fault where
  /-- Raised by `step` in a state whose `fault` component is set: such a state has no further step (R22, R142; log 10).
  Safe: the chip would enter a handler, and the model has no run that claims to say what happens there. -/
  | faulted (r : FaultRecord)
deriving DecidableEq, Repr

/-- Why the machine refuses a step. -/
inductive Refusal where
  /-- Raised by `exec` for an instruction that has no meaning yet. Safe: it only loses runs. -/
  | notModelled (mnemonic : String)
  /-- Raised by `step` when the decoder refuses the bytes at `pc` (`30_encoding.md` R64). Safe: it only loses runs. -/
  | undecodable (why : DecodeRefusal)
  /-- Raised where `pc + len` would pass `2^AW - 1` (`10_state.md` R15, decision D8; log 8). Safe: it only loses runs. -/
  | pcPastTop
  /-- Raised by `step` where `pc = END`: the run is over (`70_reset_and_hazards.md` R163; log 11). Safe: `END` is a
  convention of the model, and a state without an `END` never answers it. -/
  | runOver
deriving DecidableEq, Repr

/-- The control state after reset: the launch premises hold (`70_reset_and_hazards.md` R164). DESIGN CHOICE (log 2,
log 3), unsafe: the spec states no reset value. -/
def Control.reset : Control where
  cr0Em := false
  cr0Ts := false
  cr0Am := false
  cr4Osfxsr := true
  cr4Osxsave := true
  xcr0Sse := true
  xcr0Avx := true
  x87Pending := false
  cpl := 0#2

/-- The parameters after reset. DESIGN CHOICE (log 1, log 15), unsafe: the spec leaves each of them OPEN. -/
def resetParams : Params where
  mode := .mode64
  hasMmx := true
  hasSse2 := true
  hasAvx := true
  hasAvx2 := true
  admitted := [⟨0, 2 ^ 64, none⟩]
  linearBits := 48
  entry := 0#64
  endAt := none

/-- The machine right after reset: one launch state of R160 to R164. The spec states `fault = none` and `pc = ENTRY`;
every other value is the log's: zero registers (DESIGN CHOICE, log 5, unsafe), `MXCSR` (PRESUMED, log 4, unsafe), nothing
listed in memory (log 7). -/
def State.reset : State where
  mm := Vector.replicate 8 0#64
  ymm := Vector.replicate 16 0#256
  x := Vector.replicate 16 0#64
  pc := resetParams.entry
  flags := 0#64
  mxcsr := 0x1F80#32
  ctl := Control.reset
  cfg := resetParams
  mem := []
  fault := none

end Sys2Proof.Machine
end

