-- ==== Sys2Proof/Machine/Flags.lean ====
section
/-! DEFINITION. The flags. "Flags Affected: None." (spec `10_state.md` R16, `40_shift_functions.md` R87): no form computes,
reads or writes a status flag, so the only bit that has a name here is the system flag `EFLAGS.AC`. -/

namespace Sys2Proof.Machine

/-- `EFLAGS.AC`, bit 18 of the flags register (`10_state.md` R18). -/
def acFlag (s : State) : Bool := s.flags.getLsbD 18

/-- Alignment checking is enabled: `CR0.AM = 1`, `EFLAGS.AC = 1` and CPL = 3 (`60_exceptions.md` R138). The launch premises
of `70_reset_and_hazards.md` R164 have it off (log 3). -/
def alignCheckOn (s : State) : Bool := s.ctl.cr0Am && acFlag s && s.ctl.cpl == 3#2

end Sys2Proof.Machine
end

