-- ==== Sys2Proof/Machine/Shift.lean ====
section
/-! DEFINITION. The packed left shift that all 24 forms share (spec `40_shift_functions.md` R81, R82, R84). -/

namespace Sys2Proof.Machine

/-- Lane `j` of width `w`: `v[jw+w-1 : jw]`, lane 0 least significant (`00_scope.md` R6). -/
def lane (w : Nat) {n : Nat} (v : BitVec n) (j : Nat) : BitVec w := v.extractLsb' (j * w) w

/-- One lane of R82: zero when `count > w - 1`, else `lane * 2^count mod 2^w` (R7). `count` is a natural number, so nothing
of COUNT is masked off (R81). -/
def shiftLane {w : Nat} (l : BitVec w) (count : Nat) : BitVec w :=
  if count > w - 1 then 0#w else BitVec.ofNat w (l.toNat * 2 ^ count)

/-- The `n`-bit value whose lanes, least significant first, are given. -/
def packLanes (n : Nat) {w : Nat} : List (BitVec w) → BitVec n
  | [] => 0#n
  | l :: ls => l.setWidth n ||| (packLanes n ls <<< w)

/-- `SLL(W, N, v, COUNT)` (R82): every one of the `N/W` lanes by the same count. -/
def sll (w : Nat) {n : Nat} (v : BitVec n) (count : Nat) : BitVec n :=
  packLanes n ((List.range (n / w)).map fun j => shiftLane (lane w v j) count)

end Sys2Proof.Machine
end

