-- ==== Sys2Proof/Machine/Ops.lean ====
section
/-! DEFINITION. The named operations over memory and registers, taking an exception, and the step skeleton that the four
families share (spec `10_state.md`, `20_memory.md`, `60_exceptions.md`). -/

namespace Sys2Proof.Machine

/-- What an instruction answers. -/
abbrev Result := Host.Outcome State Fault Refusal

/-! ## Widths -/

/-- `AW`, the width of addresses and of `pc` (`00_scope.md` R4, decision D8). -/
def addrWidth : Mode → Nat
  | .mode64 => 64
  | .mode32 => 32

/-- `NVEC`, the number of vector registers reachable (`10_state.md` R11). -/
def nvec : Mode → Nat
  | .mode64 => 16
  | .mode32 => 8

/-- A 64-bit value modulo `2^AW`. -/
def toAw (m : Mode) (v : Quad) : Quad :=
  match m with
  | .mode64 => v
  | .mode32 => (v.setWidth 32).setWidth 64

/-! ## Memory -/

/-- What a byte that memory does not list reads as. DESIGN CHOICE (log 7), unsafe: the spec leaves the contents of memory
at launch unspecified (`70_reset_and_hazards.md` R162). -/
def blankByte : Byte := 0#8

/-- The canonical form: addresses strictly rising, and no entry equal to what an unlisted byte reads as. -/
abbrev Memory.wf (m : Memory) : Prop :=
  (m.map Prod.fst).Pairwise (· < ·) ∧ ∀ c ∈ m, c.2 ≠ blankByte

/-- The byte at an address. -/
def Memory.read : Memory → Nat → Byte
  | [], _ => blankByte
  | (k, b) :: m, a => if a = k then b else Memory.read m a

/-- Store one byte, keeping the canonical form. No form writes memory (`20_memory.md` R30); a loader does (log 14). -/
def Memory.write : Memory → Nat → Byte → Memory
  | [], a, v => if v = blankByte then [] else [(a, v)]
  | (k, b) :: m, a, v =>
    if a < k then (if v = blankByte then (k, b) :: m else (a, v) :: (k, b) :: m)
    else if a = k then (if v = blankByte then m else (a, v) :: m)
    else (k, b) :: Memory.write m a v

/-- Store bytes at rising addresses: `MemWrite` of `00_scope.md` R7, which no form calls. -/
def Memory.writeBytes (m : Memory) (a : Nat) : List Byte → Memory
  | [] => m
  | b :: bs => Memory.writeBytes (m.write a b) (a + 1) bs

/-- `n` bytes from `a` on as one little-endian value: bits `8k+7 : 8k` are the byte at `a + k` (`20_memory.md` R31). -/
def Memory.readLe (m : Memory) : Nat → (n : Nat) → BitVec (8 * n)
  | _, 0 => 0#0
  | a, n + 1 => (Memory.readLe m (a + 1) n ++ m.read a : BitVec (8 * n + 8))

/-- The address is canonical for a linear-address width of `bits`: bits 63 to `bits - 1` are all equal
(`20_memory.md` R39). -/
def canonical (bits a : Nat) : Bool := decide (a < 2 ^ (bits - 1)) || decide (2 ^ 64 - 2 ^ (bits - 1) ≤ a)

/-- The range holds the `n` bytes from `a` on and serves reads of that size. -/
def serves (r : ReadRange) (a n : Nat) : Bool :=
  decide (r.base ≤ a) && decide (a + n ≤ r.base + r.size) && r.only.all (· == n)

/-- What R39 asks of every `Admit`: in mode64 no byte of an admitted read has a non-canonical address. -/
def canonicalRead (p : Params) (a n : Nat) : Bool :=
  p.mode == .mode32 || (List.range n).all fun k => canonical p.linearBits (a + k)

/-- `Admit(addr, n)` (`00_scope.md` R4, `20_memory.md` R35): an admitted range serves the read, and R39 allows it
(log 15). -/
def admits (p : Params) (a n : Nat) : Bool := (p.admitted.any fun r => serves r a n) && canonicalRead p a n

/-- `Admit(addr, 1)`, which the fetch asks of each byte of an instruction (`70_reset_and_hazards.md` R162; log 9). -/
def admitsByte (p : Params) (a : Nat) : Bool := admits p a 1

/-- `MemRead(addr, n)` (`20_memory.md` R35): `#MemFault(addr)` when the operand runs off the top of the space or is not
admitted, else the `n` bytes, little-endian. -/
def memRead (s : State) (addr : Quad) (n : Nat) : Except Exc (BitVec (8 * n)) :=
  if addr.toNat + n - 1 > 2 ^ addrWidth s.cfg.mode - 1 then .error (.memFault addr)
  else if !admits s.cfg addr.toNat n then .error (.memFault addr)
  else .ok (s.mem.readLe addr.toNat n)

/-! ## Registers -/

/-- `MM[i]` (`10_state.md` R10). -/
def State.mmReg (s : State) (i : BitVec 3) : Quad := s.mm[i.toNat]'i.isLt

/-- `MM[i] <- v`. -/
def State.setMm (s : State) (i : BitVec 3) (v : Quad) : State := { s with mm := s.mm.set i.toNat v i.isLt }

/-- `YMM[i]` (`10_state.md` R11). -/
def State.ymmReg (s : State) (i : BitVec 4) : Vec := s.ymm[i.toNat]'i.isLt

/-- `XMM[i] = YMM[i][127:0]` (`10_state.md` R12). -/
def State.xmmReg (s : State) (i : BitVec 4) : BitVec 128 := (s.ymmReg i).extractLsb' 0 128

/-- `YMM[i] <- v`, all 256 bits. -/
def State.setYmm (s : State) (i : BitVec 4) (v : Vec) : State := { s with ymm := s.ymm.set i.toNat v i.isLt }

/-- `XMM[i] <- v` keeping the upper half (`00_scope.md` R7). -/
def State.setXmmKeep (s : State) (i : BitVec 4) (v : BitVec 128) : State :=
  s.setYmm i ((s.ymmReg i).extractLsb' 128 128 ++ v : BitVec 256)

/-- `XMM[i] <- v` zeroing the upper half (`00_scope.md` R7). -/
def State.setXmmZero (s : State) (i : BitVec 4) (v : BitVec 128) : State := s.setYmm i (v.setWidth 256)

/-- `x[i]` read at width `AW` (`10_state.md` R14, `30_encoding.md` R59). -/
def State.xReg (s : State) (i : BitVec 4) : Quad := toAw s.cfg.mode (s.x[i.toNat]'i.isLt)

/-! ## Taking an exception -/

/-- Taking an exception (`60_exceptions.md` R142): `fault <- (kind, pc)` and nothing else changes. No return from an
exception is in scope (R143), so none stands beside it. -/
def raiseExc (e : Exc) (s : State) : Result := .next { s with fault := some ⟨e, s.pc⟩ }

/-- The architecture's vector number (`60_exceptions.md` R130). Exception delivery is out of scope, so the step does not
read it; `#MemFault` has none. -/
def excVector : Exc → Option Nat
  | .ud => some 6
  | .nm => some 7
  | .mf => some 16
  | .gp0 => some 13
  | .ac0 => some 17
  | .memFault _ => none

/-- The architecture's error code (`60_exceptions.md` R130); not part of the fault record (decision D37). -/
def excErrorCode : Exc → Option Nat
  | .gp0 => some 0
  | .ac0 => some 0
  | _ => none

/-! ## The step skeleton (R96, R106, R117, R126) -/

/-- The advance of `pc` (`10_state.md` R15): refused where `pc + len` passes `2^AW - 1` (log 8). -/
def advance (s : State) (len : Nat) : Result :=
  if s.pc.toNat + len > 2 ^ addrWidth s.cfg.mode - 1 then .refused .pcPastTop
  else .next { s with pc := s.pc + BitVec.ofNat 64 len }

/-- The skeleton that the four families share: the checks, then the count (which may fault), then the one write of the
destination, then the advance of `pc`; the first check that fails ends the instruction with that exception and no other
effect (`60_exceptions.md` R141, `00_scope.md` R8). -/
def runForm (s : State) (check : Option Exc) (count : Except Exc Quad) (write : Quad → State) (len : Nat) : Result :=
  match check with
  | some e => raiseExc e s
  | none =>
    match count with
    | .error e => raiseExc e s
    | .ok c => advance (write c) len

/-! ## Operating-system state (R132 to R134) -/

/-- The exception that the operating-system state gives an MMX form (`60_exceptions.md` R132); `none` is
`OS_MMX_OK`. -/
def osMmx (s : State) : Option Exc :=
  if s.ctl.cr0Em then some .ud
  else if s.ctl.cr0Ts then some .nm
  else if s.ctl.x87Pending then some .mf
  else none

/-- The exception that the operating-system state gives an SSE2 form (`60_exceptions.md` R133); `none` is
`OS_SSE_OK`. -/
def osSse (s : State) : Option Exc :=
  if s.ctl.cr0Em || !s.ctl.cr4Osfxsr then some .ud
  else if s.ctl.cr0Ts then some .nm
  else none

/-- The exception that the operating-system state gives an AVX or AVX2 form (`60_exceptions.md` R134); `none` is
`OS_AVX_OK`. -/
def osAvx (s : State) : Option Exc :=
  if !s.ctl.cr4Osxsave || !(s.ctl.xcr0Sse && s.ctl.xcr0Avx) then some .ud
  else if s.ctl.cr0Ts then some .nm
  else none

/-- The checks before the operands of a form are read: the feature flag (R131), then the operating-system state, in the
order of `60_exceptions.md` R141. -/
def formCheck (feature : Bool) (os : Option Exc) : Option Exc :=
  if !feature then some .ud else os

end Sys2Proof.Machine
end

