-- ==== Sys2Proof/Machine/Operands.lean ====
section
/-! DEFINITION. The operand forms: register numbers, effective addresses, and the count (spec `30_encoding.md` R55 to R63,
`40_shift_functions.md` R80). -/

namespace Sys2Proof.Machine

/-- The extension bits `Rx`, `Xx`, `Bx` (`30_encoding.md` R57). -/
structure ExtBits where
  r : Bool
  x : Bool
  b : Bool
deriving DecidableEq, Repr

/-- The extension bits of a legacy-shape instruction: those of REX, all 0 without one and in mode32 (R57). -/
def rexExt (m : Mode) (rex : Option Rex) : ExtBits :=
  match m, rex with
  | .mode64, some rex => ⟨rex.r, rex.x, rex.b⟩
  | _, _ => ⟨false, false, false⟩

/-- The extension bits of a VEX-shape instruction: VEX2 implies `Xx = Bx = 0` (R60); all 0 in mode32 (R57, R61 (d)). -/
def vexExt (m : Mode) (vex : Vex) : ExtBits :=
  match m, vex with
  | .mode64, .vex2 r _ => ⟨r, false, false⟩
  | .mode64, .vex3 r x b _ _ => ⟨r, x, b⟩
  | .mode32, _ => ⟨false, false, false⟩

/-- The `vvvv` field of a VEX prefix. -/
def vexVvvvField : Vex → BitVec 4
  | .vex2 _ v => v
  | .vex3 _ _ _ _ v => v

/-- `vvvv_num` (R57, R61): in mode32 only the low 3 bits. -/
def vvvvNum (m : Mode) (vex : Vex) : BitVec 4 :=
  match m with
  | .mode64 => vexVvvvField vex
  | .mode32 => ((vexVvvvField vex).setWidth 3).setWidth 4

/-- A register number from an extension bit and a 3-bit field (R57). -/
def regNum (ext : Bool) (n : BitVec 3) : BitVec 4 := (BitVec.ofBool ext ++ n : BitVec (1 + 3))

/-- A displacement, sign-extended to `AW` bits (R58). -/
def dispValue (m : Mode) : Disp → Quad
  | .none => 0#64
  | .disp8 d => toAw m (d.signExtend 64)
  | .disp32 d => toAw m (d.signExtend 64)

/-- The scaled index (R58, R59): number 0100 means no index. -/
def indexValue (s : State) (ext : ExtBits) (scale : BitVec 2) (index : BitVec 3) : Quad :=
  if regNum ext.x index = 4#4 then 0#64 else toAw s.cfg.mode (s.xReg (regNum ext.x index) <<< scale.toNat)

/-- The effective address of a memory operand, modulo `2^AW` (`30_encoding.md` R59). `len` is the length of the
instruction, which the `pc`-relative form adds. -/
def effAddr (s : State) (ext : ExtBits) (len : Nat) : MemOperand → Quad
  | .base rm d => toAw s.cfg.mode (s.xReg (regNum ext.b rm) + dispValue s.cfg.mode d)
  | .dispOnly d =>
    match s.cfg.mode with
    | .mode64 => s.pc + BitVec.ofNat 64 len + d.signExtend 64
    | .mode32 => d.setWidth 64
  | .sib scale index sb d =>
    toAw s.cfg.mode
      (s.xReg (regNum ext.b sb) + indexValue s ext scale index + dispValue s.cfg.mode d)
  | .sibNoBase scale index d =>
    toAw s.cfg.mode (indexValue s ext scale index + dispValue s.cfg.mode (.disp32 d))

/-! ## The count (`40_shift_functions.md` R80) -/

/-- The count of an MMX RM form: `MM[s]`, or the 8 bytes at any address (`20_memory.md` R32), with `#AC(0)` after the
memory faults when alignment checking is on (`60_exceptions.md` R138, R141; log 3). -/
def countMm (s : State) (ext : ExtBits) (len : Nat) : RmOperand → Except Exc Quad
  | .reg n => .ok (s.mmReg n)
  | .mem m =>
    match memRead s (effAddr s ext len m) 8 with
    | .error e => .error e
    | .ok v =>
      if alignCheckOn s && (effAddr s ext len m).toNat % 8 != 0 then .error .ac0 else .ok v

/-- The low quadword of the 16 bytes at an address (`20_memory.md` R35, R36). -/
def countM128 (s : State) (addr : Quad) : Except Exc Quad :=
  match memRead s addr 16 with
  | .error e => .error e
  | .ok v => .ok (v.extractLsb' 0 64)

/-- The count in an XMM register: `XMM[s][63:0]` (R80). -/
def countXmmReg (s : State) (i : BitVec 4) : Quad := (s.xmmReg i).extractLsb' 0 64

/-- The count of an SSE2 RM form: a misaligned `m128` raises `#GP(0)` before it is read (`20_memory.md` R33). -/
def countSse (s : State) (ext : ExtBits) (len : Nat) : RmOperand → Except Exc Quad
  | .reg n => .ok (countXmmReg s (regNum ext.b n))
  | .mem m =>
    if (effAddr s ext len m).toNat % 16 != 0 then .error .gp0 else countM128 s (effAddr s ext len m)

/-- The count of an RVM form: an `m128` at any address (`20_memory.md` R34). -/
def countVex (s : State) (ext : ExtBits) (len : Nat) : RmOperand → Except Exc Quad
  | .reg n => .ok (countXmmReg s (regNum ext.b n))
  | .mem m => countM128 s (effAddr s ext len m)

/-- The count of an MI or VMI form: the immediate, zero-extended (`30_encoding.md` R63). -/
def countImm (imm8 : Byte) : Quad := imm8.setWidth 64

end Sys2Proof.Machine
end

