-- ==== Sys2Proof/Machine/Avx.lean ====
section
/-! DEFINITION. The six AVX forms, VEX.128 (spec `43_vex128_avx.md` R110 to R117): the family skeletons, and one meaning for
each form. Bits 255:128 of the destination's YMM register are zeroed whatever the count (R116). -/

namespace Sys2Proof.Machine

/-- R117 for an RVM form: destination `XMM[Rx ++ ModRM.reg]`, value shifted `XMM[vvvv]`, the count from the r/m operand. -/
def avxRvm (w len : Nat) (vex : Vex) (reg : BitVec 3) (rm : RmOperand) (s : State) : Result :=
  let ext := vexExt s.cfg.mode vex
  runForm s (formCheck s.cfg.hasAvx (osAvx s)) (countVex s ext len rm)
    (fun count => s.setXmmZero (regNum ext.r reg) (sll w (s.xmmReg (vvvvNum s.cfg.mode vex)) count.toNat)) len

/-- R117 for a VMI form: `#UD` with `mod` other than 11, before every other check (R66, R141); else destination
`XMM[vvvv]`, value shifted `XMM[Bx ++ ModRM.rm]`, the count the immediate. -/
def avxVmi (w len : Nat) (vex : Vex) (rm : ImmOperand) (s : State) : Result :=
  match rm with
  | .memForm _ _ => raiseExc .ud s
  | .reg n imm8 =>
    runForm s (formCheck s.cfg.hasAvx (osAvx s)) (.ok (countImm imm8))
      (fun count =>
        s.setXmmZero (vvvvNum s.cfg.mode vex)
          (sll w (s.xmmReg (regNum (vexExt s.cfg.mode vex).b n)) count.toNat)) len

/-- `VPSLLW xmm1, xmm2, xmm3/m128` (R110). -/
def execVpsllwXmmXmmXmmm128 (vex : Vex) (reg : BitVec 3) (rm : RmOperand) (s : State) : Result :=
  avxRvm 16 (Instr.length (.vpsllwXmmXmmXmmm128 vex reg rm)) vex reg rm s

/-- `VPSLLW xmm1, xmm2, imm8` (R111). -/
def execVpsllwXmmXmmImm8 (vex : Vex) (rm : ImmOperand) (s : State) : Result :=
  avxVmi 16 (Instr.length (.vpsllwXmmXmmImm8 vex rm)) vex rm s

/-- `VPSLLD xmm1, xmm2, xmm3/m128` (R112). -/
def execVpslldXmmXmmXmmm128 (vex : Vex) (reg : BitVec 3) (rm : RmOperand) (s : State) : Result :=
  avxRvm 32 (Instr.length (.vpslldXmmXmmXmmm128 vex reg rm)) vex reg rm s

/-- `VPSLLD xmm1, xmm2, imm8` (R113). -/
def execVpslldXmmXmmImm8 (vex : Vex) (rm : ImmOperand) (s : State) : Result :=
  avxVmi 32 (Instr.length (.vpslldXmmXmmImm8 vex rm)) vex rm s

/-- `VPSLLQ xmm1, xmm2, xmm3/m128` (R114). -/
def execVpsllqXmmXmmXmmm128 (vex : Vex) (reg : BitVec 3) (rm : RmOperand) (s : State) : Result :=
  avxRvm 64 (Instr.length (.vpsllqXmmXmmXmmm128 vex reg rm)) vex reg rm s

/-- `VPSLLQ xmm1, xmm2, imm8` (R115). -/
def execVpsllqXmmXmmImm8 (vex : Vex) (rm : ImmOperand) (s : State) : Result :=
  avxVmi 64 (Instr.length (.vpsllqXmmXmmImm8 vex rm)) vex rm s

end Sys2Proof.Machine
end

