-- ==== Sys2Proof/Machine/Avx2.lean ====
section
/-! DEFINITION. The six AVX2 forms, VEX.256 (spec `44_vex256_avx2.md` R120 to R126): the family skeletons, and one meaning for
each form. All 256 bits of the destination are written; the count is the low quadword of a 128-bit operand. -/

namespace Sys2Proof.Machine

/-- R126 for an RVM form: destination `YMM[Rx ++ ModRM.reg]`, value shifted `YMM[vvvv]`, the count from the r/m operand. -/
def avx2Rvm (w len : Nat) (vex : Vex) (reg : BitVec 3) (rm : RmOperand) (s : State) : Result :=
  let ext := vexExt s.cfg.mode vex
  runForm s (formCheck s.cfg.hasAvx2 (osAvx s)) (countVex s ext len rm)
    (fun count => s.setYmm (regNum ext.r reg) (sll w (s.ymmReg (vvvvNum s.cfg.mode vex)) count.toNat)) len

/-- R126 for a VMI form: `#UD` with `mod` other than 11, before every other check (R66, R141); else destination
`YMM[vvvv]`, value shifted `YMM[Bx ++ ModRM.rm]`, the count the immediate. -/
def avx2Vmi (w len : Nat) (vex : Vex) (rm : ImmOperand) (s : State) : Result :=
  match rm with
  | .memForm _ _ => raiseExc .ud s
  | .reg n imm8 =>
    runForm s (formCheck s.cfg.hasAvx2 (osAvx s)) (.ok (countImm imm8))
      (fun count =>
        s.setYmm (vvvvNum s.cfg.mode vex)
          (sll w (s.ymmReg (regNum (vexExt s.cfg.mode vex).b n)) count.toNat)) len

/-- `VPSLLW ymm1, ymm2, xmm3/m128` (R120). -/
def execVpsllwYmmYmmXmmm128 (vex : Vex) (reg : BitVec 3) (rm : RmOperand) (s : State) : Result :=
  avx2Rvm 16 (Instr.length (.vpsllwYmmYmmXmmm128 vex reg rm)) vex reg rm s

/-- `VPSLLW ymm1, ymm2, imm8` (R121). -/
def execVpsllwYmmYmmImm8 (vex : Vex) (rm : ImmOperand) (s : State) : Result :=
  avx2Vmi 16 (Instr.length (.vpsllwYmmYmmImm8 vex rm)) vex rm s

/-- `VPSLLD ymm1, ymm2, xmm3/m128` (R122). -/
def execVpslldYmmYmmXmmm128 (vex : Vex) (reg : BitVec 3) (rm : RmOperand) (s : State) : Result :=
  avx2Rvm 32 (Instr.length (.vpslldYmmYmmXmmm128 vex reg rm)) vex reg rm s

/-- `VPSLLD ymm1, ymm2, imm8` (R123). -/
def execVpslldYmmYmmImm8 (vex : Vex) (rm : ImmOperand) (s : State) : Result :=
  avx2Vmi 32 (Instr.length (.vpslldYmmYmmImm8 vex rm)) vex rm s

/-- `VPSLLQ ymm1, ymm2, xmm3/m128` (R124). -/
def execVpsllqYmmYmmXmmm128 (vex : Vex) (reg : BitVec 3) (rm : RmOperand) (s : State) : Result :=
  avx2Rvm 64 (Instr.length (.vpsllqYmmYmmXmmm128 vex reg rm)) vex reg rm s

/-- `VPSLLQ ymm1, ymm2, imm8` (R125). -/
def execVpsllqYmmYmmImm8 (vex : Vex) (rm : ImmOperand) (s : State) : Result :=
  avx2Vmi 64 (Instr.length (.vpsllqYmmYmmImm8 vex rm)) vex rm s

end Sys2Proof.Machine
end

