-- ==== Sys2Proof/Machine/Mmx.lean ====
section
/-! DEFINITION. The six MMX forms (spec `41_legacy_mmx.md` R90 to R96): the family skeletons, and one meaning for each
form. All 64 bits of the destination are written; the x87 side effects are out of scope (`10_state.md` R20). -/

namespace Sys2Proof.Machine

/-- R96 for an RM form: destination and value shifted `MM[ModRM.reg]`, the count from the r/m operand. -/
def mmxRm (w len : Nat) (rex : Option Rex) (reg : BitVec 3) (rm : RmOperand) (s : State) : Result :=
  runForm s (formCheck s.cfg.hasMmx (osMmx s)) (countMm s (rexExt s.cfg.mode rex) len rm)
    (fun count => s.setMm reg (sll w (s.mmReg reg) count.toNat)) len

/-- R96 for an MI form: `#UD` with `mod` other than 11, before every other check (R66, R141); else destination and value
shifted `MM[ModRM.rm]`, the count the immediate. -/
def mmxMi (w len : Nat) (rm : ImmOperand) (s : State) : Result :=
  match rm with
  | .memForm _ _ => raiseExc .ud s
  | .reg n imm8 =>
    runForm s (formCheck s.cfg.hasMmx (osMmx s)) (.ok (countImm imm8))
      (fun count => s.setMm n (sll w (s.mmReg n) count.toNat)) len

/-- `PSLLW mm, mm/m64` (R90). -/
def execPsllwMmMmm64 (rex : Option Rex) (reg : BitVec 3) (rm : RmOperand) (s : State) : Result :=
  mmxRm 16 (Instr.length (.psllwMmMmm64 rex reg rm)) rex reg rm s

/-- `PSLLW mm, imm8` (R91). -/
def execPsllwMmImm8 (rex : Option Rex) (rm : ImmOperand) (s : State) : Result :=
  mmxMi 16 (Instr.length (.psllwMmImm8 rex rm)) rm s

/-- `PSLLD mm, mm/m64` (R92). -/
def execPslldMmMmm64 (rex : Option Rex) (reg : BitVec 3) (rm : RmOperand) (s : State) : Result :=
  mmxRm 32 (Instr.length (.pslldMmMmm64 rex reg rm)) rex reg rm s

/-- `PSLLD mm, imm8` (R93). -/
def execPslldMmImm8 (rex : Option Rex) (rm : ImmOperand) (s : State) : Result :=
  mmxMi 32 (Instr.length (.pslldMmImm8 rex rm)) rm s

/-- `PSLLQ mm, mm/m64` (R94). -/
def execPsllqMmMmm64 (rex : Option Rex) (reg : BitVec 3) (rm : RmOperand) (s : State) : Result :=
  mmxRm 64 (Instr.length (.psllqMmMmm64 rex reg rm)) rex reg rm s

/-- `PSLLQ mm, imm8` (R95). -/
def execPsllqMmImm8 (rex : Option Rex) (rm : ImmOperand) (s : State) : Result :=
  mmxMi 64 (Instr.length (.psllqMmImm8 rex rm)) rm s

end Sys2Proof.Machine
end

