-- ==== Sys2Proof/Machine/Sse2.lean ====
section
/-! DEFINITION. The six SSE2 forms (spec `42_legacy_sse2.md` R100 to R106): the family skeletons, and one meaning for each
form. Bits 255:128 of the destination's YMM register keep their value. -/

namespace Sys2Proof.Machine

/-- R106 for an RM form: destination and value shifted `XMM[Rx ++ ModRM.reg]`, the count from the r/m operand. -/
def sseRm (w len : Nat) (rex : Option Rex) (reg : BitVec 3) (rm : RmOperand) (s : State) : Result :=
  let ext := rexExt s.cfg.mode rex
  let d := regNum ext.r reg
  runForm s (formCheck s.cfg.hasSse2 (osSse s)) (countSse s ext len rm)
    (fun count => s.setXmmKeep d (sll w (s.xmmReg d) count.toNat)) len

/-- R106 for an MI form: `#UD` with `mod` other than 11, before every other check (R66, R141); else destination and value
shifted `XMM[Bx ++ ModRM.rm]`, the count the immediate. -/
def sseMi (w len : Nat) (rex : Option Rex) (rm : ImmOperand) (s : State) : Result :=
  match rm with
  | .memForm _ _ => raiseExc .ud s
  | .reg n imm8 =>
    let d := regNum (rexExt s.cfg.mode rex).b n
    runForm s (formCheck s.cfg.hasSse2 (osSse s)) (.ok (countImm imm8))
      (fun count => s.setXmmKeep d (sll w (s.xmmReg d) count.toNat)) len

/-- `PSLLW xmm1, xmm2/m128` (R100). -/
def execPsllwXmmXmmm128 (rex : Option Rex) (reg : BitVec 3) (rm : RmOperand) (s : State) : Result :=
  sseRm 16 (Instr.length (.psllwXmmXmmm128 rex reg rm)) rex reg rm s

/-- `PSLLW xmm1, imm8` (R101). -/
def execPsllwXmmImm8 (rex : Option Rex) (rm : ImmOperand) (s : State) : Result :=
  sseMi 16 (Instr.length (.psllwXmmImm8 rex rm)) rex rm s

/-- `PSLLD xmm1, xmm2/m128` (R102). -/
def execPslldXmmXmmm128 (rex : Option Rex) (reg : BitVec 3) (rm : RmOperand) (s : State) : Result :=
  sseRm 32 (Instr.length (.pslldXmmXmmm128 rex reg rm)) rex reg rm s

/-- `PSLLD xmm1, imm8` (R103). -/
def execPslldXmmImm8 (rex : Option Rex) (rm : ImmOperand) (s : State) : Result :=
  sseMi 32 (Instr.length (.pslldXmmImm8 rex rm)) rex rm s

/-- `PSLLQ xmm1, xmm2/m128` (R104). -/
def execPsllqXmmXmmm128 (rex : Option Rex) (reg : BitVec 3) (rm : RmOperand) (s : State) : Result :=
  sseRm 64 (Instr.length (.psllqXmmXmmm128 rex reg rm)) rex reg rm s

/-- `PSLLQ xmm1, imm8` (R105). -/
def execPsllqXmmImm8 (rex : Option Rex) (rm : ImmOperand) (s : State) : Result :=
  sseMi 64 (Instr.length (.psllqXmmImm8 rex rm)) rex rm s

end Sys2Proof.Machine
end

