-- ==== Sys2Proof/Machine/Dispatch.lean ====
section
/-! DEFINITION. One arm for each constructor of Instr. -/

namespace Sys2Proof.Machine

/-- The effect of an instruction on a state. -/
def exec (i : Instr) (s : State) : Host.Outcome State Fault Refusal :=
  match i with
  | .psllwMmMmm64 rex reg rm => Sys2Proof.Machine.execPsllwMmMmm64 rex reg rm s
  | .psllwXmmXmmm128 rex reg rm => Sys2Proof.Machine.execPsllwXmmXmmm128 rex reg rm s
  | .psllwMmImm8 rex rm => Sys2Proof.Machine.execPsllwMmImm8 rex rm s
  | .psllwXmmImm8 rex rm => Sys2Proof.Machine.execPsllwXmmImm8 rex rm s
  | .pslldMmMmm64 rex reg rm => Sys2Proof.Machine.execPslldMmMmm64 rex reg rm s
  | .pslldXmmXmmm128 rex reg rm => Sys2Proof.Machine.execPslldXmmXmmm128 rex reg rm s
  | .pslldMmImm8 rex rm => Sys2Proof.Machine.execPslldMmImm8 rex rm s
  | .pslldXmmImm8 rex rm => Sys2Proof.Machine.execPslldXmmImm8 rex rm s
  | .psllqMmMmm64 rex reg rm => Sys2Proof.Machine.execPsllqMmMmm64 rex reg rm s
  | .psllqXmmXmmm128 rex reg rm => Sys2Proof.Machine.execPsllqXmmXmmm128 rex reg rm s
  | .psllqMmImm8 rex rm => Sys2Proof.Machine.execPsllqMmImm8 rex rm s
  | .psllqXmmImm8 rex rm => Sys2Proof.Machine.execPsllqXmmImm8 rex rm s
  | .vpsllwXmmXmmXmmm128 vex reg rm => Sys2Proof.Machine.execVpsllwXmmXmmXmmm128 vex reg rm s
  | .vpsllwXmmXmmImm8 vex rm => Sys2Proof.Machine.execVpsllwXmmXmmImm8 vex rm s
  | .vpslldXmmXmmXmmm128 vex reg rm => Sys2Proof.Machine.execVpslldXmmXmmXmmm128 vex reg rm s
  | .vpslldXmmXmmImm8 vex rm => Sys2Proof.Machine.execVpslldXmmXmmImm8 vex rm s
  | .vpsllqXmmXmmXmmm128 vex reg rm => Sys2Proof.Machine.execVpsllqXmmXmmXmmm128 vex reg rm s
  | .vpsllqXmmXmmImm8 vex rm => Sys2Proof.Machine.execVpsllqXmmXmmImm8 vex rm s
  | .vpsllwYmmYmmXmmm128 vex reg rm => Sys2Proof.Machine.execVpsllwYmmYmmXmmm128 vex reg rm s
  | .vpsllwYmmYmmImm8 vex rm => Sys2Proof.Machine.execVpsllwYmmYmmImm8 vex rm s
  | .vpslldYmmYmmXmmm128 vex reg rm => Sys2Proof.Machine.execVpslldYmmYmmXmmm128 vex reg rm s
  | .vpslldYmmYmmImm8 vex rm => Sys2Proof.Machine.execVpslldYmmYmmImm8 vex rm s
  | .vpsllqYmmYmmXmmm128 vex reg rm => Sys2Proof.Machine.execVpsllqYmmYmmXmmm128 vex reg rm s
  | .vpsllqYmmYmmImm8 vex rm => Sys2Proof.Machine.execVpsllqYmmYmmImm8 vex rm s

end Sys2Proof.Machine
end

