-- ==== Sys2Proof/Machine/Fetch.lean ====
section
/-! DEFINITION. Fetching and decoding the instruction at `pc` (spec `30_encoding.md` R64, `70_reset_and_hazards.md` R162). -/

namespace Sys2Proof.Machine

/-- The bytes from `a` on, at most `n` of them, up to the first address that does not exist or is not admitted
(`20_memory.md` R30, `70_reset_and_hazards.md` R162). -/
def fetchBytes (s : State) (a : Nat) : Nat → List Byte
  | 0 => []
  | n + 1 =>
    if a < 2 ^ addrWidth s.cfg.mode ∧ admitsByte s.cfg a = true then s.mem.read a :: fetchBytes s (a + 1) n else []

/-- The bytes at `pc` that an instruction can be made of. -/
def fetchWindow (s : State) : List Byte := fetchBytes s s.pc.toNat maxLength

/-- What fetching and decoding at `pc` gives. -/
inductive Fetched where
  /-- An instruction. -/
  | instr (i : Instr)
  /-- The instruction runs into a byte that is not admitted. -/
  | notAdmitted
  /-- The instruction runs off the top of the address space. -/
  | pastTop
  /-- The decoder refuses the bytes. -/
  | refused (why : DecodeRefusal)
deriving DecidableEq, Repr

/-- Fetch and decode at `pc`. Bytes that end before the instruction does have run into a byte that is not admitted, which
faults the run (R162; log 9), or off the top of the space, which is refused (R15; log 8). -/
def fetch (s : State) : Fetched :=
  match decode s.cfg.mode (fetchWindow s) with
  | .ok (i, _) => .instr i
  | .error .truncated =>
    if s.pc.toNat + (fetchWindow s).length < 2 ^ addrWidth s.cfg.mode then .notAdmitted else .pastTop
  | .error e => .refused e

/-- The bytes of a table word stored at `pc`, those of them that lie in the address space (log 13, log 14). -/
def loadAtPc (s : State) (bs : List Byte) : Memory :=
  s.mem.writeBytes s.pc.toNat (bs.take (2 ^ addrWidth s.cfg.mode - s.pc.toNat))

end Sys2Proof.Machine
end

