-- ==== Sys2Proof/Machine/Step.lean ====
section
/-! DEFINITION. One step: decode at `pc`, execute the instruction's rule (spec `70_reset_and_hazards.md` R160). -/

namespace Sys2Proof.Machine

/-- One step. A faulted state has no further step (`60_exceptions.md` R142), and neither has the end of the run
(`70_reset_and_hazards.md` R163). -/
def step (s : State) : Host.Outcome State Fault Refusal :=
  match s.fault with
  | some r => .fault (.faulted r)
  | none =>
    if s.cfg.endAt = some s.pc then .refused .runOver
    else
      match fetch s with
      | .instr i => exec i s
      | .notAdmitted => raiseExc (.memFault s.pc) s
      | .pastTop => .refused .pcPastTop
      | .refused why => .refused (.undecodable why)

/-- `s` with the instruction of a table word stored at `pc`, so that the next step fetches and runs it (log 14). What can
stop that fetch is taken away too: a set fault, an `END` at `pc`, and bytes at `pc` that are not admitted. On
`State.reset` only memory changes. -/
def State.withFetchWord (s : State) (nbits w : Nat) : State :=
  { s with
    mem := loadAtPc s (tableBytes nbits w)
    fault := none
    cfg :=
      { s.cfg with
        endAt := if s.cfg.endAt = some s.pc then none else s.cfg.endAt
        admitted :=
          if (List.range maxLength).all fun k => admitsByte s.cfg (s.pc.toNat + k) then s.cfg.admitted
          else ⟨s.pc.toNat, maxLength, some 1⟩ :: s.cfg.admitted } }

end Sys2Proof.Machine
end

