-- ==== Sys2Proof/Safety.lean ====
section
/-! DEFINITION. The terms in which statements speak: the launch premises and the end of a run, what an instruction reads and
writes according to the opcode table, the causes of exceptions in the order of the spec, and the invariant of the machine.
They are written from the spec's rules and not from the meanings. -/

namespace Sys2Proof.Safety

open Machine

/-! ## Launch premises and runs (`70_reset_and_hazards.md`) -/

/-- `OS_MMX_OK` (R164). -/
abbrev OsMmxOk (s : State) : Prop := s.ctl.cr0Em = false ∧ s.ctl.cr0Ts = false ∧ s.ctl.x87Pending = false

/-- `OS_SSE_OK` (R164). -/
abbrev OsSseOk (s : State) : Prop := s.ctl.cr0Em = false ∧ s.ctl.cr0Ts = false ∧ s.ctl.cr4Osfxsr = true

/-- `OS_AVX_OK` (R164). -/
abbrev OsAvxOk (s : State) : Prop :=
  s.ctl.cr0Ts = false ∧ s.ctl.cr4Osxsave = true ∧ s.ctl.xcr0Sse = true ∧ s.ctl.xcr0Avx = true

/-- Alignment checking is off: not (`CR0.AM = 1` and `EFLAGS.AC = 1` and CPL = 3) (R164). -/
abbrev AlignCheckOff (s : State) : Prop :=
  ¬(s.ctl.cr0Am = true ∧ s.flags.getLsbD 18 = true ∧ s.ctl.cpl = 3#2)

/-- The premises under which an MMX form runs. -/
abbrev MmxReady (s : State) : Prop := s.cfg.hasMmx = true ∧ OsMmxOk s
/-- The premises under which an SSE2 form runs. -/
abbrev Sse2Ready (s : State) : Prop := s.cfg.hasSse2 = true ∧ OsSseOk s
/-- The premises under which an AVX form runs. -/
abbrev AvxReady (s : State) : Prop := s.cfg.hasAvx = true ∧ OsAvxOk s
/-- The premises under which an AVX2 form runs. -/
abbrev Avx2Ready (s : State) : Prop := s.cfg.hasAvx2 = true ∧ OsAvxOk s

/-- A launch state in which every form may run (R160 to R164). -/
abbrev Launch (s : State) : Prop :=
  s.fault = none ∧ s.pc = s.cfg.entry ∧ MmxReady s ∧ Sse2Ready s ∧ AvxReady s ∧ Avx2Ready s ∧ AlignCheckOff s

/-- The final state of a run: `pc = END` and `fault = none` (R163). -/
abbrev Final (s : State) : Prop := s.fault = none ∧ s.cfg.endAt = some s.pc

/-- `pc + len` does not pass `2^AW - 1` (`10_state.md` R15). -/
abbrev Fits (s : State) (i : Instr) : Prop := s.pc.toNat + i.length ≤ 2 ^ addrWidth s.cfg.mode - 1

/-- The state in which `s` has taken the exception `e` (`60_exceptions.md` R142). -/
abbrev faultedWith (s : State) (e : Exc) : State := { s with fault := some ⟨e, s.pc⟩ }

/-- An outcome with its next state changed. -/
def mapNext (f : State → State) : Result → Result
  | .next s => .next (f s)
  | .fault r => .fault r
  | .refused r => .refused r

/-! ## Values -/

/-- Lane `j` of width `w` of a value, as a number (`00_scope.md` R6). -/
def laneNat (w v j : Nat) : Nat := v / 2 ^ (w * j) % 2 ^ w

/-- The first `k` lanes of `new` are those of `old` shifted left by `count` (`40_shift_functions.md` R82, R85 law 6). -/
abbrev LanesShifted (w k old new count : Nat) : Prop :=
  ∀ j < k, laneNat w new j = laneNat w old j * 2 ^ count % 2 ^ w

/-- The `n` bytes from `a` on as one little-endian number (`20_memory.md` R31). -/
def leNat (m : Memory) (a : Nat) : Nat → Nat
  | 0 => 0
  | n + 1 => (m.read a).toNat + 256 * leNat m (a + 1) n

/-- The `n` bytes at `a` can be read (`20_memory.md` R35). -/
abbrev Readable (s : State) (a : Quad) (n : Nat) : Prop :=
  a.toNat + n - 1 ≤ 2 ^ addrWidth s.cfg.mode - 1 ∧ admits s.cfg a.toNat n = true

/-! ## What the opcode table says of an instruction (`30_encoding.md` R51, R53) -/

/-- The four groups of forms, by their feature flag. -/
inductive Family where
  | mmx
  | sse2
  | avx
  | avx2
deriving DecidableEq, Repr

/-- The column "CPUID Feature Flag". -/
def familyOf : Instr → Family
  | .psllwMmMmm64 _ _ _ => .mmx
  | .psllwXmmXmmm128 _ _ _ => .sse2
  | .psllwMmImm8 _ _ => .mmx
  | .psllwXmmImm8 _ _ => .sse2
  | .pslldMmMmm64 _ _ _ => .mmx
  | .pslldXmmXmmm128 _ _ _ => .sse2
  | .pslldMmImm8 _ _ => .mmx
  | .pslldXmmImm8 _ _ => .sse2
  | .psllqMmMmm64 _ _ _ => .mmx
  | .psllqXmmXmmm128 _ _ _ => .sse2
  | .psllqMmImm8 _ _ => .mmx
  | .psllqXmmImm8 _ _ => .sse2
  | .vpsllwXmmXmmXmmm128 _ _ _ => .avx
  | .vpsllwXmmXmmImm8 _ _ => .avx
  | .vpslldXmmXmmXmmm128 _ _ _ => .avx
  | .vpslldXmmXmmImm8 _ _ => .avx
  | .vpsllqXmmXmmXmmm128 _ _ _ => .avx
  | .vpsllqXmmXmmImm8 _ _ => .avx
  | .vpsllwYmmYmmXmmm128 _ _ _ => .avx2
  | .vpsllwYmmYmmImm8 _ _ => .avx2
  | .vpslldYmmYmmXmmm128 _ _ _ => .avx2
  | .vpslldYmmYmmImm8 _ _ => .avx2
  | .vpsllqYmmYmmXmmm128 _ _ _ => .avx2
  | .vpsllqYmmYmmImm8 _ _ => .avx2

/-- The element width. -/
def elementBits : Instr → Nat
  | .psllwMmMmm64 _ _ _ => 16
  | .psllwXmmXmmm128 _ _ _ => 16
  | .psllwMmImm8 _ _ => 16
  | .psllwXmmImm8 _ _ => 16
  | .pslldMmMmm64 _ _ _ => 32
  | .pslldXmmXmmm128 _ _ _ => 32
  | .pslldMmImm8 _ _ => 32
  | .pslldXmmImm8 _ _ => 32
  | .psllqMmMmm64 _ _ _ => 64
  | .psllqXmmXmmm128 _ _ _ => 64
  | .psllqMmImm8 _ _ => 64
  | .psllqXmmImm8 _ _ => 64
  | .vpsllwXmmXmmXmmm128 _ _ _ => 16
  | .vpsllwXmmXmmImm8 _ _ => 16
  | .vpslldXmmXmmXmmm128 _ _ _ => 32
  | .vpslldXmmXmmImm8 _ _ => 32
  | .vpsllqXmmXmmXmmm128 _ _ _ => 64
  | .vpsllqXmmXmmImm8 _ _ => 64
  | .vpsllwYmmYmmXmmm128 _ _ _ => 16
  | .vpsllwYmmYmmImm8 _ _ => 16
  | .vpslldYmmYmmXmmm128 _ _ _ => 32
  | .vpslldYmmYmmImm8 _ _ => 32
  | .vpsllqYmmYmmXmmm128 _ _ _ => 64
  | .vpsllqYmmYmmImm8 _ _ => 64

/-- The prefix of an instruction: REX or none in the legacy shape, VEX in the VEX shape. -/
inductive Prefix where
  | legacy (rex : Option Rex)
  | vex (vex : Vex)
deriving DecidableEq, Repr

/-- The operands after the opcode. -/
inductive Tail where
  | rm (reg : BitVec 3) (rm : RmOperand)
  | imm (rm : ImmOperand)
deriving DecidableEq, Repr

def prefixOf : Instr → Prefix
  | .psllwMmMmm64 p _ _ => .legacy p
  | .psllwXmmXmmm128 p _ _ => .legacy p
  | .psllwMmImm8 p _ => .legacy p
  | .psllwXmmImm8 p _ => .legacy p
  | .pslldMmMmm64 p _ _ => .legacy p
  | .pslldXmmXmmm128 p _ _ => .legacy p
  | .pslldMmImm8 p _ => .legacy p
  | .pslldXmmImm8 p _ => .legacy p
  | .psllqMmMmm64 p _ _ => .legacy p
  | .psllqXmmXmmm128 p _ _ => .legacy p
  | .psllqMmImm8 p _ => .legacy p
  | .psllqXmmImm8 p _ => .legacy p
  | .vpsllwXmmXmmXmmm128 p _ _ => .vex p
  | .vpsllwXmmXmmImm8 p _ => .vex p
  | .vpslldXmmXmmXmmm128 p _ _ => .vex p
  | .vpslldXmmXmmImm8 p _ => .vex p
  | .vpsllqXmmXmmXmmm128 p _ _ => .vex p
  | .vpsllqXmmXmmImm8 p _ => .vex p
  | .vpsllwYmmYmmXmmm128 p _ _ => .vex p
  | .vpsllwYmmYmmImm8 p _ => .vex p
  | .vpslldYmmYmmXmmm128 p _ _ => .vex p
  | .vpslldYmmYmmImm8 p _ => .vex p
  | .vpsllqYmmYmmXmmm128 p _ _ => .vex p
  | .vpsllqYmmYmmImm8 p _ => .vex p

def tailOf : Instr → Tail
  | .psllwMmMmm64 _ reg rm => .rm reg rm
  | .psllwXmmXmmm128 _ reg rm => .rm reg rm
  | .psllwMmImm8 _ rm => .imm rm
  | .psllwXmmImm8 _ rm => .imm rm
  | .pslldMmMmm64 _ reg rm => .rm reg rm
  | .pslldXmmXmmm128 _ reg rm => .rm reg rm
  | .pslldMmImm8 _ rm => .imm rm
  | .pslldXmmImm8 _ rm => .imm rm
  | .psllqMmMmm64 _ reg rm => .rm reg rm
  | .psllqXmmXmmm128 _ reg rm => .rm reg rm
  | .psllqMmImm8 _ rm => .imm rm
  | .psllqXmmImm8 _ rm => .imm rm
  | .vpsllwXmmXmmXmmm128 _ reg rm => .rm reg rm
  | .vpsllwXmmXmmImm8 _ rm => .imm rm
  | .vpslldXmmXmmXmmm128 _ reg rm => .rm reg rm
  | .vpslldXmmXmmImm8 _ rm => .imm rm
  | .vpsllqXmmXmmXmmm128 _ reg rm => .rm reg rm
  | .vpsllqXmmXmmImm8 _ rm => .imm rm
  | .vpsllwYmmYmmXmmm128 _ reg rm => .rm reg rm
  | .vpsllwYmmYmmImm8 _ rm => .imm rm
  | .vpslldYmmYmmXmmm128 _ reg rm => .rm reg rm
  | .vpslldYmmYmmImm8 _ rm => .imm rm
  | .vpsllqYmmYmmXmmm128 _ reg rm => .rm reg rm
  | .vpsllqYmmYmmImm8 _ rm => .imm rm

/-- `Rx`, `Xx`, `Bx` (`30_encoding.md` R57). -/
def extOf (m : Mode) (i : Instr) : ExtBits :=
  match prefixOf i with
  | .legacy rex => rexExt m rex
  | .vex vex => vexExt m vex

/-- An MI or VMI form whose ModRM has `mod` other than 11 (R66). -/
def immMemForm (i : Instr) : Bool :=
  match tailOf i with
  | .imm (.memForm _ _) => true
  | _ => false

/-- The memory operand of an RM or RVM form (R56). -/
def memOperandOf (i : Instr) : Option MemOperand :=
  match tailOf i with
  | .rm _ (.mem m) => some m
  | _ => none

/-- The effective address of the memory operand. -/
def operandAddr (s : State) (i : Instr) (m : MemOperand) : Quad := effAddr s (extOf s.cfg.mode i) i.length m

/-- The number of bytes that the memory operand has (`20_memory.md` R36). -/
def operandBytes (i : Instr) : Nat :=
  match familyOf i with
  | .mmx => 8
  | _ => 16

/-- The destination among the MMX registers (R51): `ModRM.reg` of RM, `ModRM.rm` of MI. -/
def destMm (i : Instr) : Option (BitVec 3) :=
  match familyOf i, tailOf i with
  | .mmx, .rm reg _ => some reg
  | .mmx, .imm (.reg n _) => some n
  | _, _ => none

/-- The destination among the vector registers (R51): `ModRM.reg` of RM and RVM, `ModRM.rm` of MI, `VEX.vvvv` of VMI. -/
def destYmm (m : Mode) (i : Instr) : Option (BitVec 4) :=
  match familyOf i, prefixOf i, tailOf i with
  | .mmx, _, _ => none
  | _, _, .rm reg _ => some (regNum (extOf m i).r reg)
  | _, .legacy _, .imm (.reg n _) => some (regNum (extOf m i).b n)
  | _, .vex vex, .imm (.reg _ _) => some (vvvvNum m vex)
  | _, _, _ => none

/-- The vector register whose value is shifted (R51): the destination of a legacy form, `VEX.vvvv` of RVM, `ModRM.rm` of
VMI. -/
def valueYmm (m : Mode) (i : Instr) : Option (BitVec 4) :=
  match familyOf i, prefixOf i, tailOf i with
  | .mmx, _, _ => none
  | _, .legacy _, _ => destYmm m i
  | _, .vex vex, .rm _ _ => some (vvvvNum m vex)
  | _, .vex _, .imm (.reg n _) => some (regNum (extOf m i).b n)
  | _, _, _ => none

/-- The vector register that holds the count (R51). -/
def countYmm (m : Mode) (i : Instr) : Option (BitVec 4) :=
  match familyOf i, tailOf i with
  | .mmx, _ => none
  | _, .rm _ (.reg n) => some (regNum (extOf m i).b n)
  | _, _ => none

/-- `COUNT` as a number (`40_shift_functions.md` R80): the MMX register, the low quadword of the vector register, the first
8 bytes of the memory operand, or the immediate. -/
def countOf (s : State) (i : Instr) : Nat :=
  match familyOf i, tailOf i with
  | .mmx, .rm _ (.reg n) => (s.mmReg n).toNat
  | _, .rm _ (.reg n) => (s.ymmReg (regNum (extOf s.cfg.mode i).b n)).toNat % 2 ^ 64
  | _, .rm _ (.mem m) => leNat s.mem (operandAddr s i m).toNat 8
  | _, .imm (.reg _ imm8) => imm8.toNat
  | _, .imm (.memForm _ _) => 0

/-! ## The causes of exceptions (`60_exceptions.md`) -/

/-- The feature flag of a family (R131). -/
def featureSet (s : State) : Family → Bool
  | .mmx => s.cfg.hasMmx
  | .sse2 => s.cfg.hasSse2
  | .avx => s.cfg.hasAvx
  | .avx2 => s.cfg.hasAvx2

/-- The operating-system state gives `#UD` (R132 to R134). -/
def osStateUd (s : State) : Family → Bool
  | .mmx => s.ctl.cr0Em
  | .sse2 => s.ctl.cr0Em || !s.ctl.cr4Osfxsr
  | .avx => !s.ctl.cr4Osxsave || !s.ctl.xcr0Sse || !s.ctl.xcr0Avx
  | .avx2 => !s.ctl.cr4Osxsave || !s.ctl.xcr0Sse || !s.ctl.xcr0Avx

/-- The causes of an exception of `i` in the order of R141, each with whether it is present in `s`. -/
def causes (s : State) (i : Instr) : List (Bool × Exc) :=
  [(immMemForm i || !featureSet s (familyOf i), .ud),
    (osStateUd s (familyOf i), .ud),
    (s.ctl.cr0Ts, .nm),
    (familyOf i == .mmx && s.ctl.x87Pending, .mf)] ++
  (match memOperandOf i with
   | none => []
   | some m =>
     [(familyOf i == .sse2 && (operandAddr s i m).toNat % 16 != 0, .gp0),
       (!decide (Readable s (operandAddr s i m) (operandBytes i)), .memFault (operandAddr s i m)),
       (familyOf i == .mmx && (operandAddr s i m).toNat % 8 != 0 && !decide (AlignCheckOff s), .ac0)])

/-- The first cause that is present (R141). -/
def firstCause (s : State) (i : Instr) : Option Exc := ((causes s i).find? Prod.fst).map Prod.snd

/-! ## The invariant -/

/-- What every state of a run satisfies: memory is in its canonical form and lies in the address space, `pc` has `AW` bits
(`10_state.md` R15), and a fault record names the `pc` it was taken at (`10_state.md` R22). -/
abbrev Inv (s : State) : Prop :=
  s.mem.wf ∧ (∀ c ∈ s.mem, c.1 < 2 ^ addrWidth s.cfg.mode) ∧ s.pc.toNat < 2 ^ addrWidth s.cfg.mode ∧
    (s.fault = none ∨ s.fault.map FaultRecord.pc = some s.pc)

/-- Two states of mode32 that differ at most in what mode32 cannot reach: `YMM[8..15]`, `x[8..15]` and the upper halves of
`x[0..7]` (`10_state.md` R11, R14). -/
abbrev AgreeInMode32 (s t : State) : Prop :=
  s.cfg.mode = .mode32 ∧ t = { s with ymm := t.ymm, x := t.x } ∧
    (∀ i : BitVec 4, i.toNat < 8 → t.ymmReg i = s.ymmReg i) ∧
    (∀ i : BitVec 4, i.toNat < 8 → t.xReg i = s.xReg i)

end Sys2Proof.Safety
end

