-- ==== Sys2Proof/Certificates/Slice0/Obligations.lean ====
section
/-! DEFINITION. The statements for the provers. -/

open Sys2Proof Sys2Proof.Machine Sys2Proof.Safety

/-! ## Shapes of result statements, used below once for each form -/

namespace Sys2Proof.Statements

/-- An MMX RM form with a register count (`41_legacy_mmx.md` R96): it completes, `MM[d]` holds the shifted lanes, `pc`
advances by the length, and nothing else changes. -/
def MmxRegisterCount (w : Nat) (form : Option Rex → BitVec 3 → RmOperand → Instr) : Prop :=
  ∀ (s : State) (rex : Option Rex) (d src : BitVec 3), MmxReady s → Fits s (form rex d (.reg src)) →
    ∃ v : Quad,
      exec (form rex d (.reg src)) s =
        .next { s with mm := s.mm.set d.toNat v d.isLt
                       pc := s.pc + BitVec.ofNat 64 (form rex d (.reg src)).length } ∧
      LanesShifted w (64 / w) (s.mmReg d).toNat v.toNat (s.mmReg src).toNat

/-- An MMX RM form with an `m64` count: the 8 bytes at the effective address, at any alignment while alignment checking is
off (`20_memory.md` R32, R164), and at a multiple of 8 in any case (log 3); the read is admitted whole (log 15). -/
def MmxMemoryCount (w : Nat) (form : Option Rex → BitVec 3 → RmOperand → Instr) : Prop :=
  ∀ (s : State) (rex : Option Rex) (d : BitVec 3) (m : MemOperand) (a : Quad),
    a = effAddr s (rexExt s.cfg.mode rex) (form rex d (.mem m)).length m →
    MmxReady s → Fits s (form rex d (.mem m)) → Readable s a 8 → (AlignCheckOff s ∨ a.toNat % 8 = 0) →
    ∃ v : Quad,
      exec (form rex d (.mem m)) s =
        .next { s with mm := s.mm.set d.toNat v d.isLt
                       pc := s.pc + BitVec.ofNat 64 (form rex d (.mem m)).length } ∧
      LanesShifted w (64 / w) (s.mmReg d).toNat v.toNat (leNat s.mem a.toNat 8)

/-- An MMX MI form: the count is the unsigned immediate (`30_encoding.md` R63). -/
def MmxImmediateCount (w : Nat) (form : Option Rex → ImmOperand → Instr) : Prop :=
  ∀ (s : State) (rex : Option Rex) (d : BitVec 3) (imm8 : Byte), MmxReady s → Fits s (form rex (.reg d imm8)) →
    ∃ v : Quad,
      exec (form rex (.reg d imm8)) s =
        .next { s with mm := s.mm.set d.toNat v d.isLt
                       pc := s.pc + BitVec.ofNat 64 (form rex (.reg d imm8)).length } ∧
      LanesShifted w (64 / w) (s.mmReg d).toNat v.toNat imm8.toNat

/-- What an SSE2 form does to its destination (`42_legacy_sse2.md` R106): the low half holds the shifted lanes of its old
low half, the upper half is kept. -/
def SseResult (w : Nat) (s : State) (i : Instr) (d : BitVec 4) (count : Nat) : Prop :=
  ∃ v : Vec,
    exec i s = .next { s with ymm := s.ymm.set d.toNat v d.isLt, pc := s.pc + BitVec.ofNat 64 i.length } ∧
    v.toNat / 2 ^ 128 = (s.ymmReg d).toNat / 2 ^ 128 ∧ LanesShifted w (128 / w) (s.ymmReg d).toNat v.toNat count

/-- An SSE2 RM form with a register count: the low quadword of the register. -/
def SseRegisterCount (w : Nat) (form : Option Rex → BitVec 3 → RmOperand → Instr) : Prop :=
  ∀ (s : State) (rex : Option Rex) (reg src : BitVec 3), Sse2Ready s → Fits s (form rex reg (.reg src)) →
    SseResult w s (form rex reg (.reg src)) (regNum (rexExt s.cfg.mode rex).r reg)
      ((s.ymmReg (regNum (rexExt s.cfg.mode rex).b src)).toNat % 2 ^ 64)

/-- An SSE2 RM form with an aligned `m128` count: its first 8 bytes (`20_memory.md` R33, R35); the read
of 16 bytes is admitted whole (log 15). -/
def SseMemoryCount (w : Nat) (form : Option Rex → BitVec 3 → RmOperand → Instr) : Prop :=
  ∀ (s : State) (rex : Option Rex) (reg : BitVec 3) (m : MemOperand) (a : Quad),
    a = effAddr s (rexExt s.cfg.mode rex) (form rex reg (.mem m)).length m →
    Sse2Ready s → Fits s (form rex reg (.mem m)) → Readable s a 16 → a.toNat % 16 = 0 →
    SseResult w s (form rex reg (.mem m)) (regNum (rexExt s.cfg.mode rex).r reg) (leNat s.mem a.toNat 8)

/-- An SSE2 MI form: the count is the unsigned immediate. -/
def SseImmediateCount (w : Nat) (form : Option Rex → ImmOperand → Instr) : Prop :=
  ∀ (s : State) (rex : Option Rex) (n : BitVec 3) (imm8 : Byte), Sse2Ready s → Fits s (form rex (.reg n imm8)) →
    SseResult w s (form rex (.reg n imm8)) (regNum (rexExt s.cfg.mode rex).b n) imm8.toNat

/-- What a VEX form does to its destination (`43_vex128_avx.md` R117, `44_vex256_avx2.md` R126): the low `bits` bits hold the
shifted lanes of the first source, every bit above them is zero. -/
def VexResult (bits w : Nat) (s : State) (i : Instr) (d value : BitVec 4) (count : Nat) : Prop :=
  ∃ v : Vec,
    exec i s = .next { s with ymm := s.ymm.set d.toNat v d.isLt, pc := s.pc + BitVec.ofNat 64 i.length } ∧
    v.toNat < 2 ^ bits ∧ LanesShifted w (bits / w) (s.ymmReg value).toNat v.toNat count

/-- An RVM form with a register count: the low quadword of the register. -/
def VexRegisterCount (ready : State → Prop) (bits w : Nat) (form : Vex → BitVec 3 → RmOperand → Instr) : Prop :=
  ∀ (s : State) (vex : Vex) (reg src : BitVec 3), ready s → Fits s (form vex reg (.reg src)) →
    VexResult bits w s (form vex reg (.reg src)) (regNum (vexExt s.cfg.mode vex).r reg) (vvvvNum s.cfg.mode vex)
      ((s.ymmReg (regNum (vexExt s.cfg.mode vex).b src)).toNat % 2 ^ 64)

/-- An RVM form with an `m128` count at any address: its first 8 bytes (`20_memory.md` R34, R35); the read of 16
bytes is admitted whole (log 15). -/
def VexMemoryCount (ready : State → Prop) (bits w : Nat) (form : Vex → BitVec 3 → RmOperand → Instr) : Prop :=
  ∀ (s : State) (vex : Vex) (reg : BitVec 3) (m : MemOperand) (a : Quad),
    a = effAddr s (vexExt s.cfg.mode vex) (form vex reg (.mem m)).length m →
    ready s → Fits s (form vex reg (.mem m)) → Readable s a 16 →
    VexResult bits w s (form vex reg (.mem m)) (regNum (vexExt s.cfg.mode vex).r reg) (vvvvNum s.cfg.mode vex)
      (leNat s.mem a.toNat 8)

/-- A VMI form: the count is the unsigned immediate; `VEX.vvvv` is the destination. -/
def VexImmediateCount (ready : State → Prop) (bits w : Nat) (form : Vex → ImmOperand → Instr) : Prop :=
  ∀ (s : State) (vex : Vex) (n : BitVec 3) (imm8 : Byte), ready s → Fits s (form vex (.reg n imm8)) →
    VexResult bits w s (form vex (.reg n imm8)) (vvvvNum s.cfg.mode vex) (regNum (vexExt s.cfg.mode vex).b n)
      imm8.toNat

/-- The two operands name the same register or address in an instruction and in its spelling that is one byte longer: they
are equal and not `pc`-relative, or `pc`-relative with the second displacement one less (`30_encoding.md` R59). -/
def SameOperand (m : Mode) (rm rm3 : RmOperand) : Prop :=
  (rm3 = rm ∧ (m = .mode32 ∨ ∀ d, rm ≠ .mem (.dispOnly d))) ∨
    (m = .mode64 ∧ ∃ d d3, rm = .mem (.dispOnly d) ∧ rm3 = .mem (.dispOnly d3) ∧ d3.toInt = d.toInt - 1)

/-- Two spellings of one instruction, the second one byte longer: both answer the same fault, or both complete with the
same effect, the `pc` of the second one byte further (`30_encoding.md` R60, R62). -/
def SameButOneByteLonger (s : State) (i j : Instr) : Prop :=
  ∃ t, exec i s = .next t ∧ (t.fault ≠ none → exec j s = .next t) ∧
    (t.fault = none → exec j s = .next { t with pc := t.pc + 1#64 })

/-- An RVM form spelt with VEX2 and with VEX3. -/
def SameUnderBothPrefixes (form : Vex → BitVec 3 → RmOperand → Instr) : Prop :=
  ∀ (s : State) (r w : Bool) (vvvv : BitVec 4) (reg : BitVec 3) (rm rm3 : RmOperand), s.fault = none →
    SameOperand s.cfg.mode rm rm3 → Fits s (form (.vex3 r false false w vvvv) reg rm3) →
    SameButOneByteLonger s (form (.vex2 r vvvv) reg rm) (form (.vex3 r false false w vvvv) reg rm3)

/-- A VMI form spelt with VEX2 and with VEX3. -/
def SameUnderBothPrefixesImm (form : Vex → ImmOperand → Instr) : Prop :=
  ∀ (s : State) (r w : Bool) (vvvv : BitVec 4) (rm : ImmOperand), s.fault = none →
    Fits s (form (.vex3 r false false w vvvv) rm) →
    SameButOneByteLonger s (form (.vex2 r vvvv) rm) (form (.vex3 r false false w vvvv) rm)

end Sys2Proof.Statements

open Sys2Proof.Statements

/-! ## Encoding (`30_encoding.md`) -/

/-- Decoding the encoding of a well-formed instruction, whatever bytes follow it, gives the instruction back, in both modes
and for every operand that the encoding admits. -/
def Obligations.DecodeOfEncodeGivesTheInstruction : Prop :=
  ∀ (m : Mode) (i : Instr) (rest : List Byte), WellFormed m i = true → decode m (encode i ++ rest) = .ok (i, rest)

/-- Whatever the decoder reads is a well-formed instruction, and the bytes it consumed are that instruction's encoding: no
bit of the bytes is dropped and no two encodings are confused. -/
def Obligations.DecodedBytesAreTheEncoding : Prop :=
  ∀ (m : Mode) (bytes rest : List Byte) (i : Instr), decode m bytes = .ok (i, rest) →
    WellFormed m i = true ∧ bytes = encode i ++ rest

/-- The admitted forms are 3 bytes to 10 bytes long (R62), and the length that `pc` advances by is that of the encoding. -/
def Obligations.EncodingsAreThreeToTenBytes : Prop :=
  ∀ (m : Mode) (i : Instr), WellFormed m i = true →
    3 ≤ (encode i).length ∧ (encode i).length ≤ 10 ∧ (encode i).length = i.length

/-- Words written out from the spec's encodings decode to the instruction they stand for (`95_test_vectors.md` section 4
and the examples of R91, R102, R114, R120). -/
def Obligations.SpecWordsDecodeToTheirInstruction : Prop :=
  decode .mode32 [0x0F#8, 0x71#8, 0xF3#8, 0x04#8] = .ok (.psllwMmImm8 none (.reg 3#3 4#8), []) ∧
    decode .mode64 [0x66#8, 0x0F#8, 0xF2#8, 0x43#8, 0x10#8] =
      .ok (.pslldXmmXmmm128 none 0#3 (.mem (.base 3#3 (.disp8 0x10#8))), []) ∧
    decode .mode64 [0x66#8, 0x42#8, 0x0F#8, 0xF1#8, 0x0C#8, 0xA5#8, 0x00#8, 0x10#8, 0x00#8, 0x00#8] =
      .ok (.psllwXmmXmmm128 (some ⟨false, false, true, false⟩) 1#3 (.mem (.sibNoBase 2#2 4#3 0x1000#32)), []) ∧
    decode .mode64 [0xC4#8, 0x41#8, 0x21#8, 0xF3#8, 0xD4#8] =
      .ok (.vpsllqXmmXmmXmmm128 (.vex3 true false true false 11#4) 2#3 (.reg 4#3), []) ∧
    decode .mode64 [0xC5#8, 0xDD#8, 0xF1#8, 0xDD#8] =
      .ok (.vpsllwYmmYmmXmmm128 (.vex2 false 4#4) 3#3 (.reg 5#3), [])

/-- Opcodes 71, 72, 73 with `ModRM.reg` other than 6, and every opcode byte other than the six of the table, are refused by
name, in the legacy shape with every admitted prefix and in the VEX shape (R67). -/
def Obligations.OtherOpcodesAndExtensionsAreRefused : Prop :=
  ∀ (m : Mode) (rest : List Byte),
    (∀ (p66 : Bool) (rex : Option Rex) (op modrm : Byte), rexWf m rex = true →
      op ∈ [0x71#8, 0x72#8, 0x73#8] → bits53 modrm ≠ 6#3 →
        decode m (legacyBytes p66 rex op (modrm :: rest)) = .error (.opcodeExtensionNotSix (bits53 modrm))) ∧
    (∀ (l : Bool) (vex : Vex) (op modrm : Byte), vex.wf m = true →
      op ∈ [0x71#8, 0x72#8, 0x73#8] → bits53 modrm ≠ 6#3 →
        decode m (vexFormBytes l vex op (modrm :: rest)) = .error (.opcodeExtensionNotSix (bits53 modrm))) ∧
    (∀ (p66 : Bool) (rex : Option Rex) (op : Byte), rexWf m rex = true →
      op ∉ [0xF1#8, 0xF2#8, 0xF3#8, 0x71#8, 0x72#8, 0x73#8] →
        decode m (legacyBytes p66 rex op rest) = .error (.opcodeNotListed op)) ∧
    (∀ (l : Bool) (vex : Vex) (op : Byte), vex.wf m = true →
      op ∉ [0xF1#8, 0xF2#8, 0xF3#8, 0x71#8, 0x72#8, 0x73#8] →
        decode m (vexFormBytes l vex op rest) = .error (.opcodeNotListed op))

/-- VEX encodings with `pp` other than 01 or `mmmmm` other than 00001 are refused, and no value of `VEX.vvvv` is reserved:
in mode64 all 16 are legal in all twelve VEX forms (R68; the names, and which refusal wins where the bytes are wrong in
several ways, are the model's choice, log 17). -/
def Obligations.VexMapAndPpAreFixedAndVvvvIsFree : Prop :=
  (∀ (m : Mode) (b1 : Byte) (rest : List Byte), (m = .mode64 ∨ bits76 b1 = 3#2) → b1.extractLsb' 0 2 ≠ 1#2 →
    decode m (0xC5#8 :: b1 :: rest) = .error (.vexPpNotListed (b1.extractLsb' 0 2))) ∧
  (∀ (m : Mode) (b1 b2 : Byte) (rest : List Byte), (m = .mode64 ∨ bits76 b1 = 3#2) → b1.extractLsb' 0 5 ≠ 1#5 →
    decode m (0xC4#8 :: b1 :: b2 :: rest) = .error (.vexMapNotListed (b1.extractLsb' 0 5))) ∧
  (∀ (m : Mode) (b1 b2 : Byte) (rest : List Byte), (m = .mode64 ∨ bits76 b1 = 3#2) → b1.extractLsb' 0 5 = 1#5 →
    b2.extractLsb' 0 2 ≠ 1#2 →
      decode m (0xC4#8 :: b1 :: b2 :: rest) = .error (.vexPpNotListed (b2.extractLsb' 0 2))) ∧
  (∀ (l : Bool) (vvvv : BitVec 4) (op modrm imm8 : Byte) (rest : List Byte),
    op ∈ [0xF1#8, 0xF2#8, 0xF3#8, 0x71#8, 0x72#8, 0x73#8] → bits76 modrm = 3#2 → bits53 modrm = 6#3 →
      ∃ i tail, decode .mode64 (vexFormBytes l (.vex2 false vvvv) op (modrm :: imm8 :: rest)) = .ok (i, tail) ∧
        prefixOf i = .vex (.vex2 false vvvv))

/-- The prefix bytes that are not admitted are refused by name wherever they stand before the escape byte: alone, after `66`
and after REX; a VEX prefix after `66` is refused too; and in mode32 the bytes `40H..4FH` are no prefix
(R54, R55, R61 (c); the names are the model's choice, log 17). -/
def Obligations.PrefixesOutsideTheAdmittedOrderAreRefused : Prop :=
  (∀ (m : Mode) (b : Byte) (rest : List Byte),
    b ∈ [0xF0#8, 0xF2#8, 0xF3#8, 0x26#8, 0x2E#8, 0x36#8, 0x3E#8, 0x64#8, 0x65#8, 0x67#8] →
      decode m (b :: rest) = .error (.prefixNotAdmitted b) ∧
        decode m (0x66#8 :: b :: rest) = .error (.prefixNotAdmitted b)) ∧
  (∀ (m : Mode) (rest : List Byte), decode m (0x66#8 :: 0x66#8 :: rest) = .error (.prefixNotAdmitted 0x66#8)) ∧
  (∀ (rex : Rex) (b : Byte) (rest : List Byte),
    b ∈ [0xF0#8, 0xF2#8, 0xF3#8, 0x26#8, 0x2E#8, 0x36#8, 0x3E#8, 0x64#8, 0x65#8, 0x67#8, 0x66#8] →
      decode .mode64 (rexByte rex :: b :: rest) = .error (.prefixNotAdmitted b)) ∧
  (∀ (m : Mode) (b : Byte) (rest : List Byte), b ∈ [0xC4#8, 0xC5#8] →
    decode m (0x66#8 :: b :: rest) = .error (.vexAfterPrefix b)) ∧
  (∀ (rex : Rex) (rest : List Byte), decode .mode32 (rexByte rex :: rest) = .error (.notEscape (rexByte rex)))

/-- A REX bit that would extend an MMX register number, and `REX.R` on an MI form, are refused (R55; the names are the
model's choice, log 17, and that the refusal wins over the `#UD` of an MI form whose `mod` is not 11 its reading,
log 18). -/
def Obligations.RexBitsThatExtendNothingAreRefused : Prop :=
  ∀ (rex : Rex) (op modrm : Byte) (rest : List Byte),
    (op ∈ [0xF1#8, 0xF2#8, 0xF3#8] → rex.r = true →
      decode .mode64 (legacyBytes false (some rex) op (modrm :: rest)) = .error .rexRExtendsNothing) ∧
    (op ∈ [0xF1#8, 0xF2#8, 0xF3#8] → rex.r = false → rex.b = true → bits76 modrm = 3#2 →
      decode .mode64 (legacyBytes false (some rex) op (modrm :: rest)) = .error .rexBExtendsNothing) ∧
    (∀ p66 : Bool, op ∈ [0x71#8, 0x72#8, 0x73#8] → bits53 modrm = 6#3 → rex.r = true →
      decode .mode64 (legacyBytes p66 (some rex) op (modrm :: rest)) = .error .rexRExtendsNothing) ∧
    (op ∈ [0x71#8, 0x72#8, 0x73#8] → bits53 modrm = 6#3 → rex.r = false → rex.b = true → bits76 modrm = 3#2 →
      decode .mode64 (legacyBytes false (some rex) op (modrm :: rest)) = .error .rexBExtendsNothing)

/-- `REX.W` and `VEX.W` have no effect: two instructions whose encodings differ in that bit alone do the same
(R55, R69). -/
def Obligations.WBitsHaveNoEffect : Prop :=
  ∀ (s : State) (i j : Instr), familyOf i = familyOf j → elementBits i = elementBits j → tailOf i = tailOf j →
    ((∃ r x b w w', prefixOf i = .legacy (some ⟨w, r, x, b⟩) ∧ prefixOf j = .legacy (some ⟨w', r, x, b⟩)) ∨
      (∃ r x b w w' v, prefixOf i = .vex (.vex3 r x b w v) ∧ prefixOf j = .vex (.vex3 r x b w' v))) →
    exec i s = exec j s

/-- Register numbers (R57, R61): an extension bit adds 8; in mode32 no bit extends a number and `vvvv` keeps its low 3 bits;
in mode64 the bits are those of the prefix. -/
def Obligations.RegisterNumbersFollowTheExtensionBits : Prop :=
  (∀ (ext : Bool) (n : BitVec 3), (regNum ext n).toNat = 8 * ext.toNat + n.toNat) ∧
  (∀ (rex : Option Rex) (vex : Vex), rexExt .mode32 rex = ⟨false, false, false⟩ ∧
    vexExt .mode32 vex = ⟨false, false, false⟩ ∧ (vvvvNum .mode32 vex).toNat < 8) ∧
  (∀ (w r x b : Bool) (v : BitVec 4), rexExt .mode64 (some ⟨w, r, x, b⟩) = ⟨r, x, b⟩ ∧
    rexExt .mode64 none = ⟨false, false, false⟩ ∧ vexExt .mode64 (.vex3 r x b w v) = ⟨r, x, b⟩ ∧
    vexExt .mode64 (.vex2 r v) = ⟨r, false, false⟩ ∧ vvvvNum .mode64 (.vex3 r x b w v) = v ∧
    vvvvNum .mode64 (.vex2 r v) = v ∧ (vvvvNum .mode32 (.vex3 r x b w v)).toNat = v.toNat % 8 ∧
    (vvvvNum .mode32 (.vex2 r v)).toNat = v.toNat % 8)

/-- The effective address of each form of memory operand is `base + index * 2^scale + disp` modulo `2^AW`, with general
registers read at width `AW`; index number 0100 is no index, and `mod = 00`, `rm = 101` is `pc`-relative in mode64 and the
displacement alone in mode32 (R58, R59). -/
def Obligations.EffectiveAddressIsBasePlusScaledIndexPlusDisp : Prop :=
  ∀ (s : State) (ext : ExtBits) (len : Nat) (scale : BitVec 2) (rm index sb : BitVec 3) (d : Disp) (d32 : BitVec 32),
    let space : Int := 2 ^ addrWidth s.cfg.mode
    let reg (n : BitVec 4) : Int := (s.x[n.toNat]'n.isLt).toNat % space
    let idx : Int := if regNum ext.x index = 4#4 then 0 else reg (regNum ext.x index) * 2 ^ scale.toNat
    let disp : Int := match d with
      | .none => 0
      | .disp8 d => d.toInt
      | .disp32 d => d.toInt
    ((effAddr s ext len (.base rm d)).toNat : Int) = (reg (regNum ext.b rm) + disp) % space ∧
    ((effAddr s ext len (.sib scale index sb d)).toNat : Int) = (reg (regNum ext.b sb) + idx + disp) % space ∧
    ((effAddr s ext len (.sibNoBase scale index d32)).toNat : Int) = (idx + d32.toInt) % space ∧
    (s.cfg.mode = .mode64 →
      ((effAddr s ext len (.dispOnly d32)).toNat : Int) = (s.pc.toNat + len + d32.toInt) % space) ∧
    (s.cfg.mode = .mode32 → (effAddr s ext len (.dispOnly d32)).toNat = d32.toNat)

/-! ## The shift (`40_shift_functions.md`) -/

/-- Two shifts compose to one by the sum of the counts as natural numbers (R85 law 7). -/
def Obligations.ShiftsCompose : Prop :=
  ∀ w ∈ [16, 32, 64], ∀ n ∈ [64, 128, 256], ∀ (v : BitVec n) (a b : Nat), sll w (sll w v a) b = sll w v (a + b)

/-- Counts at the edges of a lane and lanes on their own (R85 laws 2 to 6 and 8): each lane is `lane * 2^count mod 2^w`, a
count of 0 changes nothing, a count of `w - 1` moves the old bit 0 to the top, a count of `w` or more gives zero, and a lane
of the result depends on its own lane alone. -/
def Obligations.ShiftCountsAtTheEdgesOfALane : Prop :=
  ∀ w ∈ [16, 32, 64], ∀ n ∈ [64, 128, 256], ∀ (u v : BitVec n) (count : Nat),
    LanesShifted w (n / w) v.toNat (sll w v count).toNat count ∧ sll w v 0 = v ∧
    (∀ j < n / w, laneNat w (sll w v (w - 1)).toNat j = laneNat w v.toNat j % 2 * 2 ^ (w - 1)) ∧
    (w ≤ count → sll w v count = 0#n) ∧
    (∀ j < n / w, laneNat w u.toNat j = laneNat w v.toNat j →
      laneNat w (sll w u count).toNat j = laneNat w (sll w v count).toNat j)

/-- The three widths differ exactly in the bits that cross a lane boundary: bit `i` of the wider shift is kept by the
narrower one when it comes from the same narrow lane and is lost otherwise (R85 law 9). -/
def Obligations.NarrowerShiftLosesExactlyTheCrossingBits : Prop :=
  ∀ p ∈ [(16, 32), (16, 64), (32, 64)], ∀ n ∈ [64, 128, 256], ∀ (v : BitVec n) (count i : Nat),
    (sll p.1 v count).getLsbD i = (decide (count ≤ i % p.1) && (sll p.2 v count).getLsbD i)

/-! ## Results of the forms -/

/-- PSLLW, PSLLD, PSLLQ mm, mm. -/
def Obligations.MmxRegisterCountShiftsEveryLane : Prop :=
  MmxRegisterCount 16 .psllwMmMmm64 ∧ MmxRegisterCount 32 .pslldMmMmm64 ∧ MmxRegisterCount 64 .psllqMmMmm64

/-- PSLLW, PSLLD, PSLLQ mm, m64. -/
def Obligations.MmxMemoryCountShiftsEveryLane : Prop :=
  MmxMemoryCount 16 .psllwMmMmm64 ∧ MmxMemoryCount 32 .pslldMmMmm64 ∧ MmxMemoryCount 64 .psllqMmMmm64

/-- PSLLW, PSLLD, PSLLQ mm, imm8. -/
def Obligations.MmxImmediateCountShiftsEveryLane : Prop :=
  MmxImmediateCount 16 .psllwMmImm8 ∧ MmxImmediateCount 32 .pslldMmImm8 ∧ MmxImmediateCount 64 .psllqMmImm8

/-- PSLLW, PSLLD, PSLLQ xmm1, xmm2. -/
def Obligations.SseRegisterCountShiftsLowHalfAndKeepsUpper : Prop :=
  SseRegisterCount 16 .psllwXmmXmmm128 ∧ SseRegisterCount 32 .pslldXmmXmmm128 ∧ SseRegisterCount 64 .psllqXmmXmmm128

/-- PSLLW, PSLLD, PSLLQ xmm1, m128. -/
def Obligations.SseMemoryCountShiftsLowHalfAndKeepsUpper : Prop :=
  SseMemoryCount 16 .psllwXmmXmmm128 ∧ SseMemoryCount 32 .pslldXmmXmmm128 ∧ SseMemoryCount 64 .psllqXmmXmmm128

/-- PSLLW, PSLLD, PSLLQ xmm1, imm8. -/
def Obligations.SseImmediateCountShiftsLowHalfAndKeepsUpper : Prop :=
  SseImmediateCount 16 .psllwXmmImm8 ∧ SseImmediateCount 32 .pslldXmmImm8 ∧ SseImmediateCount 64 .psllqXmmImm8

/-- VPSLLW, VPSLLD, VPSLLQ xmm1, xmm2, xmm3. -/
def Obligations.AvxRegisterCountShiftsSourceAndZeroesUpper : Prop :=
  VexRegisterCount AvxReady 128 16 .vpsllwXmmXmmXmmm128 ∧ VexRegisterCount AvxReady 128 32 .vpslldXmmXmmXmmm128 ∧
    VexRegisterCount AvxReady 128 64 .vpsllqXmmXmmXmmm128

/-- VPSLLW, VPSLLD, VPSLLQ xmm1, xmm2, m128. -/
def Obligations.AvxMemoryCountShiftsSourceAndZeroesUpper : Prop :=
  VexMemoryCount AvxReady 128 16 .vpsllwXmmXmmXmmm128 ∧ VexMemoryCount AvxReady 128 32 .vpslldXmmXmmXmmm128 ∧
    VexMemoryCount AvxReady 128 64 .vpsllqXmmXmmXmmm128

/-- VPSLLW, VPSLLD, VPSLLQ xmm1, xmm2, imm8. -/
def Obligations.AvxImmediateCountShiftsSourceAndZeroesUpper : Prop :=
  VexImmediateCount AvxReady 128 16 .vpsllwXmmXmmImm8 ∧ VexImmediateCount AvxReady 128 32 .vpslldXmmXmmImm8 ∧
    VexImmediateCount AvxReady 128 64 .vpsllqXmmXmmImm8

/-- VPSLLW, VPSLLD, VPSLLQ ymm1, ymm2, xmm3. -/
def Obligations.Avx2RegisterCountShiftsEveryLaneOfTheSource : Prop :=
  VexRegisterCount Avx2Ready 256 16 .vpsllwYmmYmmXmmm128 ∧ VexRegisterCount Avx2Ready 256 32 .vpslldYmmYmmXmmm128 ∧
    VexRegisterCount Avx2Ready 256 64 .vpsllqYmmYmmXmmm128

/-- VPSLLW, VPSLLD, VPSLLQ ymm1, ymm2, m128. -/
def Obligations.Avx2MemoryCountShiftsEveryLaneOfTheSource : Prop :=
  VexMemoryCount Avx2Ready 256 16 .vpsllwYmmYmmXmmm128 ∧ VexMemoryCount Avx2Ready 256 32 .vpslldYmmYmmXmmm128 ∧
    VexMemoryCount Avx2Ready 256 64 .vpsllqYmmYmmXmmm128

/-- VPSLLW, VPSLLD, VPSLLQ ymm1, ymm2, imm8. -/
def Obligations.Avx2ImmediateCountShiftsEveryLaneOfTheSource : Prop :=
  VexImmediateCount Avx2Ready 256 16 .vpsllwYmmYmmImm8 ∧ VexImmediateCount Avx2Ready 256 32 .vpslldYmmYmmImm8 ∧
    VexImmediateCount Avx2Ready 256 64 .vpsllqYmmYmmImm8

/-! ## Exceptions (`60_exceptions.md`) -/

/-- A form whose feature flag is clear raises `#UD`, each of the 24 forms by its own flag (R131); so does `VEX.L = 1`
without AVX2. -/
def Obligations.ClearFeatureFlagRaisesUd : Prop :=
  ∀ (s : State) (i : Instr), featureSet s (familyOf i) = false → exec i s = .next (faultedWith s .ud)

/-- The operating-system state of an MMX form: `#UD` if `CR0.EM = 1`, else `#NM` if `CR0.TS = 1`, else `#MF` if an unmasked
x87 exception is pending, and none of them when `OS_MMX_OK` (R132). -/
def Obligations.MmxOperatingSystemState : Prop :=
  ∀ (s : State) (i : Instr), familyOf i = .mmx → immMemForm i = false → s.cfg.hasMmx = true →
    (s.ctl.cr0Em = true → exec i s = .next (faultedWith s .ud)) ∧
    (s.ctl.cr0Em = false → s.ctl.cr0Ts = true → exec i s = .next (faultedWith s .nm)) ∧
    (s.ctl.cr0Em = false → s.ctl.cr0Ts = false → s.ctl.x87Pending = true → exec i s = .next (faultedWith s .mf)) ∧
    (OsMmxOk s → s.fault = none →
      ∀ t e, exec i s = .next t → t.fault = some e → e.kind ≠ .ud ∧ e.kind ≠ .nm ∧ e.kind ≠ .mf)

/-- The operating-system state of an SSE2 form: `#UD` if `CR0.EM = 1` or `CR4.OSFXSR = 0`, else `#NM` if `CR0.TS = 1`, and
neither when `OS_SSE_OK` (R133). -/
def Obligations.SseOperatingSystemState : Prop :=
  ∀ (s : State) (i : Instr), familyOf i = .sse2 → immMemForm i = false → s.cfg.hasSse2 = true →
    (s.ctl.cr0Em = true ∨ s.ctl.cr4Osfxsr = false → exec i s = .next (faultedWith s .ud)) ∧
    (s.ctl.cr0Em = false → s.ctl.cr4Osfxsr = true → s.ctl.cr0Ts = true → exec i s = .next (faultedWith s .nm)) ∧
    (OsSseOk s → s.fault = none → ∀ t e, exec i s = .next t → t.fault = some e → e.kind ≠ .ud ∧ e.kind ≠ .nm)

/-- The operating-system state of an AVX or AVX2 form: `#UD` if `CR4.OSXSAVE = 0` or `XCR0[2:1]` is not 11, else `#NM` if
`CR0.TS = 1`, and neither when `OS_AVX_OK`; `CR0.EM`, `CR4.OSFXSR` and the pending x87 exception are not tested (R134). -/
def Obligations.AvxOperatingSystemState : Prop :=
  ∀ (s : State) (i : Instr), familyOf i = .avx ∨ familyOf i = .avx2 → immMemForm i = false →
    featureSet s (familyOf i) = true →
    (s.ctl.cr4Osxsave = false ∨ s.ctl.xcr0Sse = false ∨ s.ctl.xcr0Avx = false →
      exec i s = .next (faultedWith s .ud)) ∧
    (s.ctl.cr4Osxsave = true → s.ctl.xcr0Sse = true → s.ctl.xcr0Avx = true → s.ctl.cr0Ts = true →
      exec i s = .next (faultedWith s .nm)) ∧
    (OsAvxOk s → s.fault = none → ∀ t e, exec i s = .next t → t.fault = some e → e.kind ≠ .ud ∧ e.kind ≠ .nm)

/-- An MI or VMI form with `mod` other than 11 raises `#UD` in every state, before every other check (`30_encoding.md` R66):
the six legacy and the six VEX forms. -/
def Obligations.ImmediateFormWithMemoryModRmRaisesUd : Prop :=
  ∀ (s : State) (i : Instr), immMemForm i = true → exec i s = .next (faultedWith s .ud)

/-- The bytes of an MI or VMI form with `mod` other than 11, with every admitted prefix, decode to such a form, and nothing
after the ModRM byte is read (`30_encoding.md` R64 step 4; that the decoder stops there is the model's reading, log 12, and
that it refuses the bits that extend nothing first, log 18). -/
def Obligations.ImmediateFormWithMemoryModRmIsDecoded : Prop :=
  ∀ (m : Mode) (op modrm : Byte) (rest : List Byte),
    op ∈ [0x71#8, 0x72#8, 0x73#8] → bits76 modrm ≠ 3#2 → bits53 modrm = 6#3 →
    (∀ (p66 : Bool) (rex : Option Rex), rexWf m rex = true → rexR rex = false →
      ∃ i, decode m (legacyBytes p66 rex op (modrm :: rest)) = .ok (i, rest) ∧ immMemForm i = true) ∧
    (∀ (l : Bool) (vex : Vex), vex.wf m = true → vex.rBit = false →
      ∃ i, decode m (vexFormBytes l vex op (modrm :: rest)) = .ok (i, rest) ∧ immMemForm i = true)

/-- `#GP(0)` is raised exactly by the three SSE2 RM forms with a memory operand whose address is not a multiple of 16, when
the forms may run; no other form has it (R136). -/
def Obligations.MisalignmentFaultsExactlyTheLegacyM128Forms : Prop :=
  ∀ (s : State) (i : Instr), s.fault = none →
    (exec i s = .next (faultedWith s .gp0) ↔
      familyOf i = .sse2 ∧ Sse2Ready s ∧ ∃ m, memOperandOf i = some m ∧ (operandAddr s i m).toNat % 16 ≠ 0)

/-- Alignment checking (R138; the condition is modelled by the model's choice, log 3): `#AC(0)` is raised exactly by the
three MMX RM forms with a readable `m64` that is not 8-byte aligned, when the forms may run and checking is on. -/
def Obligations.AlignmentCheckConcernsMisalignedM64Alone : Prop :=
  ∀ (s : State) (i : Instr), s.fault = none →
    (exec i s = .next (faultedWith s .ac0) ↔
      familyOf i = .mmx ∧ MmxReady s ∧ ¬AlignCheckOff s ∧ ∃ m, memOperandOf i = some m ∧
        Readable s (operandAddr s i m) 8 ∧ (operandAddr s i m).toNat % 8 ≠ 0)

/-- Which exception is taken when several causes are present: the first of R141's list; with none present the form
completes, writing only register files and `pc`, or is refused where `pc + len` would pass the top of the space
(R141, `10_state.md` R15; that `#AC(0)` is among the causes is the model's choice, log 3, and that every exception comes
before that refusal its reading, log 8). All 24 forms. -/
def Obligations.FirstPresentCauseDecidesTheOutcome : Prop :=
  ∀ (s : State) (i : Instr),
    (∀ e, firstCause s i = some e → exec i s = .next (faultedWith s e)) ∧
    (firstCause s i = none → Fits s i →
      ∃ mm ymm, exec i s = .next { s with mm := mm, ymm := ymm, pc := s.pc + BitVec.ofNat 64 i.length }) ∧
    (firstCause s i = none → ¬Fits s i → exec i s = .refused .pcPastTop)

/-- A fault is precise and terminal: a step that sets `fault` changes nothing else and records `pc`; a faulted state has no
further step and is never a final state; no step starts from a faulted state, so `fault` is never cleared (R142,
`10_state.md` R22). -/
def Obligations.FaultsArePreciseAndTerminal : Prop :=
  (∀ (s t : State) (r : FaultRecord), step s = .next t → t.fault = some r →
    t = { s with fault := some r } ∧ r.pc = s.pc) ∧
  (∀ (s : State) (r : FaultRecord), s.fault = some r → (∀ t, step s ≠ .next t) ∧ ¬Final s) ∧
  State.reset.fault = none

/-- The host's fault outcome is answered exactly in the states whose `fault` is set: no instruction and no fetch stops with
it (`10_state.md` R22; that an exception is a next state and this outcome the step after it is the model's reading, log 10). -/
def Obligations.FaultOutcomeMeansThatFaultIsSet : Prop :=
  ∀ (s : State) (f : Fault), step s = .fault f ↔ s.fault.map Fault.faulted = some f

/-- In mode64 a memory operand that holds a non-canonical address raises `#MemFault` in a form that may run, whatever the
admitted ranges say (`20_memory.md` R39; the check is built into the model's `Admit`, log 15). -/
def Obligations.NonCanonicalOperandRaisesMemFault : Prop :=
  ∀ (s : State) (i : Instr) (m : MemOperand) (k : Nat), s.cfg.mode = .mode64 → memOperandOf i = some m →
    (familyOf i = .mmx ∧ MmxReady s ∨
      familyOf i = .sse2 ∧ Sse2Ready s ∧ (operandAddr s i m).toNat % 16 = 0 ∨
      familyOf i = .avx ∧ AvxReady s ∨ familyOf i = .avx2 ∧ Avx2Ready s) →
    k < operandBytes i →
    2 ^ (s.cfg.linearBits - 1) ≤ (operandAddr s i m).toNat + k →
    (operandAddr s i m).toNat + k < 2 ^ 64 - 2 ^ (s.cfg.linearBits - 1) →
    exec i s = .next (faultedWith s (.memFault (operandAddr s i m)))

/-- The twelve immediate forms and every register-only form access no memory: memory has no influence on them, and they raise
none of the exceptions of a memory access (R137). -/
def Obligations.RegisterAndImmediateFormsAccessNoMemory : Prop :=
  ∀ (s : State) (i : Instr), memOperandOf i = none →
    (∀ mem' : Memory, exec i { s with mem := mem' } = mapNext (fun t => { t with mem := mem' }) (exec i s)) ∧
    (s.fault = none → ∀ t r, exec i s = .next t → t.fault = some r → r.kind = .ud ∨ r.kind = .nm ∨ r.kind = .mf)

/-! ## What the forms leave unchanged, and what has no influence -/

/-- No form writes a general register, the flags, `MXCSR`, the control state, the parameters or a byte of memory
(`10_state.md` R14, R16, R18, R19, `20_memory.md` R30; that the state holds the parameters and `MXCSR` is the model's choice,
log 1 and log 4). All 24 forms. -/
def Obligations.FormsWriteNoMemoryFlagOrGeneralRegister : Prop :=
  ∀ (s t : State) (i : Instr), exec i s = .next t →
    t.x = s.x ∧ t.flags = s.flags ∧ t.mxcsr = s.mxcsr ∧ t.ctl = s.ctl ∧ t.cfg = s.cfg ∧
      ∀ a, t.mem.read a = s.mem.read a

/-- A register that is not the destination of the instruction is not written (`10_state.md` R13): an MMX form leaves every
vector register and the other MMX registers, the other forms leave every MMX register and the other vector registers. -/
def Obligations.OnlyTheDestinationRegisterIsWritten : Prop :=
  ∀ (s t : State) (i : Instr), exec i s = .next t →
    (∀ r, destMm i ≠ some r → t.mmReg r = s.mmReg r) ∧
    (∀ r, destYmm s.cfg.mode i ≠ some r → t.ymmReg r = s.ymmReg r)

/-- The upper half of the destination (`43_vex128_avx.md` R116): a VEX.128 form that completes zeroes it whatever the count,
copies its source for a count of 0 and clears all 256 bits for a count above the limit; an SSE2 form keeps it. -/
def Obligations.Vex128ZeroesTheUpperHalfAndSse2KeepsIt : Prop :=
  ∀ (s t : State) (i : Instr) (d v : BitVec 4), s.fault = none → exec i s = .next t → t.fault = none →
    destYmm s.cfg.mode i = some d → valueYmm s.cfg.mode i = some v →
    (familyOf i = .avx →
      (t.ymmReg d).toNat < 2 ^ 128 ∧
      (countOf s i = 0 → (t.ymmReg d).toNat = (s.ymmReg v).toNat % 2 ^ 128) ∧
      (elementBits i ≤ countOf s i → t.ymmReg d = 0#256)) ∧
    (familyOf i = .sse2 →
      (t.ymmReg d).toNat / 2 ^ 128 = (s.ymmReg d).toNat / 2 ^ 128 ∧
      (countOf s i = 0 → t.ymmReg d = s.ymmReg d) ∧
      (elementBits i ≤ countOf s i → (t.ymmReg d).toNat % 2 ^ 128 = 0))

/-- Bits 255:64 of a count register have no influence (`40_shift_functions.md` R80, `10_state.md` R13): another value with
the same low quadword, in a count register that is neither the value shifted nor the destination, gives the same outcome. -/
def Obligations.UpperBitsOfTheCountRegisterHaveNoInfluence : Prop :=
  ∀ (s : State) (i : Instr) (c : BitVec 4) (v : Vec), countYmm s.cfg.mode i = some c →
    valueYmm s.cfg.mode i ≠ some c → destYmm s.cfg.mode i ≠ some c →
    v.toNat % 2 ^ 64 = (s.ymmReg c).toNat % 2 ^ 64 →
    exec i (s.setYmm c v) = mapNext (fun t => t.setYmm c v) (exec i s)

/-- Bytes 8 to 15 of an `m128` count have no influence on the result (`40_shift_functions.md` R80), though they are read. -/
def Obligations.UpperBytesOfTheMemoryCountHaveNoInfluence : Prop :=
  ∀ (s : State) (i : Instr) (m : MemOperand) (mem' : Memory), memOperandOf i = some m →
    (∀ k < 8, mem'.read ((operandAddr s i m).toNat + k) = s.mem.read ((operandAddr s i m).toNat + k)) →
    exec i { s with mem := mem' } = mapNext (fun t => { t with mem := mem' }) (exec i s)

/-- No form reads a status flag or `MXCSR`: other values of them, with the same `EFLAGS.AC`, give the same outcome
(`10_state.md` R16, R19). -/
def Obligations.FlagsAndMxcsrHaveNoInfluence : Prop :=
  ∀ (s : State) (i : Instr) (flags' : Quad) (mxcsr' : BitVec 32), flags'.getLsbD 18 = s.flags.getLsbD 18 →
    exec i { s with flags := flags', mxcsr := mxcsr' } =
      mapNext (fun t => { t with flags := flags', mxcsr := mxcsr' }) (exec i s)

/-- In mode32 the registers `YMM[8..15]`, `x[8..15]` and the upper halves of `x[0..7]` have no influence on a step and are
not changed by it (`10_state.md` R11, R14; that the state holds them there at all is the model's choice, log 19). -/
def Obligations.UnreachableRegistersOfMode32HaveNoInfluence : Prop :=
  ∀ (s t : State), AgreeInMode32 s t →
    (∀ s', step s = .next s' →
      ∃ t', step t = .next t' ∧ AgreeInMode32 s' t' ∧ s'.x = s.x ∧ t'.x = t.x ∧
        ∀ i : BitVec 4, 8 ≤ i.toNat → s'.ymmReg i = s.ymmReg i ∧ t'.ymmReg i = t.ymmReg i) ∧
    (∀ r, step s = .refused r → step t = .refused r) ∧
    (∀ r, step s = .fault r → step t = .fault r)

/-- VEX2 and VEX3 spell the same instruction where both can (`30_encoding.md` R60), in all six RVM and all six VMI forms. -/
def Obligations.BothVexPrefixesSpellTheSameInstruction : Prop :=
  SameUnderBothPrefixes .vpsllwXmmXmmXmmm128 ∧ SameUnderBothPrefixes .vpslldXmmXmmXmmm128 ∧
    SameUnderBothPrefixes .vpsllqXmmXmmXmmm128 ∧ SameUnderBothPrefixes .vpsllwYmmYmmXmmm128 ∧
    SameUnderBothPrefixes .vpslldYmmYmmXmmm128 ∧ SameUnderBothPrefixes .vpsllqYmmYmmXmmm128 ∧
    SameUnderBothPrefixesImm .vpsllwXmmXmmImm8 ∧ SameUnderBothPrefixesImm .vpslldXmmXmmImm8 ∧
    SameUnderBothPrefixesImm .vpsllqXmmXmmImm8 ∧ SameUnderBothPrefixesImm .vpsllwYmmYmmImm8 ∧
    SameUnderBothPrefixesImm .vpslldYmmYmmImm8 ∧ SameUnderBothPrefixesImm .vpsllqYmmYmmImm8

/-- Little-endian (`20_memory.md` R31): bits `8k+7 : 8k` of a value read at `a` are the byte at `a + k`; the count of an
`m128` is its first 8 bytes, that of an `m64` all 8; a `disp32` is four bytes, least significant first. -/
def Obligations.MemoryAndDisplacementsAreLittleEndian : Prop :=
  (∀ (s : State) (a : Quad) (n k : Nat) (v : BitVec (8 * n)), memRead s a n = .ok v → k < n →
    v.toNat / 2 ^ (8 * k) % 2 ^ 8 = (s.mem.read (a.toNat + k)).toNat) ∧
  (∀ (s : State) (a c : Quad), countM128 s a = .ok c → c.toNat = leNat s.mem a.toNat 8) ∧
  (∀ (s : State) (ext : ExtBits) (len : Nat) (m : MemOperand) (c : Quad), countMm s ext len (.mem m) = .ok c →
    c.toNat = leNat s.mem (effAddr s ext len m).toNat 8) ∧
  (∀ b0 b1 b2 b3 : Byte, (packDisp32 b0 b1 b2 b3).toNat =
    b0.toNat + 256 * (b1.toNat + 256 * (b2.toNat + 256 * b3.toNat)))

/-! ## The step and runs -/

/-- Every step keeps the invariant: memory in canonical form and inside the address space, `pc` inside the address space, and
a fault record that names the `pc` it was taken at. -/
def Obligations.EveryStepKeepsTheInvariant : Prop :=
  ∀ s t : State, Inv s → step s = .next t → Inv t

/-- The state after reset satisfies the invariant (its `pc` and its empty memory are the model's choice, log 1 and log 7). -/
def Obligations.ResetSatisfiesTheInvariant : Prop :=
  Inv State.reset

/-- A run of any length leaves memory, the general registers, the flags, `MXCSR`, the control state and the parameters as
they were at its start, so fetch always sees the launch bytes (`20_memory.md` R40, R43, `10_state.md` R14; that the state
holds the parameters, the control bits and `MXCSR` is the model's choice, log 1, log 2 and log 4). -/
def Obligations.RunsKeepLaunchValues : Prop :=
  ∀ (s t : State) (k : Nat), Sys2Proof.core.run k s = .next t →
    t.mem = s.mem ∧ (∀ a n, fetchBytes t a n = fetchBytes s a n) ∧ t.x = s.x ∧ t.flags = s.flags ∧
      t.mxcsr = s.mxcsr ∧ t.ctl = s.ctl ∧ t.cfg = s.cfg

/-- No form transfers control: over `k` steps that end without a fault, `pc` has risen by 3 to 10 bytes a step and has not
wrapped (`30_encoding.md` R62, R74, `10_state.md` R15). -/
def Obligations.RunsOnlyAdvancePc : Prop :=
  ∀ (s t : State) (k : Nat), Sys2Proof.core.run k s = .next t → t.fault = none →
    s.pc.toNat + 3 * k ≤ t.pc.toNat ∧ t.pc.toNat ≤ s.pc.toNat + 10 * k

/-- A step runs the decoded instruction: where the bytes at `pc` decode to a well-formed instruction, the step is that
instruction's effect, in a state that has no fault set and is not at the end of its run. -/
def Obligations.StepRunsTheDecodedInstruction : Prop :=
  ∀ (s : State) (i : Instr) (rest : List Byte), s.fault = none → s.cfg.endAt ≠ some s.pc →
    WellFormed s.cfg.mode i = true → decode s.cfg.mode (fetchWindow s) = .ok (i, rest) → step s = exec i s

/-- A well-formed instruction whose encoding stands in admitted memory at `pc` is the one that the step runs. -/
def Obligations.StepRunsTheInstructionWhoseEncodingStandsAtPc : Prop :=
  ∀ (s : State) (i : Instr), s.fault = none → s.cfg.endAt ≠ some s.pc → WellFormed s.cfg.mode i = true →
    (∀ (k : Nat) (hk : k < (encode i).length), s.pc.toNat + k < 2 ^ addrWidth s.cfg.mode ∧
      admitsByte s.cfg (s.pc.toNat + k) = true ∧ s.mem.read (s.pc.toNat + k) = (encode i)[k]) →
    step s = exec i s

/-- Where the admitted bytes at `pc`, none or some, end inside an instruction: the run faults with `#MemFault` at `pc` when
the next byte exists and is not admitted (`70_reset_and_hazards.md` R162; the address in the record is the model's choice,
log 9), and the step is refused when the address space ends there (`10_state.md` R15; the refusal is the model's reading,
log 8). -/
def Obligations.FetchFromUnadmittedMemoryFaults : Prop :=
  ∀ (s : State) (bytes : List Byte), s.fault = none → s.cfg.endAt ≠ some s.pc →
    (∀ (k : Nat) (hk : k < bytes.length), s.pc.toNat + k < 2 ^ addrWidth s.cfg.mode ∧
      admitsByte s.cfg (s.pc.toNat + k) = true ∧ s.mem.read (s.pc.toNat + k) = bytes[k]) →
    decode s.cfg.mode bytes = .error .truncated →
    (s.pc.toNat + bytes.length < 2 ^ addrWidth s.cfg.mode → admitsByte s.cfg (s.pc.toNat + bytes.length) = false →
      step s = .next (faultedWith s (.memFault s.pc))) ∧
    (2 ^ addrWidth s.cfg.mode ≤ s.pc.toNat + bytes.length → step s = .refused .pcPastTop)

/-- At `END` without a fault the run is over: the state is final and has no further step
(`70_reset_and_hazards.md` R163; the refusal's form is the model's reading, log 11). -/
def Obligations.RunIsOverAtEnd : Prop :=
  ∀ s : State, s.fault = none → (s.cfg.endAt = some s.pc ↔ Final s) ∧ (Final s → step s = .refused .runOver)

/-- Bytes that the decoder refuses give no step: the refusal carries the decoder's reason
(`70_reset_and_hazards.md` R163, `30_encoding.md` R64). -/
def Obligations.RefusedBytesGiveNoStep : Prop :=
  ∀ (s : State) (why : DecodeRefusal), s.fault = none → s.cfg.endAt ≠ some s.pc →
    decode s.cfg.mode (fetchWindow s) = .error why → why ≠ .truncated → step s = .refused (.undecodable why)

/-- A table word loaded at `pc` after reset is what the next step runs (the numbering of the word and the load are the
model's reading, log 13 and log 14). -/
def Obligations.LoadedTableWordRunsNext : Prop :=
  ∀ (nbits w : Nat) (i : Instr), nbits ≤ 80 → decodeTableWord nbits w = some i →
    step (State.reset.withFetchWord nbits w) = exec i (State.reset.withFetchWord nbits w)

/-- The state after reset is a launch state in which every form may run (the values are the model's choice, log 1, log 2 and
log 3; the premises are those of `70_reset_and_hazards.md` R164). -/
def Obligations.ResetIsALaunchState : Prop :=
  Launch State.reset

/-- Bytes that break off inside the encoding of a well-formed instruction spell nothing and are refused as ending too soon,
so no encoding begins another one (`30_encoding.md` R64; the name is the model's choice, log 17). -/
def Obligations.EncodingsCutShortAreTruncated : Prop :=
  ∀ (m : Mode) (i : Instr) (k : Nat), WellFormed m i = true → k < (encode i).length →
    decode m ((encode i).take k) = .error .truncated
end

