-- ==== Sys2Proof/Laws/Decode.lean ====
section
/-! SUPPORT. The small lemmas of the decoder and the encoder: a packed field reads back, and a byte is its fields. -/

namespace Sys2Proof

@[simp] theorem bits76_packModRm (hi : BitVec 2) (mid lo : BitVec 3) : bits76 (packModRm hi mid lo) = hi := by
  apply BitVec.eq_of_getLsbD_eq
  intro i h
  simp only [bits76, packModRm, BitVec.getLsbD_extractLsb', BitVec.getLsbD_append, h, decide_true, Bool.true_and]
  rw [if_neg (by omega), if_neg (by omega), show 6 + i - 3 - 3 = i by omega]

@[simp] theorem bits53_packModRm (hi : BitVec 2) (mid lo : BitVec 3) : bits53 (packModRm hi mid lo) = mid := by
  apply BitVec.eq_of_getLsbD_eq
  intro i h
  simp only [bits53, packModRm, BitVec.getLsbD_extractLsb', BitVec.getLsbD_append, h, decide_true, Bool.true_and]
  rw [if_neg (by omega), if_pos (by omega), show 3 + i - 3 = i by omega]

@[simp] theorem bits20_packModRm (hi : BitVec 2) (mid lo : BitVec 3) : bits20 (packModRm hi mid lo) = lo := by
  apply BitVec.eq_of_getLsbD_eq
  intro i h
  simp only [bits20, packModRm, BitVec.getLsbD_extractLsb', BitVec.getLsbD_append, h, decide_true, Bool.true_and]
  rw [if_pos (by omega), Nat.zero_add]

/-- A ModRM or SIB byte is its three fields. -/
@[simp] theorem packModRm_bits (b : Byte) : packModRm (bits76 b) (bits53 b) (bits20 b) = b := by
  apply BitVec.eq_of_getLsbD_eq
  intro i h
  simp only [packModRm, bits76, bits53, bits20, BitVec.getLsbD_append, BitVec.getLsbD_extractLsb', Nat.zero_add]
  split
  · simp [*]
  · split
    · rw [show 3 + (i - 3) = i by omega]; simp [*]
    · rw [show 6 + (i - 3 - 3) = i by omega]; simp [show i - 3 - 3 < 2 by omega]

/-- A displacement reads back from its bytes. -/
theorem takeDisp32_disp32Bytes (d : BitVec 32) (rest : List Byte) : takeDisp32 (disp32Bytes d ++ rest) = .ok (d, rest) := by
  have : packDisp32 (d.extractLsb' 0 8) (d.extractLsb' 8 8) (d.extractLsb' 16 8) (d.extractLsb' 24 8) = d := by
    apply BitVec.eq_of_getLsbD_eq
    intro i h
    simp only [packDisp32, BitVec.getLsbD_append, BitVec.getLsbD_extractLsb', Nat.zero_add]
    split
    · simp [*]
    · split
      · rw [show 8 + (i - 8) = i by omega]; simp [*]
      · split
        · rw [show 16 + (i - 8 - 8) = i by omega]; simp [*]
        · rw [show 24 + (i - 8 - 8 - 8) = i by omega]; simp [show i - 8 - 8 - 8 < 8 by omega]
  simp [disp32Bytes, takeDisp32, this]

/-- The bytes of a displacement that was read. -/
theorem takeDisp32_ok {bs rest : List Byte} {d : BitVec 32} (h : takeDisp32 bs = .ok (d, rest)) :
    bs = disp32Bytes d ++ rest := by
  unfold takeDisp32 at h
  split at h
  · rename_i b0 b1 b2 b3 r
    cases h
    have e0 : (packDisp32 b0 b1 b2 b3).extractLsb' 0 8 = b0 := by
      apply BitVec.eq_of_getLsbD_eq
      intro i h
      simp only [packDisp32, BitVec.getLsbD_append, BitVec.getLsbD_extractLsb']
      rw [if_pos (by omega)]; simp [h]
    have e1 : (packDisp32 b0 b1 b2 b3).extractLsb' 8 8 = b1 := by
      apply BitVec.eq_of_getLsbD_eq
      intro i h
      simp only [packDisp32, BitVec.getLsbD_append, BitVec.getLsbD_extractLsb']
      rw [if_neg (by omega), if_pos (by omega), show 8 + i - 8 = i by omega]; simp [h]
    have e2 : (packDisp32 b0 b1 b2 b3).extractLsb' 16 8 = b2 := by
      apply BitVec.eq_of_getLsbD_eq
      intro i h
      simp only [packDisp32, BitVec.getLsbD_append, BitVec.getLsbD_extractLsb']
      rw [if_neg (by omega), if_neg (by omega), if_pos (by omega), show 16 + i - 8 - 8 = i by omega]; simp [h]
    have e3 : (packDisp32 b0 b1 b2 b3).extractLsb' 24 8 = b3 := by
      apply BitVec.eq_of_getLsbD_eq
      intro i h
      simp only [packDisp32, BitVec.getLsbD_append, BitVec.getLsbD_extractLsb']
      rw [if_neg (by omega), if_neg (by omega), if_neg (by omega), show 24 + i - 8 - 8 - 8 = i by omega]; simp [h]
    simp [disp32Bytes, e0, e1, e2, e3]
  · cases h

/-- A REX byte reads back. -/
@[simp] theorem rexOf_rexByte (r : Rex) : rexOf (rexByte r) = r := by
  obtain ⟨w, r, x, b⟩ := r
  cases w <;> cases r <;> cases x <;> cases b <;> decide

@[simp] theorem highNibble_rexByte (r : Rex) : (rexByte r).extractLsb' 4 4 = 4#4 := by
  obtain ⟨w, r, x, b⟩ := r
  cases w <;> cases r <;> cases x <;> cases b <;> decide

/-- A byte whose high nibble is 4 is the REX byte of its fields. -/
theorem rexByte_rexOf {b : Byte} (h : b.extractLsb' 4 4 = 4#4) : rexByte (rexOf b) = b := by
  revert h b
  decide

/-! ## The lengths of the parts -/

@[simp] theorem disp32Bytes_length (d : BitVec 32) : (disp32Bytes d).length = 4 := rfl

@[simp] theorem Disp.bytes_length (d : Disp) : d.bytes.length = d.length := by
  cases d <;> rfl

@[simp] theorem RmOperand.bytes_length (reg : BitVec 3) (rm : RmOperand) : (rm.bytes reg).length = rm.length := by
  cases rm with
  | reg n => rfl
  | mem m =>
    cases m <;> simp only [RmOperand.bytes, MemOperand.bytes, RmOperand.length, List.length_cons, Disp.bytes_length,
      disp32Bytes_length] <;> omega

@[simp] theorem ImmOperand.bytes_length (rm : ImmOperand) : rm.bytes.length = rm.length := by
  cases rm <;> rfl

@[simp] theorem legacyBytes_length (p66 : Bool) (rex : Option Rex) (op : Byte) (tail : List Byte) :
    (legacyBytes p66 rex op tail).length = legacyHead p66 rex + tail.length := by
  cases p66 <;> cases rex <;> simp [legacyBytes, legacyHead] <;> omega

@[simp] theorem vexFormBytes_length (l : Bool) (vex : Vex) (op : Byte) (tail : List Byte) :
    (vexFormBytes l vex op tail).length = vex.head + tail.length := by
  cases vex <;> simp [vexFormBytes, Vex.bytes, Vex.head] <;> omega

/-- The length of each of the four shapes of an encoding. -/
theorem legacyRm_length (p66 : Bool) (rex : Option Rex) (op : Byte) (reg : BitVec 3) (rm : RmOperand) :
    (legacyBytes p66 rex op (rm.bytes reg)).length = legacyHead p66 rex + rm.length := by
  rw [legacyBytes_length, RmOperand.bytes_length]

theorem legacyImm_length (p66 : Bool) (rex : Option Rex) (op : Byte) (rm : ImmOperand) :
    (legacyBytes p66 rex op rm.bytes).length = legacyHead p66 rex + rm.length := by
  rw [legacyBytes_length, ImmOperand.bytes_length]

theorem vexFormRm_length (l : Bool) (vex : Vex) (op : Byte) (reg : BitVec 3) (rm : RmOperand) :
    (vexFormBytes l vex op (rm.bytes reg)).length = vex.head + rm.length := by
  rw [vexFormBytes_length, RmOperand.bytes_length]

theorem vexFormImm_length (l : Bool) (vex : Vex) (op : Byte) (rm : ImmOperand) :
    (vexFormBytes l vex op rm.bytes).length = vex.head + rm.length := by
  rw [vexFormBytes_length, ImmOperand.bytes_length]

end Sys2Proof
end

