-- ==== Sys2Proof/Laws/State.lean ====
section
/-! SUPPORT. One lemma for each field of each update of the state, true by rfl, and the register reads after the register
writes. -/

namespace Sys2Proof.Machine

@[simp] theorem State.setMm_mm (s : State) (i : BitVec 3) (v : Quad) :
    (s.setMm i v).mm = s.mm.set i.toNat v i.isLt := rfl
@[simp] theorem State.setMm_ymm (s : State) (i : BitVec 3) (v : Quad) :
    (s.setMm i v).ymm = s.ymm := rfl
@[simp] theorem State.setMm_x (s : State) (i : BitVec 3) (v : Quad) :
    (s.setMm i v).x = s.x := rfl
@[simp] theorem State.setMm_pc (s : State) (i : BitVec 3) (v : Quad) :
    (s.setMm i v).pc = s.pc := rfl
@[simp] theorem State.setMm_flags (s : State) (i : BitVec 3) (v : Quad) :
    (s.setMm i v).flags = s.flags := rfl
@[simp] theorem State.setMm_mxcsr (s : State) (i : BitVec 3) (v : Quad) :
    (s.setMm i v).mxcsr = s.mxcsr := rfl
@[simp] theorem State.setMm_ctl (s : State) (i : BitVec 3) (v : Quad) :
    (s.setMm i v).ctl = s.ctl := rfl
@[simp] theorem State.setMm_cfg (s : State) (i : BitVec 3) (v : Quad) :
    (s.setMm i v).cfg = s.cfg := rfl
@[simp] theorem State.setMm_mem (s : State) (i : BitVec 3) (v : Quad) :
    (s.setMm i v).mem = s.mem := rfl
@[simp] theorem State.setMm_fault (s : State) (i : BitVec 3) (v : Quad) :
    (s.setMm i v).fault = s.fault := rfl

@[simp] theorem State.setYmm_mm (s : State) (i : BitVec 4) (v : Vec) :
    (s.setYmm i v).mm = s.mm := rfl
@[simp] theorem State.setYmm_ymm (s : State) (i : BitVec 4) (v : Vec) :
    (s.setYmm i v).ymm = s.ymm.set i.toNat v i.isLt := rfl
@[simp] theorem State.setYmm_x (s : State) (i : BitVec 4) (v : Vec) :
    (s.setYmm i v).x = s.x := rfl
@[simp] theorem State.setYmm_pc (s : State) (i : BitVec 4) (v : Vec) :
    (s.setYmm i v).pc = s.pc := rfl
@[simp] theorem State.setYmm_flags (s : State) (i : BitVec 4) (v : Vec) :
    (s.setYmm i v).flags = s.flags := rfl
@[simp] theorem State.setYmm_mxcsr (s : State) (i : BitVec 4) (v : Vec) :
    (s.setYmm i v).mxcsr = s.mxcsr := rfl
@[simp] theorem State.setYmm_ctl (s : State) (i : BitVec 4) (v : Vec) :
    (s.setYmm i v).ctl = s.ctl := rfl
@[simp] theorem State.setYmm_cfg (s : State) (i : BitVec 4) (v : Vec) :
    (s.setYmm i v).cfg = s.cfg := rfl
@[simp] theorem State.setYmm_mem (s : State) (i : BitVec 4) (v : Vec) :
    (s.setYmm i v).mem = s.mem := rfl
@[simp] theorem State.setYmm_fault (s : State) (i : BitVec 4) (v : Vec) :
    (s.setYmm i v).fault = s.fault := rfl

@[simp] theorem State.setXmmKeep_mm (s : State) (i : BitVec 4) (v : BitVec 128) :
    (s.setXmmKeep i v).mm = s.mm := rfl
@[simp] theorem State.setXmmKeep_ymm (s : State) (i : BitVec 4) (v : BitVec 128) :
    (s.setXmmKeep i v).ymm = s.ymm.set i.toNat ((s.ymmReg i).extractLsb' 128 128 ++ v : BitVec 256) i.isLt := rfl
@[simp] theorem State.setXmmKeep_x (s : State) (i : BitVec 4) (v : BitVec 128) :
    (s.setXmmKeep i v).x = s.x := rfl
@[simp] theorem State.setXmmKeep_pc (s : State) (i : BitVec 4) (v : BitVec 128) :
    (s.setXmmKeep i v).pc = s.pc := rfl
@[simp] theorem State.setXmmKeep_flags (s : State) (i : BitVec 4) (v : BitVec 128) :
    (s.setXmmKeep i v).flags = s.flags := rfl
@[simp] theorem State.setXmmKeep_mxcsr (s : State) (i : BitVec 4) (v : BitVec 128) :
    (s.setXmmKeep i v).mxcsr = s.mxcsr := rfl
@[simp] theorem State.setXmmKeep_ctl (s : State) (i : BitVec 4) (v : BitVec 128) :
    (s.setXmmKeep i v).ctl = s.ctl := rfl
@[simp] theorem State.setXmmKeep_cfg (s : State) (i : BitVec 4) (v : BitVec 128) :
    (s.setXmmKeep i v).cfg = s.cfg := rfl
@[simp] theorem State.setXmmKeep_mem (s : State) (i : BitVec 4) (v : BitVec 128) :
    (s.setXmmKeep i v).mem = s.mem := rfl
@[simp] theorem State.setXmmKeep_fault (s : State) (i : BitVec 4) (v : BitVec 128) :
    (s.setXmmKeep i v).fault = s.fault := rfl

@[simp] theorem State.setXmmZero_mm (s : State) (i : BitVec 4) (v : BitVec 128) :
    (s.setXmmZero i v).mm = s.mm := rfl
@[simp] theorem State.setXmmZero_ymm (s : State) (i : BitVec 4) (v : BitVec 128) :
    (s.setXmmZero i v).ymm = s.ymm.set i.toNat (v.setWidth 256) i.isLt := rfl
@[simp] theorem State.setXmmZero_x (s : State) (i : BitVec 4) (v : BitVec 128) :
    (s.setXmmZero i v).x = s.x := rfl
@[simp] theorem State.setXmmZero_pc (s : State) (i : BitVec 4) (v : BitVec 128) :
    (s.setXmmZero i v).pc = s.pc := rfl
@[simp] theorem State.setXmmZero_flags (s : State) (i : BitVec 4) (v : BitVec 128) :
    (s.setXmmZero i v).flags = s.flags := rfl
@[simp] theorem State.setXmmZero_mxcsr (s : State) (i : BitVec 4) (v : BitVec 128) :
    (s.setXmmZero i v).mxcsr = s.mxcsr := rfl
@[simp] theorem State.setXmmZero_ctl (s : State) (i : BitVec 4) (v : BitVec 128) :
    (s.setXmmZero i v).ctl = s.ctl := rfl
@[simp] theorem State.setXmmZero_cfg (s : State) (i : BitVec 4) (v : BitVec 128) :
    (s.setXmmZero i v).cfg = s.cfg := rfl
@[simp] theorem State.setXmmZero_mem (s : State) (i : BitVec 4) (v : BitVec 128) :
    (s.setXmmZero i v).mem = s.mem := rfl
@[simp] theorem State.setXmmZero_fault (s : State) (i : BitVec 4) (v : BitVec 128) :
    (s.setXmmZero i v).fault = s.fault := rfl

/-! ## Register reads after register writes -/

theorem State.mmReg_setMm (s : State) (i j : BitVec 3) (v : Quad) :
    (s.setMm i v).mmReg j = if i = j then v else s.mmReg j := by
  simp only [State.mmReg, State.setMm, Vector.getElem_set, BitVec.toNat_inj]

@[simp] theorem State.mmReg_setMm_self (s : State) (i : BitVec 3) (v : Quad) : (s.setMm i v).mmReg i = v := by
  simp [State.mmReg_setMm]

theorem State.mmReg_setMm_ne (s : State) {i j : BitVec 3} (h : i ≠ j) (v : Quad) :
    (s.setMm i v).mmReg j = s.mmReg j := by
  simp [State.mmReg_setMm, h]

theorem State.ymmReg_setYmm (s : State) (i j : BitVec 4) (v : Vec) :
    (s.setYmm i v).ymmReg j = if i = j then v else s.ymmReg j := by
  simp only [State.ymmReg, State.setYmm, Vector.getElem_set, BitVec.toNat_inj]

@[simp] theorem State.ymmReg_setYmm_self (s : State) (i : BitVec 4) (v : Vec) : (s.setYmm i v).ymmReg i = v := by
  simp [State.ymmReg_setYmm]

theorem State.ymmReg_setYmm_ne (s : State) {i j : BitVec 4} (h : i ≠ j) (v : Vec) :
    (s.setYmm i v).ymmReg j = s.ymmReg j := by
  simp [State.ymmReg_setYmm, h]

/-- Writing an XMM register and keeping the upper half. -/
theorem State.ymmReg_setXmmKeep (s : State) (i j : BitVec 4) (v : BitVec 128) :
    (s.setXmmKeep i v).ymmReg j =
      if i = j then ((s.ymmReg i).extractLsb' 128 128 ++ v : BitVec 256) else s.ymmReg j :=
  State.ymmReg_setYmm s i j _

/-- Writing an XMM register and zeroing the upper half. -/
theorem State.ymmReg_setXmmZero (s : State) (i j : BitVec 4) (v : BitVec 128) :
    (s.setXmmZero i v).ymmReg j = if i = j then v.setWidth 256 else s.ymmReg j :=
  State.ymmReg_setYmm s i j _

@[simp] theorem State.mmReg_setYmm (s : State) (i : BitVec 4) (j : BitVec 3) (v : Vec) :
    (s.setYmm i v).mmReg j = s.mmReg j := rfl
@[simp] theorem State.ymmReg_setMm (s : State) (i : BitVec 3) (j : BitVec 4) (v : Quad) :
    (s.setMm i v).ymmReg j = s.ymmReg j := rfl

end Sys2Proof.Machine
end

