-- ==== Sys2Proof/Laws/Ops.lean ====
section
/-! SUPPORT. One lemma for each shared operation that says once everything it can do. -/

namespace Sys2Proof.Machine

/-- The state in which an exception has been taken. -/
theorem raiseExc_eq (e : Exc) (s : State) : raiseExc e s = .next { s with fault := some ⟨e, s.pc⟩ } := rfl

/-- What the advance of `pc` can answer. -/
theorem advance_next {s t : State} {len : Nat} (h : advance s len = .next t) :
    s.pc.toNat + len ≤ 2 ^ addrWidth s.cfg.mode - 1 ∧ t = { s with pc := s.pc + BitVec.ofNat 64 len } := by
  unfold advance at h
  split at h
  · cases h
  · cases h; exact ⟨by omega, rfl⟩

theorem advance_of_fits {s : State} {len : Nat} (h : s.pc.toNat + len ≤ 2 ^ addrWidth s.cfg.mode - 1) :
    advance s len = .next { s with pc := s.pc + BitVec.ofNat 64 len } := by
  unfold advance; rw [if_neg (by omega)]

theorem advance_refused {s : State} {len : Nat} (h : 2 ^ addrWidth s.cfg.mode - 1 < s.pc.toNat + len) :
    advance s len = .refused .pcPastTop := by
  unfold advance; rw [if_pos h]

/-- Everything the step skeleton can do. -/
theorem runForm_cases (s : State) (check : Option Exc) (count : Except Exc Quad) (write : Quad → State) (len : Nat) :
    (∃ e, check = some e ∧ runForm s check count write len = raiseExc e s) ∨
      (∃ e, check = none ∧ count = .error e ∧ runForm s check count write len = raiseExc e s) ∨
      (∃ c, check = none ∧ count = .ok c ∧ runForm s check count write len = advance (write c) len) := by
  cases check with
  | some e => exact .inl ⟨e, rfl, rfl⟩
  | none =>
    cases count with
    | error e => exact .inr (.inl ⟨e, rfl, rfl, rfl⟩)
    | ok c => exact .inr (.inr ⟨c, rfl, rfl, rfl⟩)

@[simp] theorem runForm_check (s : State) (e : Exc) (count : Except Exc Quad) (write : Quad → State) (len : Nat) :
    runForm s (some e) count write len = raiseExc e s := rfl
@[simp] theorem runForm_error (s : State) (e : Exc) (write : Quad → State) (len : Nat) :
    runForm s none (.error e) write len = raiseExc e s := rfl
@[simp] theorem runForm_ok (s : State) (c : Quad) (write : Quad → State) (len : Nat) :
    runForm s none (.ok c) write len = advance (write c) len := rfl

/-- The checks pass exactly when the feature flag is set and the operating-system state raises nothing. -/
theorem formCheck_none {feature : Bool} {os : Option Exc} : formCheck feature os = none ↔ feature = true ∧ os = none := by
  cases feature <;> simp [formCheck]

@[simp] theorem formCheck_false (os : Option Exc) : formCheck false os = some .ud := rfl
@[simp] theorem formCheck_true (os : Option Exc) : formCheck true os = os := rfl

/-- What a memory read can answer. -/
theorem memRead_cases (s : State) (addr : Quad) (n : Nat) :
    (memRead s addr n = .error (.memFault addr) ∧
        (2 ^ addrWidth s.cfg.mode - 1 < addr.toNat + n - 1 ∨ admits s.cfg addr.toNat n = false)) ∨
      (memRead s addr n = .ok (s.mem.readLe addr.toNat n) ∧
        addr.toNat + n - 1 ≤ 2 ^ addrWidth s.cfg.mode - 1 ∧ admits s.cfg addr.toNat n = true) := by
  unfold memRead
  split
  · exact .inl ⟨rfl, .inl ‹_›⟩
  · split
    · exact .inl ⟨rfl, .inr (by simp_all)⟩
    · exact .inr ⟨rfl, by omega, by simp_all⟩

theorem memRead_ok {s : State} {addr : Quad} {n : Nat} (h : addr.toNat + n - 1 ≤ 2 ^ addrWidth s.cfg.mode - 1)
    (ha : admits s.cfg addr.toNat n = true) : memRead s addr n = .ok (s.mem.readLe addr.toNat n) := by
  unfold memRead
  rw [if_neg (by omega), if_neg (by simp [ha])]

theorem memRead_error {s : State} {addr : Quad} {n : Nat}
    (h : 2 ^ addrWidth s.cfg.mode - 1 < addr.toNat + n - 1 ∨ admits s.cfg addr.toNat n = false) :
    memRead s addr n = .error (.memFault addr) := by
  unfold memRead
  split
  · rfl
  · rw [if_pos (by simpa using h.resolve_left ‹_›)]

/-- When a range serves a read. -/
theorem serves_iff {r : ReadRange} {a n : Nat} :
    serves r a n = true ↔ r.base ≤ a ∧ a + n ≤ r.base + r.size ∧ (r.only = none ∨ r.only = some n) := by
  cases h : r.only <;> simp [serves, h, and_assoc]

/-- When R39 allows a read. -/
theorem canonicalRead_iff {p : Params} {a n : Nat} :
    canonicalRead p a n = true ↔ p.mode = .mode32 ∨ ∀ k < n, canonical p.linearBits (a + k) = true := by
  simp [canonicalRead]

/-- When a read is admitted. -/
theorem admits_iff {p : Params} {a n : Nat} :
    admits p a n = true ↔ (∃ r ∈ p.admitted, serves r a n = true) ∧ canonicalRead p a n = true := by
  simp [admits]

/-- `Admit` is as free as `00_scope.md` R4 leaves it: on any finite set of addresses and sizes, so on all that a machine
of `AW` bits has, every predicate of an address and a size is the `Admit` of some list of ranges, but for what R39 has it
reject. -/
theorem admits_expressible (p : Params) (P : Nat → Nat → Bool) (addrs sizes : Nat) :
    ∃ l : List ReadRange, ∀ a < addrs, ∀ n < sizes,
      admits { p with admitted := l } a n = (P a n && canonicalRead p a n) := by
  refine ⟨(List.range addrs).flatMap fun a =>
    ((List.range sizes).filter (P a)).map fun n => ⟨a, n, some n⟩, fun a ha n hn => ?_⟩
  rw [Bool.eq_iff_iff, admits_iff, Bool.and_eq_true]
  refine and_congr ⟨?_, fun h => ?_⟩ Iff.rfl
  · rintro ⟨r, hr, hs⟩
    simp only [List.mem_flatMap, List.mem_map, List.mem_filter, List.mem_range] at hr
    obtain ⟨a', -, n', ⟨-, hP⟩, rfl⟩ := hr
    obtain ⟨h1, h2, h3⟩ := serves_iff.mp hs
    obtain rfl : n' = n := by simpa using h3
    obtain rfl : a' = a := by simp only at h1 h2; omega
    exact hP
  · refine ⟨⟨a, n, some n⟩, ?_, serves_iff.mpr ⟨le_rfl, le_rfl, .inr rfl⟩⟩
    simp only [List.mem_flatMap, List.mem_map, List.mem_filter, List.mem_range]
    exact ⟨a, ha, n, ⟨hn, h⟩, rfl⟩

/-- Byte `k` of a little-endian value is the byte at `a + k`. -/
theorem extractLsb'_readLe (m : Memory) (a : Nat) {n k : Nat} (h : k < n) :
    (m.readLe a n).extractLsb' (8 * k) 8 = m.read (a + k) := by
  induction n generalizing a k with
  | zero => omega
  | succ n ih =>
    apply BitVec.eq_of_getLsbD_eq
    intro i hi
    have e : m.readLe a (n + 1) = (m.readLe (a + 1) n ++ m.read a : BitVec (8 * n + 8)) := rfl
    rw [BitVec.getLsbD_extractLsb', e, BitVec.getLsbD_append]
    cases k with
    | zero => simp [hi]
    | succ k =>
      have := congrArg (fun v => v.getLsbD i) (ih (a + 1) (k := k) (by omega))
      simp only [BitVec.getLsbD_extractLsb', hi, decide_true, Bool.true_and] at this
      rw [if_neg (by omega), show 8 * (k + 1) + i - 8 = 8 * k + i by omega, this,
        show a + 1 + k = a + (k + 1) by omega]
      simp [hi]

/-! ## The operating-system premises -/

theorem osMmx_none {s : State} :
    osMmx s = none ↔ s.ctl.cr0Em = false ∧ s.ctl.cr0Ts = false ∧ s.ctl.x87Pending = false := by
  unfold osMmx
  cases s.ctl.cr0Em <;> cases s.ctl.cr0Ts <;> cases s.ctl.x87Pending <;> simp

theorem osSse_none {s : State} :
    osSse s = none ↔ s.ctl.cr0Em = false ∧ s.ctl.cr0Ts = false ∧ s.ctl.cr4Osfxsr = true := by
  unfold osSse
  cases s.ctl.cr0Em <;> cases s.ctl.cr0Ts <;> cases s.ctl.cr4Osfxsr <;> simp

theorem osAvx_none {s : State} :
    osAvx s = none ↔
      s.ctl.cr0Ts = false ∧ s.ctl.cr4Osxsave = true ∧ s.ctl.xcr0Sse = true ∧ s.ctl.xcr0Avx = true := by
  unfold osAvx
  cases s.ctl.cr0Ts <;> cases s.ctl.cr4Osxsave <;> cases s.ctl.xcr0Sse <;> cases s.ctl.xcr0Avx <;> simp

/-! ## The count -/

/-- What the count of an MMX RM form can answer. -/
theorem countMm_mem (s : State) (ext : ExtBits) (len : Nat) (m : MemOperand) :
    countMm s ext len (.mem m) =
      match memRead s (effAddr s ext len m) 8 with
      | .error e => .error e
      | .ok v => if alignCheckOn s && (effAddr s ext len m).toNat % 8 != 0 then .error .ac0 else .ok v := rfl

@[simp] theorem countMm_reg (s : State) (ext : ExtBits) (len : Nat) (n : BitVec 3) :
    countMm s ext len (.reg n) = .ok (s.mmReg n) := rfl
@[simp] theorem countSse_reg (s : State) (ext : ExtBits) (len : Nat) (n : BitVec 3) :
    countSse s ext len (.reg n) = .ok (countXmmReg s (regNum ext.b n)) := rfl
@[simp] theorem countVex_reg (s : State) (ext : ExtBits) (len : Nat) (n : BitVec 3) :
    countVex s ext len (.reg n) = .ok (countXmmReg s (regNum ext.b n)) := rfl

/-- A misaligned legacy `m128`. -/
theorem countSse_misaligned {s : State} {ext : ExtBits} {len : Nat} {m : MemOperand}
    (h : (effAddr s ext len m).toNat % 16 ≠ 0) : countSse s ext len (.mem m) = .error .gp0 := by
  simp [countSse, h]

theorem countSse_aligned {s : State} {ext : ExtBits} {len : Nat} {m : MemOperand}
    (h : (effAddr s ext len m).toNat % 16 = 0) :
    countSse s ext len (.mem m) = countM128 s (effAddr s ext len m) := by
  simp [countSse, h]

/-- The count register's low quadword is the low quadword of the whole vector register. -/
theorem countXmmReg_eq (s : State) (i : BitVec 4) : countXmmReg s i = (s.ymmReg i).extractLsb' 0 64 := by
  apply BitVec.eq_of_getLsbD_eq
  intro k hk
  simp [countXmmReg, State.xmmReg, hk]

end Sys2Proof.Machine
end

