-- ==== Sys2Proof/Laws/Exec.lean ====
section
/-! SUPPORT. What the skeletons of the four families can do, and from them what any instruction can do. -/

namespace Sys2Proof.Machine

/-- Everything an MMX RM form can do. -/
theorem mmxRm_cases (w len : Nat) (rex : Option Rex) (reg : BitVec 3) (rm : RmOperand) (s : State) :
    (∃ e, mmxRm w len rex reg rm s = raiseExc e s) ∨
      mmxRm w len rex reg rm s = .refused .pcPastTop ∨
      (s.pc.toNat + len ≤ 2 ^ addrWidth s.cfg.mode - 1 ∧ s.cfg.hasMmx = true ∧ osMmx s = none ∧
        ∃ c, countMm s (rexExt s.cfg.mode rex) len rm = .ok c ∧
          mmxRm w len rex reg rm s = .next { s.setMm reg (sll w (s.mmReg reg) c.toNat) with pc := s.pc + BitVec.ofNat 64 len }) := by
  rcases runForm_cases s (formCheck s.cfg.hasMmx (osMmx s)) (countMm s (rexExt s.cfg.mode rex) len rm)
    (fun c => s.setMm reg (sll w (s.mmReg reg) c.toNat)) len with
    ⟨e, _, h⟩ | ⟨e, _, _, h⟩ | ⟨c, hc, hok, h⟩
  · exact .inl ⟨e, h⟩
  · exact .inl ⟨e, h⟩
  · by_cases hp : s.pc.toNat + len ≤ 2 ^ addrWidth s.cfg.mode - 1
    · exact .inr (.inr ⟨hp, (formCheck_none.mp hc).1, (formCheck_none.mp hc).2, c, hok, h.trans (advance_of_fits hp)⟩)
    · exact .inr (.inl (h.trans (advance_refused (by
        show 2 ^ addrWidth s.cfg.mode - 1 < s.pc.toNat + len
        omega))))

/-- Everything an MMX MI form with a register operand can do. -/
theorem mmxMi_cases (w len : Nat)  (n : BitVec 3) (imm8 : Byte) (s : State) :
    (∃ e, mmxMi w len (.reg n imm8) s = raiseExc e s) ∨
      mmxMi w len (.reg n imm8) s = .refused .pcPastTop ∨
      (s.pc.toNat + len ≤ 2 ^ addrWidth s.cfg.mode - 1 ∧ s.cfg.hasMmx = true ∧ osMmx s = none ∧
        mmxMi w len (.reg n imm8) s = .next { s.setMm n (sll w (s.mmReg n) (countImm imm8).toNat) with pc := s.pc + BitVec.ofNat 64 len }) := by
  rcases runForm_cases s (formCheck s.cfg.hasMmx (osMmx s)) (.ok (countImm imm8))
    (fun c => s.setMm n (sll w (s.mmReg n) c.toNat)) len with
    ⟨e, _, h⟩ | ⟨e, _, _, h⟩ | ⟨c, hc, hok, h⟩
  · exact .inl ⟨e, h⟩
  · exact .inl ⟨e, h⟩
  · cases hok
    by_cases hp : s.pc.toNat + len ≤ 2 ^ addrWidth s.cfg.mode - 1
    · exact .inr (.inr ⟨hp, (formCheck_none.mp hc).1, (formCheck_none.mp hc).2, h.trans (advance_of_fits hp)⟩)
    · exact .inr (.inl (h.trans (advance_refused (by
        show 2 ^ addrWidth s.cfg.mode - 1 < s.pc.toNat + len
        omega))))

/-- Everything an SSE2 RM form can do. -/
theorem sseRm_cases (w len : Nat) (rex : Option Rex) (reg : BitVec 3) (rm : RmOperand) (s : State) :
    (∃ e, sseRm w len rex reg rm s = raiseExc e s) ∨
      sseRm w len rex reg rm s = .refused .pcPastTop ∨
      (s.pc.toNat + len ≤ 2 ^ addrWidth s.cfg.mode - 1 ∧ s.cfg.hasSse2 = true ∧ osSse s = none ∧
        ∃ c, countSse s (rexExt s.cfg.mode rex) len rm = .ok c ∧
          sseRm w len rex reg rm s = .next { s.setXmmKeep (regNum (rexExt s.cfg.mode rex).r reg) (sll w (s.xmmReg (regNum (rexExt s.cfg.mode rex).r reg)) c.toNat) with pc := s.pc + BitVec.ofNat 64 len }) := by
  rcases runForm_cases s (formCheck s.cfg.hasSse2 (osSse s)) (countSse s (rexExt s.cfg.mode rex) len rm)
    (fun c => s.setXmmKeep (regNum (rexExt s.cfg.mode rex).r reg) (sll w (s.xmmReg (regNum (rexExt s.cfg.mode rex).r reg)) c.toNat)) len with
    ⟨e, _, h⟩ | ⟨e, _, _, h⟩ | ⟨c, hc, hok, h⟩
  · exact .inl ⟨e, h⟩
  · exact .inl ⟨e, h⟩
  · by_cases hp : s.pc.toNat + len ≤ 2 ^ addrWidth s.cfg.mode - 1
    · exact .inr (.inr ⟨hp, (formCheck_none.mp hc).1, (formCheck_none.mp hc).2, c, hok, h.trans (advance_of_fits hp)⟩)
    · exact .inr (.inl (h.trans (advance_refused (by
        show 2 ^ addrWidth s.cfg.mode - 1 < s.pc.toNat + len
        omega))))

/-- Everything an SSE2 MI form with a register operand can do. -/
theorem sseMi_cases (w len : Nat) (rex : Option Rex) (n : BitVec 3) (imm8 : Byte) (s : State) :
    (∃ e, sseMi w len rex (.reg n imm8) s = raiseExc e s) ∨
      sseMi w len rex (.reg n imm8) s = .refused .pcPastTop ∨
      (s.pc.toNat + len ≤ 2 ^ addrWidth s.cfg.mode - 1 ∧ s.cfg.hasSse2 = true ∧ osSse s = none ∧
        sseMi w len rex (.reg n imm8) s = .next { s.setXmmKeep (regNum (rexExt s.cfg.mode rex).b n) (sll w (s.xmmReg (regNum (rexExt s.cfg.mode rex).b n)) (countImm imm8).toNat) with pc := s.pc + BitVec.ofNat 64 len }) := by
  rcases runForm_cases s (formCheck s.cfg.hasSse2 (osSse s)) (.ok (countImm imm8))
    (fun c => s.setXmmKeep (regNum (rexExt s.cfg.mode rex).b n) (sll w (s.xmmReg (regNum (rexExt s.cfg.mode rex).b n)) c.toNat)) len with
    ⟨e, _, h⟩ | ⟨e, _, _, h⟩ | ⟨c, hc, hok, h⟩
  · exact .inl ⟨e, h⟩
  · exact .inl ⟨e, h⟩
  · cases hok
    by_cases hp : s.pc.toNat + len ≤ 2 ^ addrWidth s.cfg.mode - 1
    · exact .inr (.inr ⟨hp, (formCheck_none.mp hc).1, (formCheck_none.mp hc).2, h.trans (advance_of_fits hp)⟩)
    · exact .inr (.inl (h.trans (advance_refused (by
        show 2 ^ addrWidth s.cfg.mode - 1 < s.pc.toNat + len
        omega))))

/-- Everything an AVX RVM form can do. -/
theorem avxRvm_cases (w len : Nat) (vex : Vex) (reg : BitVec 3) (rm : RmOperand) (s : State) :
    (∃ e, avxRvm w len vex reg rm s = raiseExc e s) ∨
      avxRvm w len vex reg rm s = .refused .pcPastTop ∨
      (s.pc.toNat + len ≤ 2 ^ addrWidth s.cfg.mode - 1 ∧ s.cfg.hasAvx = true ∧ osAvx s = none ∧
        ∃ c, countVex s (vexExt s.cfg.mode vex) len rm = .ok c ∧
          avxRvm w len vex reg rm s = .next { s.setXmmZero (regNum (vexExt s.cfg.mode vex).r reg) (sll w (s.xmmReg (vvvvNum s.cfg.mode vex)) c.toNat) with pc := s.pc + BitVec.ofNat 64 len }) := by
  rcases runForm_cases s (formCheck s.cfg.hasAvx (osAvx s)) (countVex s (vexExt s.cfg.mode vex) len rm)
    (fun c => s.setXmmZero (regNum (vexExt s.cfg.mode vex).r reg) (sll w (s.xmmReg (vvvvNum s.cfg.mode vex)) c.toNat)) len with
    ⟨e, _, h⟩ | ⟨e, _, _, h⟩ | ⟨c, hc, hok, h⟩
  · exact .inl ⟨e, h⟩
  · exact .inl ⟨e, h⟩
  · by_cases hp : s.pc.toNat + len ≤ 2 ^ addrWidth s.cfg.mode - 1
    · exact .inr (.inr ⟨hp, (formCheck_none.mp hc).1, (formCheck_none.mp hc).2, c, hok, h.trans (advance_of_fits hp)⟩)
    · exact .inr (.inl (h.trans (advance_refused (by
        show 2 ^ addrWidth s.cfg.mode - 1 < s.pc.toNat + len
        omega))))

/-- Everything an AVX VMI form with a register operand can do. -/
theorem avxVmi_cases (w len : Nat) (vex : Vex) (n : BitVec 3) (imm8 : Byte) (s : State) :
    (∃ e, avxVmi w len vex (.reg n imm8) s = raiseExc e s) ∨
      avxVmi w len vex (.reg n imm8) s = .refused .pcPastTop ∨
      (s.pc.toNat + len ≤ 2 ^ addrWidth s.cfg.mode - 1 ∧ s.cfg.hasAvx = true ∧ osAvx s = none ∧
        avxVmi w len vex (.reg n imm8) s = .next { s.setXmmZero (vvvvNum s.cfg.mode vex) (sll w (s.xmmReg (regNum (vexExt s.cfg.mode vex).b n)) (countImm imm8).toNat) with pc := s.pc + BitVec.ofNat 64 len }) := by
  rcases runForm_cases s (formCheck s.cfg.hasAvx (osAvx s)) (.ok (countImm imm8))
    (fun c => s.setXmmZero (vvvvNum s.cfg.mode vex) (sll w (s.xmmReg (regNum (vexExt s.cfg.mode vex).b n)) c.toNat)) len with
    ⟨e, _, h⟩ | ⟨e, _, _, h⟩ | ⟨c, hc, hok, h⟩
  · exact .inl ⟨e, h⟩
  · exact .inl ⟨e, h⟩
  · cases hok
    by_cases hp : s.pc.toNat + len ≤ 2 ^ addrWidth s.cfg.mode - 1
    · exact .inr (.inr ⟨hp, (formCheck_none.mp hc).1, (formCheck_none.mp hc).2, h.trans (advance_of_fits hp)⟩)
    · exact .inr (.inl (h.trans (advance_refused (by
        show 2 ^ addrWidth s.cfg.mode - 1 < s.pc.toNat + len
        omega))))

/-- Everything an AVX2 RVM form can do. -/
theorem avx2Rvm_cases (w len : Nat) (vex : Vex) (reg : BitVec 3) (rm : RmOperand) (s : State) :
    (∃ e, avx2Rvm w len vex reg rm s = raiseExc e s) ∨
      avx2Rvm w len vex reg rm s = .refused .pcPastTop ∨
      (s.pc.toNat + len ≤ 2 ^ addrWidth s.cfg.mode - 1 ∧ s.cfg.hasAvx2 = true ∧ osAvx s = none ∧
        ∃ c, countVex s (vexExt s.cfg.mode vex) len rm = .ok c ∧
          avx2Rvm w len vex reg rm s = .next { s.setYmm (regNum (vexExt s.cfg.mode vex).r reg) (sll w (s.ymmReg (vvvvNum s.cfg.mode vex)) c.toNat) with pc := s.pc + BitVec.ofNat 64 len }) := by
  rcases runForm_cases s (formCheck s.cfg.hasAvx2 (osAvx s)) (countVex s (vexExt s.cfg.mode vex) len rm)
    (fun c => s.setYmm (regNum (vexExt s.cfg.mode vex).r reg) (sll w (s.ymmReg (vvvvNum s.cfg.mode vex)) c.toNat)) len with
    ⟨e, _, h⟩ | ⟨e, _, _, h⟩ | ⟨c, hc, hok, h⟩
  · exact .inl ⟨e, h⟩
  · exact .inl ⟨e, h⟩
  · by_cases hp : s.pc.toNat + len ≤ 2 ^ addrWidth s.cfg.mode - 1
    · exact .inr (.inr ⟨hp, (formCheck_none.mp hc).1, (formCheck_none.mp hc).2, c, hok, h.trans (advance_of_fits hp)⟩)
    · exact .inr (.inl (h.trans (advance_refused (by
        show 2 ^ addrWidth s.cfg.mode - 1 < s.pc.toNat + len
        omega))))

/-- Everything an AVX2 VMI form with a register operand can do. -/
theorem avx2Vmi_cases (w len : Nat) (vex : Vex) (n : BitVec 3) (imm8 : Byte) (s : State) :
    (∃ e, avx2Vmi w len vex (.reg n imm8) s = raiseExc e s) ∨
      avx2Vmi w len vex (.reg n imm8) s = .refused .pcPastTop ∨
      (s.pc.toNat + len ≤ 2 ^ addrWidth s.cfg.mode - 1 ∧ s.cfg.hasAvx2 = true ∧ osAvx s = none ∧
        avx2Vmi w len vex (.reg n imm8) s = .next { s.setYmm (vvvvNum s.cfg.mode vex) (sll w (s.ymmReg (regNum (vexExt s.cfg.mode vex).b n)) (countImm imm8).toNat) with pc := s.pc + BitVec.ofNat 64 len }) := by
  rcases runForm_cases s (formCheck s.cfg.hasAvx2 (osAvx s)) (.ok (countImm imm8))
    (fun c => s.setYmm (vvvvNum s.cfg.mode vex) (sll w (s.ymmReg (regNum (vexExt s.cfg.mode vex).b n)) c.toNat)) len with
    ⟨e, _, h⟩ | ⟨e, _, _, h⟩ | ⟨c, hc, hok, h⟩
  · exact .inl ⟨e, h⟩
  · exact .inl ⟨e, h⟩
  · cases hok
    by_cases hp : s.pc.toNat + len ≤ 2 ^ addrWidth s.cfg.mode - 1
    · exact .inr (.inr ⟨hp, (formCheck_none.mp hc).1, (formCheck_none.mp hc).2, h.trans (advance_of_fits hp)⟩)
    · exact .inr (.inl (h.trans (advance_refused (by
        show 2 ^ addrWidth s.cfg.mode - 1 < s.pc.toNat + len
        omega))))

/-- An MI or VMI form with `mod` other than 11. -/
@[simp] theorem mmxMi_memForm (w len : Nat) (mod : BitVec 2) (rm : BitVec 3) (s : State) :
    mmxMi w len (.memForm mod rm) s = raiseExc .ud s := rfl
@[simp] theorem sseMi_memForm (w len : Nat) (rex : Option Rex) (mod : BitVec 2) (rm : BitVec 3) (s : State) :
    sseMi w len rex (.memForm mod rm) s = raiseExc .ud s := rfl
@[simp] theorem avxVmi_memForm (w len : Nat) (vex : Vex) (mod : BitVec 2) (rm : BitVec 3) (s : State) :
    avxVmi w len vex (.memForm mod rm) s = raiseExc .ud s := rfl
@[simp] theorem avx2Vmi_memForm (w len : Nat) (vex : Vex) (mod : BitVec 2) (rm : BitVec 3) (s : State) :
    avx2Vmi w len vex (.memForm mod rm) s = raiseExc .ud s := rfl

/-- What any result of the skeletons has in common: an exception, a refused advance, or new register files and an advanced
`pc`. -/
def SkeletonResult (len : Nat) (s : State) (r : Result) : Prop :=
  (∃ e, r = raiseExc e s) ∨ r = .refused .pcPastTop ∨
    (s.pc.toNat + len ≤ 2 ^ addrWidth s.cfg.mode - 1 ∧
      ∃ mm ymm, r = .next { s with mm := mm, ymm := ymm, pc := s.pc + BitVec.ofNat 64 len })

theorem mmxRm_skeleton (w len : Nat) (rex : Option Rex) (reg : BitVec 3) (rm : RmOperand) (s : State) :
    SkeletonResult len s (mmxRm w len rex reg rm s) := by
  rcases mmxRm_cases w len rex reg rm s with h | h | ⟨hp, _, _, c, _, h⟩
  · exact .inl h
  · exact .inr (.inl h)
  · exact .inr (.inr ⟨hp, _, _, h⟩)

theorem sseRm_skeleton (w len : Nat) (rex : Option Rex) (reg : BitVec 3) (rm : RmOperand) (s : State) :
    SkeletonResult len s (sseRm w len rex reg rm s) := by
  rcases sseRm_cases w len rex reg rm s with h | h | ⟨hp, _, _, c, _, h⟩
  · exact .inl h
  · exact .inr (.inl h)
  · exact .inr (.inr ⟨hp, _, _, h⟩)

theorem avxRvm_skeleton (w len : Nat) (vex : Vex) (reg : BitVec 3) (rm : RmOperand) (s : State) :
    SkeletonResult len s (avxRvm w len vex reg rm s) := by
  rcases avxRvm_cases w len vex reg rm s with h | h | ⟨hp, _, _, c, _, h⟩
  · exact .inl h
  · exact .inr (.inl h)
  · exact .inr (.inr ⟨hp, _, _, h⟩)

theorem avx2Rvm_skeleton (w len : Nat) (vex : Vex) (reg : BitVec 3) (rm : RmOperand) (s : State) :
    SkeletonResult len s (avx2Rvm w len vex reg rm s) := by
  rcases avx2Rvm_cases w len vex reg rm s with h | h | ⟨hp, _, _, c, _, h⟩
  · exact .inl h
  · exact .inr (.inl h)
  · exact .inr (.inr ⟨hp, _, _, h⟩)

theorem mmxMi_skeleton (w len : Nat) (rm : ImmOperand) (s : State) :
    SkeletonResult len s (mmxMi w len rm s) := by
  cases rm with
  | memForm mod rm => exact .inl ⟨.ud, rfl⟩
  | reg n imm8 =>
    rcases mmxMi_cases w len n imm8 s with h | h | ⟨hp, _, _, h⟩
    · exact .inl h
    · exact .inr (.inl h)
    · exact .inr (.inr ⟨hp, _, _, h⟩)

theorem sseMi_skeleton (w len : Nat) (rex : Option Rex) (rm : ImmOperand) (s : State) :
    SkeletonResult len s (sseMi w len rex rm s) := by
  cases rm with
  | memForm mod rm => exact .inl ⟨.ud, rfl⟩
  | reg n imm8 =>
    rcases sseMi_cases w len rex n imm8 s with h | h | ⟨hp, _, _, h⟩
    · exact .inl h
    · exact .inr (.inl h)
    · exact .inr (.inr ⟨hp, _, _, h⟩)

theorem avxVmi_skeleton (w len : Nat) (vex : Vex) (rm : ImmOperand) (s : State) :
    SkeletonResult len s (avxVmi w len vex rm s) := by
  cases rm with
  | memForm mod rm => exact .inl ⟨.ud, rfl⟩
  | reg n imm8 =>
    rcases avxVmi_cases w len vex n imm8 s with h | h | ⟨hp, _, _, h⟩
    · exact .inl h
    · exact .inr (.inl h)
    · exact .inr (.inr ⟨hp, _, _, h⟩)

theorem avx2Vmi_skeleton (w len : Nat) (vex : Vex) (rm : ImmOperand) (s : State) :
    SkeletonResult len s (avx2Vmi w len vex rm s) := by
  cases rm with
  | memForm mod rm => exact .inl ⟨.ud, rfl⟩
  | reg n imm8 =>
    rcases avx2Vmi_cases w len vex n imm8 s with h | h | ⟨hp, _, _, h⟩
    · exact .inl h
    · exact .inr (.inl h)
    · exact .inr (.inr ⟨hp, _, _, h⟩)

/-- Everything an instruction can do: take an exception, be refused at the top of the space, or write its destination
register and advance `pc` by its length. -/
theorem exec_skeleton (i : Instr) (s : State) : SkeletonResult i.length s (exec i s) := by
  cases i with
  | psllwMmMmm64 p reg rm => exact mmxRm_skeleton _ _ p reg rm s
  | psllwXmmXmmm128 p reg rm => exact sseRm_skeleton _ _ p reg rm s
  | psllwMmImm8 p rm => exact mmxMi_skeleton _ _ rm s
  | psllwXmmImm8 p rm => exact sseMi_skeleton _ _ p rm s
  | pslldMmMmm64 p reg rm => exact mmxRm_skeleton _ _ p reg rm s
  | pslldXmmXmmm128 p reg rm => exact sseRm_skeleton _ _ p reg rm s
  | pslldMmImm8 p rm => exact mmxMi_skeleton _ _ rm s
  | pslldXmmImm8 p rm => exact sseMi_skeleton _ _ p rm s
  | psllqMmMmm64 p reg rm => exact mmxRm_skeleton _ _ p reg rm s
  | psllqXmmXmmm128 p reg rm => exact sseRm_skeleton _ _ p reg rm s
  | psllqMmImm8 p rm => exact mmxMi_skeleton _ _ rm s
  | psllqXmmImm8 p rm => exact sseMi_skeleton _ _ p rm s
  | vpsllwXmmXmmXmmm128 p reg rm => exact avxRvm_skeleton _ _ p reg rm s
  | vpsllwXmmXmmImm8 p rm => exact avxVmi_skeleton _ _ p rm s
  | vpslldXmmXmmXmmm128 p reg rm => exact avxRvm_skeleton _ _ p reg rm s
  | vpslldXmmXmmImm8 p rm => exact avxVmi_skeleton _ _ p rm s
  | vpsllqXmmXmmXmmm128 p reg rm => exact avxRvm_skeleton _ _ p reg rm s
  | vpsllqXmmXmmImm8 p rm => exact avxVmi_skeleton _ _ p rm s
  | vpsllwYmmYmmXmmm128 p reg rm => exact avx2Rvm_skeleton _ _ p reg rm s
  | vpsllwYmmYmmImm8 p rm => exact avx2Vmi_skeleton _ _ p rm s
  | vpslldYmmYmmXmmm128 p reg rm => exact avx2Rvm_skeleton _ _ p reg rm s
  | vpslldYmmYmmImm8 p rm => exact avx2Vmi_skeleton _ _ p rm s
  | vpsllqYmmYmmXmmm128 p reg rm => exact avx2Rvm_skeleton _ _ p reg rm s
  | vpsllqYmmYmmImm8 p rm => exact avx2Vmi_skeleton _ _ p rm s

/-- The same, of a next state: its exception, or its registers and `pc`. -/
theorem exec_next {i : Instr} {s t : State} (h : exec i s = .next t) :
    (∃ e, t = { s with fault := some ⟨e, s.pc⟩ }) ∨
      (s.pc.toNat + i.length ≤ 2 ^ addrWidth s.cfg.mode - 1 ∧
        ∃ mm ymm, t = { s with mm := mm, ymm := ymm, pc := s.pc + BitVec.ofNat 64 i.length }) := by
  rcases exec_skeleton i s with ⟨e, he⟩ | he | ⟨hp, mm, ymm, he⟩
  · rw [he] at h; cases h; exact .inl ⟨e, rfl⟩
  · rw [he] at h; cases h
  · rw [he] at h; cases h; exact .inr ⟨hp, mm, ymm, rfl⟩

/-- No instruction stops with a fault: an exception is a next state. -/
theorem exec_ne_fault (i : Instr) (s : State) (f : Fault) : exec i s ≠ .fault f := by
  rcases exec_skeleton i s with ⟨e, he⟩ | he | ⟨_, _, _, he⟩ <;> rw [he] <;> simp [raiseExc]

end Sys2Proof.Machine
end

