-- ==== Sys2Proof/Laws/PerInstr.lean ====
section
/-! SUPPORT. Statements about every instruction, one lemma for each constructor of Instr. -/

namespace Sys2Proof.Laws.EncodeLength

/-- The encoding of an instruction has the length of R62. -/
def Statement (i : Instr) : Prop := (encode i).length = i.length

theorem psllwMmMmm64 (rex : Option Rex) (reg : BitVec 3) (rm : RmOperand) : Statement (.psllwMmMmm64 rex reg rm) :=
  legacyRm_length ..
theorem psllwXmmXmmm128 (rex : Option Rex) (reg : BitVec 3) (rm : RmOperand) : Statement (.psllwXmmXmmm128 rex reg rm) :=
  legacyRm_length ..
theorem psllwMmImm8 (rex : Option Rex) (rm : ImmOperand) : Statement (.psllwMmImm8 rex rm) :=
  legacyImm_length ..
theorem psllwXmmImm8 (rex : Option Rex) (rm : ImmOperand) : Statement (.psllwXmmImm8 rex rm) :=
  legacyImm_length ..
theorem pslldMmMmm64 (rex : Option Rex) (reg : BitVec 3) (rm : RmOperand) : Statement (.pslldMmMmm64 rex reg rm) :=
  legacyRm_length ..
theorem pslldXmmXmmm128 (rex : Option Rex) (reg : BitVec 3) (rm : RmOperand) : Statement (.pslldXmmXmmm128 rex reg rm) :=
  legacyRm_length ..
theorem pslldMmImm8 (rex : Option Rex) (rm : ImmOperand) : Statement (.pslldMmImm8 rex rm) :=
  legacyImm_length ..
theorem pslldXmmImm8 (rex : Option Rex) (rm : ImmOperand) : Statement (.pslldXmmImm8 rex rm) :=
  legacyImm_length ..
theorem psllqMmMmm64 (rex : Option Rex) (reg : BitVec 3) (rm : RmOperand) : Statement (.psllqMmMmm64 rex reg rm) :=
  legacyRm_length ..
theorem psllqXmmXmmm128 (rex : Option Rex) (reg : BitVec 3) (rm : RmOperand) : Statement (.psllqXmmXmmm128 rex reg rm) :=
  legacyRm_length ..
theorem psllqMmImm8 (rex : Option Rex) (rm : ImmOperand) : Statement (.psllqMmImm8 rex rm) :=
  legacyImm_length ..
theorem psllqXmmImm8 (rex : Option Rex) (rm : ImmOperand) : Statement (.psllqXmmImm8 rex rm) :=
  legacyImm_length ..
theorem vpsllwXmmXmmXmmm128 (vex : Vex) (reg : BitVec 3) (rm : RmOperand) : Statement (.vpsllwXmmXmmXmmm128 vex reg rm) :=
  vexFormRm_length ..
theorem vpsllwXmmXmmImm8 (vex : Vex) (rm : ImmOperand) : Statement (.vpsllwXmmXmmImm8 vex rm) :=
  vexFormImm_length ..
theorem vpslldXmmXmmXmmm128 (vex : Vex) (reg : BitVec 3) (rm : RmOperand) : Statement (.vpslldXmmXmmXmmm128 vex reg rm) :=
  vexFormRm_length ..
theorem vpslldXmmXmmImm8 (vex : Vex) (rm : ImmOperand) : Statement (.vpslldXmmXmmImm8 vex rm) :=
  vexFormImm_length ..
theorem vpsllqXmmXmmXmmm128 (vex : Vex) (reg : BitVec 3) (rm : RmOperand) : Statement (.vpsllqXmmXmmXmmm128 vex reg rm) :=
  vexFormRm_length ..
theorem vpsllqXmmXmmImm8 (vex : Vex) (rm : ImmOperand) : Statement (.vpsllqXmmXmmImm8 vex rm) :=
  vexFormImm_length ..
theorem vpsllwYmmYmmXmmm128 (vex : Vex) (reg : BitVec 3) (rm : RmOperand) : Statement (.vpsllwYmmYmmXmmm128 vex reg rm) :=
  vexFormRm_length ..
theorem vpsllwYmmYmmImm8 (vex : Vex) (rm : ImmOperand) : Statement (.vpsllwYmmYmmImm8 vex rm) :=
  vexFormImm_length ..
theorem vpslldYmmYmmXmmm128 (vex : Vex) (reg : BitVec 3) (rm : RmOperand) : Statement (.vpslldYmmYmmXmmm128 vex reg rm) :=
  vexFormRm_length ..
theorem vpslldYmmYmmImm8 (vex : Vex) (rm : ImmOperand) : Statement (.vpslldYmmYmmImm8 vex rm) :=
  vexFormImm_length ..
theorem vpsllqYmmYmmXmmm128 (vex : Vex) (reg : BitVec 3) (rm : RmOperand) : Statement (.vpsllqYmmYmmXmmm128 vex reg rm) :=
  vexFormRm_length ..
theorem vpsllqYmmYmmImm8 (vex : Vex) (rm : ImmOperand) : Statement (.vpsllqYmmYmmImm8 vex rm) :=
  vexFormImm_length ..

end Sys2Proof.Laws.EncodeLength
end

