-- ==== Sys2Proof/Laws/Shift.lean ====
section
/-! SUPPORT. What the packed shift does, lane by lane and bit by bit. -/

namespace Sys2Proof.Machine

theorem getLsbD_lane (w : Nat) {n : Nat} (v : BitVec n) (j i : Nat) :
    (lane w v j).getLsbD i = (decide (i < w) && v.getLsbD (j * w + i)) := by
  simp [lane]

/-- One formula for every count: a lane becomes `lane * 2^count mod 2^w`. -/
theorem toNat_shiftLane {w : Nat} (l : BitVec w) (count : Nat) :
    (shiftLane l count).toNat = l.toNat * 2 ^ count % 2 ^ w := by
  unfold shiftLane
  split
  · rename_i h
    obtain ⟨k, rfl⟩ := Nat.exists_eq_add_of_le (show w ≤ count by omega)
    rw [Nat.pow_add, ← Nat.mul_assoc, Nat.mul_right_comm, Nat.mul_mod_left]
    simp
  · simp

theorem shiftLane_eq_shiftLeft {w : Nat} (l : BitVec w) (count : Nat) : shiftLane l count = l <<< count := by
  apply BitVec.eq_of_toNat_eq
  rw [toNat_shiftLane, BitVec.toNat_shiftLeft, Nat.shiftLeft_eq]

theorem getLsbD_shiftLane {w : Nat} (l : BitVec w) (count i : Nat) :
    (shiftLane l count).getLsbD i = (decide (i < w) && (!decide (i < count) && l.getLsbD (i - count))) := by
  rw [shiftLane_eq_shiftLeft, BitVec.getLsbD_shiftLeft, Bool.and_assoc]

/-- Bit `i` of packed lanes is bit `i % w` of lane `i / w`. -/
theorem getLsbD_packLanes {n w : Nat} (hw : 0 < w) (ls : List (BitVec w)) (hn : ls.length * w ≤ n) (i : Nat) :
    (packLanes n ls).getLsbD i = (ls.getD (i / w) 0#w).getLsbD (i % w) := by
  induction ls generalizing i with
  | nil => simp [packLanes]
  | cons l ls ih =>
    simp only [List.length_cons, Nat.add_mul, Nat.one_mul] at hn
    rw [packLanes, BitVec.getLsbD_or, BitVec.getLsbD_shiftLeft, BitVec.getLsbD_setWidth, ih (by omega)]
    by_cases hi : i < w
    · rw [Nat.div_eq_of_lt hi, Nat.mod_eq_of_lt hi]
      simp [hi, show i < n by omega]
    · obtain ⟨k, rfl⟩ := Nat.exists_eq_add_of_le (show w ≤ i by omega)
      rw [Nat.add_div_left _ hw, Nat.add_mod_left, BitVec.getLsbD_of_ge l (w + k) (by omega)]
      by_cases hk : w + k < n
      · simp [hk]
      · have hlen : ls.length ≤ k / w := (Nat.le_div_iff_mul_le hw).mpr (by omega)
        simp [hk, List.getElem?_eq_none hlen]

/-- Bit `i` of a packed shift: it comes from `count` places lower if that bit is in the same lane, and is 0 otherwise. -/
theorem getLsbD_sll {w n : Nat} (hw : 0 < w) (hn : w ∣ n) (v : BitVec n) (count i : Nat) :
    (sll w v count).getLsbD i = (decide (i < n) && (!decide (i % w < count) && v.getLsbD (i - count))) := by
  have hlen : (n / w) * w = n := Nat.div_mul_cancel hn
  rw [sll, getLsbD_packLanes hw _ (by simp [hlen])]
  by_cases hi : i < n
  · have hj : i / w < n / w := by
      rw [Nat.div_lt_iff_lt_mul hw]; omega
    have hd : i / w * w + i % w = i := by rw [Nat.mul_comm]; exact Nat.div_add_mod i w
    have hm : i % w < w := Nat.mod_lt i hw
    simp only [List.getD_eq_getElem?_getD, List.getElem?_map, List.getElem?_range hj, Option.map_some,
      Option.getD_some, getLsbD_shiftLane, getLsbD_lane, hi, hm, decide_true, Bool.true_and]
    by_cases hc : i % w < count
    · simp [hc]
    · rw [show i / w * w + (i % w - count) = i - count by omega]
      simp [hc, show i % w - count < w by omega]
  · have hj : n / w ≤ i / w := Nat.div_le_div_right (by omega)
    have : ((List.range (n / w)).map fun j => shiftLane (lane w v j) count).length ≤ i / w := by simpa using hj
    simp [hi, List.getElem?_eq_none this]

/-- Lane `j` of a packed shift is the shifted lane `j`. -/
theorem lane_sll {w n : Nat} (hw : 0 < w) (hn : w ∣ n) (v : BitVec n) (count : Nat) {j : Nat} (hj : j < n / w) :
    lane w (sll w v count) j = shiftLane (lane w v j) count := by
  have hlen : (n / w) * w = n := Nat.div_mul_cancel hn
  have hjn : j * w + w ≤ n := by
    have := Nat.mul_le_mul_right w (show j + 1 ≤ n / w by omega)
    rw [Nat.add_mul] at this
    omega
  apply BitVec.eq_of_getLsbD_eq
  intro i hi
  rw [getLsbD_lane, getLsbD_shiftLane, getLsbD_lane, getLsbD_sll hw hn,
    show (j * w + i) % w = i by rw [Nat.mul_comm, Nat.mul_add_mod, Nat.mod_eq_of_lt hi]]
  by_cases hc : i < count
  · simp [hc]
  · rw [show j * w + i - count = j * w + (i - count) by omega]
    simp [hi, hc, show i - count < w by omega, show j * w + i < n by omega]

/-- Two values whose lanes agree are equal. -/
theorem eq_of_lanes {w n : Nat} (hw : 0 < w) (hn : w ∣ n) {u v : BitVec n}
    (h : ∀ j < n / w, lane w u j = lane w v j) : u = v := by
  apply BitVec.eq_of_getLsbD_eq
  intro i hi
  have hj : i / w < n / w := by
    rw [Nat.div_lt_iff_lt_mul hw, Nat.div_mul_cancel hn]; exact hi
  have hd : i / w * w + i % w = i := by rw [Nat.mul_comm]; exact Nat.div_add_mod i w
  have := congrArg (fun l => l.getLsbD (i % w)) (h (i / w) hj)
  simp only [getLsbD_lane, hd, Nat.mod_lt i hw, decide_true, Bool.true_and] at this
  exact this

end Sys2Proof.Machine
end

