-- ==== Sys2Proof/Tests/Slice0.lean ====
section
/-! SUPPORT. The model's own tests: ill-formed terms that WellFormed refuses, words of the spec and what they decode to, one
step of each instruction on the spec's own values, and a witness for the hypotheses of each statement. -/

namespace Sys2Proof.Tests

open Machine Safety

/-! ## WellFormed refuses -/

/-- `rm = 100` announces a SIB byte (R56). -/
theorem test_ill_formed_base_is_sib_escape : WellFormed .mode64 (.psllwMmMmm64 none 0#3 (.mem (.base 4#3 .none))) = false := by decide

/-- `rm = 100` announces a SIB byte, with a displacement too (R56). -/
theorem test_ill_formed_base_disp8_is_sib_escape : WellFormed .mode64 (.psllwXmmXmmm128 none 0#3 (.mem (.base 4#3 (.disp8 0#8)))) = false := by decide

/-- `mod = 00`, `rm = 101` is the displacement alone (R56). -/
theorem test_ill_formed_base_is_disp_only : WellFormed .mode64 (.pslldMmMmm64 none 0#3 (.mem (.base 5#3 .none))) = false := by decide

/-- `mod = 00`, `SIB.base = 101` is no base register (R58). -/
theorem test_ill_formed_sib_base_is_none : WellFormed .mode64 (.vpsllqXmmXmmXmmm128 (.vex2 false 0#4) 0#3 (.mem (.sib 0#2 4#3 5#3 .none))) = false := by decide

/-- The memory form of an immediate operand has another `mod` than 11 (R66). -/
theorem test_ill_formed_imm_memory_form_mod_11 : WellFormed .mode64 (.psllqMmImm8 none (.memForm 3#2 0#3)) = false := by decide

/-- The same of a VMI form (R66). -/
theorem test_ill_formed_vmi_memory_form_mod_11 : WellFormed .mode64 (.vpslldXmmXmmImm8 (.vex2 false 0#4) (.memForm 3#2 0#3)) = false := by decide

/-- The same of an SSE2 MI form (R66). -/
theorem test_ill_formed_sse_imm_memory_form_mod_11 : WellFormed .mode64 (.pslldXmmImm8 none (.memForm 3#2 0#3)) = false := by decide

/-- REX exists in mode64 only (R55). -/
theorem test_ill_formed_rex_in_mode32 : WellFormed .mode32 (.psllwXmmXmmm128 (some ⟨false, false, false, false⟩) 0#3 (.reg 0#3)) = false := by decide

/-- The same of an MI form (R55). -/
theorem test_ill_formed_rex_in_mode32_sse_imm : WellFormed .mode32 (.psllwXmmImm8 (some ⟨false, false, false, false⟩) (.reg 0#3 0#8)) = false := by decide

/-- The same of an MMX form (R55). -/
theorem test_ill_formed_rex_in_mode32_mmx : WellFormed .mode32 (.psllwMmMmm64 (some ⟨false, false, false, false⟩) 0#3 (.reg 0#3)) = false := by decide

/-- The same of an MMX MI form (R55). -/
theorem test_ill_formed_rex_in_mode32_mmx_imm : WellFormed .mode32 (.psllwMmImm8 (some ⟨false, false, false, false⟩) (.reg 0#3 0#8)) = false := by decide

/-- `REX.R` names no MMX register (R55). -/
theorem test_ill_formed_rex_r_on_mmx : WellFormed .mode64 (.psllwMmMmm64 (some ⟨false, true, false, false⟩) 0#3 (.reg 0#3)) = false := by decide

/-- `REX.B` names no MMX register (R55). -/
theorem test_ill_formed_rex_b_on_mmx_register : WellFormed .mode64 (.psllwMmMmm64 (some ⟨false, false, false, true⟩) 0#3 (.reg 0#3)) = false := by decide

/-- `REX.R` extends nothing on an MI form (R55). -/
theorem test_ill_formed_rex_r_on_mmx_imm : WellFormed .mode64 (.psllwMmImm8 (some ⟨false, true, false, false⟩) (.reg 0#3 0#8)) = false := by decide

/-- `REX.B` names no MMX register (R55). -/
theorem test_ill_formed_rex_b_on_mmx_imm : WellFormed .mode64 (.psllwMmImm8 (some ⟨false, false, false, true⟩) (.reg 0#3 0#8)) = false := by decide

/-- `REX.R` extends nothing on an MI form (R55). -/
theorem test_ill_formed_rex_r_on_sse_imm : WellFormed .mode64 (.psllqXmmImm8 (some ⟨false, true, false, false⟩) (.reg 0#3 0#8)) = false := by decide

/-- In mode32 that byte after `C5` is `LDS` (R61 (d)). -/
theorem test_ill_formed_vex2_r_in_mode32 : WellFormed .mode32 (.vpsllwXmmXmmXmmm128 (.vex2 true 0#4) 0#3 (.reg 0#3)) = false := by decide

/-- In mode32 bit 6 of the byte after `C5` is 1 too (R61 (d)). -/
theorem test_ill_formed_vex2_vvvv_in_mode32 : WellFormed .mode32 (.vpsllwXmmXmmXmmm128 (.vex2 false 8#4) 0#3 (.reg 0#3)) = false := by decide

/-- In mode32 that byte after `C4` is `LES` (R61 (d)). -/
theorem test_ill_formed_vex3_r_in_mode32 : WellFormed .mode32 (.vpsllwYmmYmmXmmm128 (.vex3 true false false false 0#4) 0#3 (.reg 0#3)) = false := by decide

/-- The same of bit 6 (R61 (d)). -/
theorem test_ill_formed_vex3_x_in_mode32 : WellFormed .mode32 (.vpsllwYmmYmmXmmm128 (.vex3 false true false false 0#4) 0#3 (.reg 0#3)) = false := by decide

/-- A VMI form admits only the stored `R = 1` (R61 (e)). -/
theorem test_ill_formed_vmi_r : WellFormed .mode64 (.vpsllqYmmYmmImm8 (.vex2 true 0#4) (.reg 0#3 0#8)) = false := by decide

/-! ## Words of the spec and what they decode to (`95_test_vectors.md` section 3 and section 4) -/

theorem test_decode_psllw_mm_mm : decode .mode64 [0x0F#8, 0xF1#8, 0xCA#8] =
    .ok (.psllwMmMmm64 none 1#3 (.reg 2#3), []) := by decide

theorem test_decode_psllw_mm_imm8 : decode .mode64 [0x0F#8, 0x71#8, 0xF3#8, 0x04#8] =
    .ok (.psllwMmImm8 none (.reg 3#3 4#8), []) := by decide

theorem test_decode_pslld_mm_m64 : decode .mode64 [0x0F#8, 0xF2#8, 0x00#8] =
    .ok (.pslldMmMmm64 none 0#3 (.mem (.base 0#3 .none)), []) := by decide

theorem test_decode_pslld_mm_imm8 : decode .mode64 [0x0F#8, 0x72#8, 0xF7#8, 0x1F#8] =
    .ok (.pslldMmImm8 none (.reg 7#3 0x1F#8), []) := by decide

theorem test_decode_psllq_mm_mm : decode .mode64 [0x0F#8, 0xF3#8, 0xED#8] =
    .ok (.psllqMmMmm64 none 5#3 (.reg 5#3), []) := by decide

theorem test_decode_psllq_mm_imm8 : decode .mode64 [0x0F#8, 0x73#8, 0xF2#8, 0x3F#8] =
    .ok (.psllqMmImm8 none (.reg 2#3 0x3F#8), []) := by decide

theorem test_decode_psllw_xmm9_xmm2 : decode .mode64 [0x66#8, 0x44#8, 0x0F#8, 0xF1#8, 0xCA#8] =
    .ok (.psllwXmmXmmm128 (some ⟨false, true, false, false⟩) 1#3 (.reg 2#3), []) := by decide

theorem test_decode_psllw_xmm_imm8 : decode .mode64 [0x66#8, 0x0F#8, 0x71#8, 0xF3#8, 0x08#8] =
    .ok (.psllwXmmImm8 none (.reg 3#3 8#8), []) := by decide

theorem test_decode_pslld_xmm_m128 : decode .mode64 [0x66#8, 0x0F#8, 0xF2#8, 0x43#8, 0x10#8] =
    .ok (.pslldXmmXmmm128 none 0#3 (.mem (.base 3#3 (.disp8 0x10#8))), []) := by decide

theorem test_decode_pslld_xmm12_imm8 : decode .mode64 [0x66#8, 0x41#8, 0x0F#8, 0x72#8, 0xF4#8, 0x01#8] =
    .ok (.pslldXmmImm8 (some ⟨false, false, false, true⟩) (.reg 4#3 1#8), []) := by decide

theorem test_decode_psllq_xmm_sib : decode .mode64 [0x66#8, 0x0F#8, 0xF3#8, 0x44#8, 0x8B#8, 0x08#8] =
    .ok (.psllqXmmXmmm128 none 0#3 (.mem (.sib 2#2 1#3 3#3 (.disp8 8#8))), []) := by decide

theorem test_decode_psllq_xmm_imm8 : decode .mode64 [0x66#8, 0x0F#8, 0x73#8, 0xF0#8, 0x40#8] =
    .ok (.psllqXmmImm8 none (.reg 0#3 0x40#8), []) := by decide

theorem test_decode_vpsllw_xmm_xmm_xmm : decode .mode64 [0xC5#8, 0xE9#8, 0xF1#8, 0xCB#8] =
    .ok (.vpsllwXmmXmmXmmm128 (.vex2 false 2#4) 1#3 (.reg 3#3), []) := by decide

theorem test_decode_vpsllw_xmm_xmm_imm8 : decode .mode64 [0xC5#8, 0xF1#8, 0x71#8, 0xF2#8, 0x04#8] =
    .ok (.vpsllwXmmXmmImm8 (.vex2 false 1#4) (.reg 2#3 4#8), []) := by decide

theorem test_decode_vpslld_xmm_xmm_m128 : decode .mode64 [0xC5#8, 0xE9#8, 0xF2#8, 0x08#8] =
    .ok (.vpslldXmmXmmXmmm128 (.vex2 false 2#4) 1#3 (.mem (.base 0#3 .none)), []) := by decide

theorem test_decode_vpslld_xmm8_xmm_imm8 : decode .mode64 [0xC5#8, 0xB9#8, 0x72#8, 0xF1#8, 0x03#8] =
    .ok (.vpslldXmmXmmImm8 (.vex2 false 8#4) (.reg 1#3 3#8), []) := by decide

theorem test_decode_vpsllq_xmm10_xmm11_xmm12 : decode .mode64 [0xC4#8, 0x41#8, 0x21#8, 0xF3#8, 0xD4#8] =
    .ok (.vpsllqXmmXmmXmmm128 (.vex3 true false true false 11#4) 2#3 (.reg 4#3), []) := by decide

theorem test_decode_vpsllq_xmm_xmm_imm8 : decode .mode64 [0xC5#8, 0xF1#8, 0x73#8, 0xF2#8, 0x3F#8] =
    .ok (.vpsllqXmmXmmImm8 (.vex2 false 1#4) (.reg 2#3 0x3F#8), []) := by decide

theorem test_decode_vpsllw_ymm_ymm_xmm : decode .mode64 [0xC5#8, 0xDD#8, 0xF1#8, 0xDD#8] =
    .ok (.vpsllwYmmYmmXmmm128 (.vex2 false 4#4) 3#3 (.reg 5#3), []) := by decide

theorem test_decode_vpsllw_ymm_ymm_imm8 : decode .mode64 [0xC5#8, 0xF5#8, 0x71#8, 0xF2#8, 0x0F#8] =
    .ok (.vpsllwYmmYmmImm8 (.vex2 false 1#4) (.reg 2#3 0x0F#8), []) := by decide

theorem test_decode_vpslld_ymm_ymm_m128 : decode .mode64 [0xC5#8, 0xED#8, 0xF2#8, 0x08#8] =
    .ok (.vpslldYmmYmmXmmm128 (.vex2 false 2#4) 1#3 (.mem (.base 0#3 .none)), []) := by decide

theorem test_decode_vpslld_ymm_ymm_imm8 : decode .mode64 [0xC5#8, 0xF5#8, 0x72#8, 0xF2#8, 0x20#8] =
    .ok (.vpslldYmmYmmImm8 (.vex2 false 1#4) (.reg 2#3 0x20#8), []) := by decide

theorem test_decode_vpsllq_ymm_ymm_m128 : decode .mode64 [0xC4#8, 0xC1#8, 0x6D#8, 0xF3#8, 0x1C#8, 0x24#8] =
    .ok (.vpsllqYmmYmmXmmm128 (.vex3 false false true false 2#4) 3#3
      (.mem (.sib 0#2 4#3 4#3 .none)), []) := by decide

theorem test_decode_vpsllq_ymm_ymm_imm8 : decode .mode64 [0xC5#8, 0xF5#8, 0x73#8, 0xF2#8, 0x40#8] =
    .ok (.vpsllqYmmYmmImm8 (.vex2 false 1#4) (.reg 2#3 0x40#8), []) := by decide

theorem test_decode_shortest : decode .mode32 [0x0F#8, 0xF1#8, 0xC1#8] =
    .ok (.psllwMmMmm64 none 0#3 (.reg 1#3), []) := by decide

theorem test_decode_rex_w : decode .mode64 [0x48#8, 0x0F#8, 0xF1#8, 0xC1#8] =
    .ok (.psllwMmMmm64 (some ⟨true, false, false, false⟩) 0#3 (.reg 1#3), []) := by decide

theorem test_decode_longest : decode .mode64 [0x66#8, 0x42#8, 0x0F#8, 0xF1#8, 0x0C#8, 0xA5#8, 0x00#8, 0x10#8, 0x00#8, 0x00#8] =
    .ok (.psllwXmmXmmm128 (some ⟨false, false, true, false⟩) 1#3 (.mem (.sibNoBase 2#2 4#3 0x1000#32)), []) := by decide

theorem test_decode_disp_only : decode .mode32 [0x0F#8, 0xF2#8, 0x05#8, 0x00#8, 0x30#8, 0x00#8, 0x00#8] =
    .ok (.pslldMmMmm64 none 0#3 (.mem (.dispOnly 0x3000#32)), []) := by decide

theorem test_decode_rsp_base : decode .mode64 [0x0F#8, 0xF1#8, 0x04#8, 0x24#8] =
    .ok (.psllwMmMmm64 none 0#3 (.mem (.sib 0#2 4#3 4#3 .none)), []) := by decide

theorem test_decode_rbp_base : decode .mode32 [0x0F#8, 0xF1#8, 0x45#8, 0x00#8] =
    .ok (.psllwMmMmm64 none 0#3 (.mem (.base 5#3 (.disp8 0#8))), []) := by decide

theorem test_decode_vex2_r : decode .mode64 [0xC5#8, 0x79#8, 0xF1#8, 0xC1#8] =
    .ok (.vpsllwXmmXmmXmmm128 (.vex2 true 0#4) 0#3 (.reg 1#3), []) := by decide

theorem test_decode_vex3_w : decode .mode64 [0xC4#8, 0xE1#8, 0xF9#8, 0xF1#8, 0xC1#8] =
    .ok (.vpsllwXmmXmmXmmm128 (.vex3 false false false true 0#4) 0#3 (.reg 1#3), []) := by decide

/-! ## Words of the spec that are refused -/

theorem test_refuse_rex_r_mmx : decode .mode64 [0x44#8, 0x0F#8, 0xF1#8, 0xC1#8] = .error .rexRExtendsNothing := by decide

theorem test_refuse_rex_in_mode32 : decode .mode32 [0x44#8, 0x0F#8, 0xF1#8, 0xC1#8] = .error (.notEscape 0x44#8) := by decide

theorem test_refuse_vex2_in_mode32 : decode .mode32 [0xC5#8, 0x79#8, 0xF1#8, 0xC1#8] = .error (.notVexInMode32 0xC5#8) := by decide

theorem test_refuse_vex_map : decode .mode64 [0xC4#8, 0xE2#8, 0x79#8, 0xF1#8, 0xC1#8] = .error (.vexMapNotListed 2#5) := by decide

theorem test_refuse_vex_pp : decode .mode64 [0xC5#8, 0xF8#8, 0xF1#8, 0xC1#8] = .error (.vexPpNotListed 0#2) := by decide

theorem test_refuse_extension : decode .mode32 [0x0F#8, 0x71#8, 0xD0#8, 0x04#8] = .error (.opcodeExtensionNotSix 2#3) := by decide

theorem test_refuse_vmi_r : decode .mode64 [0xC5#8, 0x71#8, 0x71#8, 0xF2#8, 0x04#8] = .error .vexRExtendsNothing := by decide

theorem test_refuse_vex_after_66 : decode .mode64 [0x66#8, 0xC5#8, 0xF9#8, 0xF1#8, 0xC1#8] = .error (.vexAfterPrefix 0xC5#8) := by decide

theorem test_refuse_second_66 : decode .mode32 [0x66#8, 0x66#8, 0x0F#8, 0xF1#8, 0xC1#8] = .error (.prefixNotAdmitted 0x66#8) := by decide

/-! ## One step on the spec's values (`95_test_vectors.md` section 3) -/

/-- A value of the test vectors. -/
def x64 : Quad := 0x8001400220031004#64
def x128 : BitVec 128 := 0xFFEEDDCCBBAA99887766554433221100#128
def vAll : Vec := 0x0123456789ABCDEFFEDCBA9876543210FFEEDDCCBBAA99887766554433221100#256
/-- An upper half, and the same above `x128`. -/
def upper : BitVec 128 := 0xA5A50000000000000000000000005A5A#128
def upperX : Vec := (upper ++ x128 : BitVec 256)

/-- The state after reset with a program's bytes at `pc`. -/
def boot (bs : List Byte) : State := { State.reset with mem := State.reset.mem.writeBytes 0 bs }

/-- The same with bytes at another address, and a general register pointing to it. -/
def pointAt (s : State) (r : BitVec 4) (a : Quad) (bs : List Byte) : State :=
  { s with x := s.x.set r.toNat a r.isLt, mem := s.mem.writeBytes a.toNat bs }

/-- The next state, if that is the outcome. -/
def next? : Result → Option State
  | .next s => some s
  | _ => none

/-- `MM[r]` and `pc` after one step. -/
def mmAfter (s : State) (r : BitVec 3) : Option (Quad × Quad) := (next? (step s)).map fun t => (t.mmReg r, t.pc)

/-- `YMM[r]` and `pc` after one step. -/
def ymmAfter (s : State) (r : BitVec 4) : Option (Vec × Quad) := (next? (step s)).map fun t => (t.ymmReg r, t.pc)

theorem test_psllw_mm_mm :
    mmAfter (((boot [0x0F#8, 0xF1#8, 0xCA#8]).setMm 1#3 x64).setMm 2#3 4#64) 1#3 = some (0x0010002000300040#64, 3#64) := by decide

theorem test_psllw_mm_mm_huge_count :
    mmAfter (((boot [0x0F#8, 0xF1#8, 0xCA#8]).setMm 1#3 x64).setMm 2#3 0x100000000#64) 1#3 = some (0x0#64, 3#64) := by decide

theorem test_psllw_mm_imm8 :
    mmAfter ((boot [0x0F#8, 0x71#8, 0xF3#8, 0x04#8]).setMm 3#3 x64) 3#3 = some (0x0010002000300040#64, 4#64) := by decide

theorem test_psllw_mm_imm8_unsigned :
    mmAfter ((boot [0x0F#8, 0x71#8, 0xF3#8, 0xFF#8]).setMm 3#3 (BitVec.allOnes 64)) 3#3 = some (0x0#64, 4#64) := by decide

theorem test_pslld_mm_m64_unaligned :
    mmAfter (pointAt ((boot [0x0F#8, 0xF2#8, 0x00#8]).setMm 0#3 x64) 0#4 0x1003#64 [4#8]) 0#3 = some (0x0014002000310040#64, 3#64) := by decide

theorem test_pslld_mm_imm8_top :
    mmAfter ((boot [0x0F#8, 0x72#8, 0xF7#8, 0x1F#8]).setMm 7#3 0x00000001FFFFFFFF#64) 7#3 = some (0x8000000080000000#64, 4#64) := by decide

theorem test_psllq_mm_same_register :
    mmAfter ((boot [0x0F#8, 0xF3#8, 0xED#8]).setMm 5#3 4#64) 5#3 = some (0x40#64, 3#64) := by decide

theorem test_psllq_mm_same_register_width :
    mmAfter ((boot [0x0F#8, 0xF3#8, 0xED#8]).setMm 5#3 0x40#64) 5#3 = some (0x0#64, 3#64) := by decide

theorem test_psllq_mm_imm8_top :
    mmAfter ((boot [0x0F#8, 0x73#8, 0xF2#8, 0x3F#8]).setMm 2#3 (BitVec.allOnes 64)) 2#3 = some (0x8000000000000000#64, 4#64) := by decide

theorem test_psllq_mm_imm8_zero :
    mmAfter ((boot [0x0F#8, 0x73#8, 0xF2#8, 0x00#8]).setMm 2#3 x64) 2#3 = some (0x8001400220031004#64, 4#64) := by decide

theorem test_psllw_xmm_xmm :
    ymmAfter (((boot [0x66#8, 0x0F#8, 0xF1#8, 0xCA#8]).setYmm 1#4 upperX).setYmm 2#4 0xDEADBEEFDEADBEEF0000000000000008#256) 1#4 = some ((upper ++ 0xEE00CC00AA0088006600440022000000#128 : BitVec 256), 4#64) := by decide

theorem test_psllw_xmm9_xmm :
    ymmAfter (((boot [0x66#8, 0x44#8, 0x0F#8, 0xF1#8, 0xCA#8]).setYmm 9#4 upperX).setYmm 2#4 8#256) 9#4 = some ((upper ++ 0xEE00CC00AA0088006600440022000000#128 : BitVec 256), 5#64) := by decide

theorem test_psllw_xmm_imm8_width :
    ymmAfter ((boot [0x66#8, 0x0F#8, 0x71#8, 0xF3#8, 0x10#8]).setYmm 3#4 upperX) 3#4 = some ((upper ++ 0x0#128 : BitVec 256), 5#64) := by decide

theorem test_pslld_xmm_m128 :
    ymmAfter (pointAt ((boot [0x66#8, 0x0F#8, 0xF2#8, 0x43#8, 0x10#8]).setYmm 0#4 upperX) 3#4 0x1000#64 (List.replicate 16 0#8 ++ [8#8] ++ List.replicate 7 0#8 ++ List.replicate 8 0xFF#8)) 0#4 = some ((upper ++ 0xEEDDCC00AA9988006655440022110000#128 : BitVec 256), 5#64) := by decide

theorem test_pslld_xmm12_imm8 :
    ymmAfter ((boot [0x66#8, 0x41#8, 0x0F#8, 0x72#8, 0xF4#8, 0x01#8]).setYmm 12#4 upperX) 12#4 = some ((upper ++ 0xFFDDBB9877553310EECCAA8866442200#128 : BitVec 256), 6#64) := by decide

theorem test_psllq_xmm_m128 :
    ymmAfter (pointAt ((boot [0x66#8, 0x0F#8, 0xF3#8, 0x08#8]).setYmm 1#4 upperX) 0#4 0x2000#64 [1#8]) 1#4 = some ((upper ++ 0xFFDDBB9977553310EECCAA8866442200#128 : BitVec 256), 4#64) := by decide

theorem test_psllq_xmm_same_register :
    ymmAfter ((boot [0x66#8, 0x0F#8, 0xF3#8, 0xC0#8]).setYmm 0#4 0x10000000000000004#256) 0#4 = some (0x00000000000000100000000000000040#256, 4#64) := by decide

theorem test_psllq_xmm_imm8 :
    ymmAfter ((boot [0x66#8, 0x0F#8, 0x73#8, 0xF0#8, 0x01#8]).setYmm 0#4 upperX) 0#4 = some ((upper ++ 0xFFDDBB9977553310EECCAA8866442200#128 : BitVec 256), 5#64) := by decide

theorem test_vpsllw_xmm_xmm_xmm :
    ymmAfter ((((boot [0xC5#8, 0xE9#8, 0xF1#8, 0xCB#8]).setYmm 1#4 upperX).setYmm 2#4 upperX).setYmm 3#4 8#256) 1#4 = some (0xEE00CC00AA0088006600440022000000#256, 4#64) := by decide

theorem test_vpsllw_xmm_xmm_imm8 :
    ymmAfter (((boot [0xC5#8, 0xF1#8, 0x71#8, 0xF2#8, 0x04#8]).setYmm 1#4 upperX).setYmm 2#4 (x64.setWidth 256)) 1#4 = some (0x0010002000300040#256, 5#64) := by decide

theorem test_vpsllw_count_zero_zeroes_upper :
    ymmAfter ((boot [0xC5#8, 0xF1#8, 0x71#8, 0xF1#8, 0x00#8]).setYmm 1#4 upperX) 1#4 = some ((x128.setWidth 256), 5#64) := by decide

theorem test_vpsllw_w_ignored :
    ymmAfter (((boot [0xC4#8, 0xE1#8, 0xF9#8, 0xF1#8, 0xC1#8]).setYmm 0#4 upperX).setYmm 1#4 1#256) 0#4 = some (0xFFDCBB9877543310EECCAA8866442200#256, 5#64) := by decide

theorem test_vpslld_xmm_xmm_m128_unaligned :
    ymmAfter (pointAt ((boot [0xC5#8, 0xE9#8, 0xF2#8, 0x08#8]).setYmm 2#4 upperX) 0#4 0x3001#64 [8#8]) 1#4 = some (0xEEDDCC00AA9988006655440022110000#256, 4#64) := by decide

theorem test_vpslld_xmm_xmm_imm8 :
    ymmAfter ((boot [0xC5#8, 0xF1#8, 0x72#8, 0xF2#8, 0x05#8]).setYmm 2#4 0x00000001000000020000000308000001#256) 1#4 = some (0x00000020000000400000006000000020#256, 5#64) := by decide

theorem test_vpsllq_xmm10_xmm11_xmm12 :
    ymmAfter (((boot [0xC4#8, 0x41#8, 0x21#8, 0xF3#8, 0xD4#8]).setYmm 11#4 upperX).setYmm 12#4 8#256) 10#4 = some (0xEEDDCCBBAA9988006655443322110000#256, 5#64) := by decide

theorem test_vpsllq_xmm_xmm_imm8 :
    ymmAfter ((boot [0xC5#8, 0xF1#8, 0x73#8, 0xF2#8, 0x3F#8]).setYmm 2#4 0x10000000000000003#256) 1#4 = some (0x80000000000000008000000000000000#256, 5#64) := by decide

theorem test_vpsllw_ymm_ymm_xmm :
    ymmAfter (((boot [0xC5#8, 0xDD#8, 0xF1#8, 0xDD#8]).setYmm 4#4 vAll).setYmm 5#4 (upper ++ 4#128 : BitVec 256)) 3#4 = some (0x123056709AB0DEF0EDC0A98065402100FEE0DCC0BAA098807660544032201000#256, 4#64) := by decide

theorem test_vpsllw_ymm_ymm_imm8 :
    ymmAfter ((boot [0xC5#8, 0xF5#8, 0x71#8, 0xF2#8, 0x0F#8]).setYmm 2#4 vAll) 1#4 = some (0x8000800080008000000000000000000000000000000000000000000000000000#256, 5#64) := by decide

theorem test_vpslld_ymm_ymm_m128 :
    ymmAfter (pointAt ((boot [0xC5#8, 0xED#8, 0xF2#8, 0x08#8]).setYmm 2#4 vAll) 0#4 0x1000#64 [4#8]) 1#4 = some (0x123456709ABCDEF0EDCBA98065432100FEEDDCC0BAA998807665544032211000#256, 4#64) := by decide

theorem test_vpslld_ymm_ymm_imm8 :
    ymmAfter ((boot [0xC5#8, 0xF5#8, 0x72#8, 0xF2#8, 0x04#8]).setYmm 2#4 vAll) 1#4 = some (0x123456709ABCDEF0EDCBA98065432100FEEDDCC0BAA998807665544032211000#256, 5#64) := by decide

theorem test_vpsllq_ymm_ymm_xmm :
    ymmAfter (((boot [0xC5#8, 0xF5#8, 0xF3#8, 0xC2#8]).setYmm 1#4 vAll).setYmm 2#4 4#256) 0#4 = some (0x123456789ABCDEF0EDCBA98765432100FEEDDCCBBAA998807665544332211000#256, 4#64) := by decide

theorem test_vpsllq_ymm_ymm_imm8_width :
    ymmAfter ((boot [0xC5#8, 0xF5#8, 0x73#8, 0xF2#8, 0x40#8]).setYmm 2#4 vAll) 1#4 = some (0#256, 5#64) := by decide

/-! ## Faults (`95_test_vectors.md` P4) and the two modes (P5) -/

/-- The fault record after one step. -/
def faultAfter (s : State) : Option (Option FaultRecord) := (next? (step s)).map State.fault

/-- `State.reset` in mode32. -/
def reset32 : State := { State.reset with cfg := { resetParams with mode := .mode32 } }

theorem test_fault_misaligned_m128 :
    faultAfter (pointAt (boot [0x66#8, 0x0F#8, 0xF1#8, 0x03#8]) 3#4 0x2001#64 []) = some (some ⟨.gp0, 0#64⟩) := by decide

theorem test_fault_avx2_without_flag :
    faultAfter { boot [0xC5#8, 0xFD#8, 0x71#8, 0xF1#8, 0x08#8] with cfg := { resetParams with hasAvx2 := false } } = some (some ⟨.ud, 0#64⟩) := by decide

theorem test_fault_encoding_before_os_state :
    faultAfter { boot [0x0F#8, 0x71#8, 0x30#8, 0x04#8] with ctl := { Control.reset with cr0Ts := true } } = some (some ⟨.ud, 0#64⟩) := by decide

theorem test_fault_not_admitted :
    faultAfter { pointAt (boot [0x0F#8, 0xF1#8, 0x03#8]) 3#4 0x1000#64 [] with cfg := { resetParams with admitted := [⟨0, 16, none⟩] } } = some (some ⟨(.memFault 0x1000#64), 0#64⟩) := by decide

/-- `Admit` may depend on the size: the fetch may read these bytes and an 8-byte operand may not. -/
theorem test_fault_size_not_admitted :
    faultAfter { boot [0x0F#8, 0xF1#8, 0x00#8] with cfg := { resetParams with admitted := [⟨0, 64, some 1⟩] } } =
      some (some ⟨(.memFault 0#64), 0#64⟩) := by decide

/-- A predicate that no union of bytes is: 8 bytes at 0 and at 8, but not at 4. -/
theorem test_admits_by_range :
    [0, 4, 8].map (fun a => admits { resetParams with admitted := [⟨0, 8, none⟩, ⟨8, 8, some 8⟩] } a 8) =
      [true, false, true] := by decide

theorem test_fault_alignment_check :
    faultAfter
      { pointAt (boot [0x0F#8, 0xF1#8, 0x03#8]) 3#4 0x1001#64 [] with
        ctl := { Control.reset with cr0Am := true, cpl := 3#2 }, flags := 0x40000#64 } =
      some (some ⟨.ac0, 0#64⟩) := by decide

/-- `0F F2 05 00 30 00 00` reads `[3000H]` in mode32 and `[pc + 7 + 3000H]` in mode64 (P5). -/
theorem test_disp_only_mode32 :
    effAddr { reset32 with pc := 0x400000#64 } ⟨false, false, false⟩ 7 (.dispOnly 0x3000#32) = 0x3000#64 := by decide

theorem test_disp_only_mode64 :
    effAddr { State.reset with pc := 0x400000#64 } ⟨false, false, false⟩ 7 (.dispOnly 0x3000#32) = 0x403007#64 := by decide

/-- A write is read back, and writing the blank byte takes the entry away. -/
theorem test_memory_canonical : Memory.write (Memory.write [(4, 1#8)] 2 7#8) 2 0#8 = [(4, 1#8)] := by decide

/-- `State.withFetchWord` on a table word: the first row of the opcode table with a register operand. -/
theorem test_fetch_word : decodeTableWord 24 0x0FF1CA = some (.psllwMmMmm64 none 1#3 (.reg 2#3)) := by decide

theorem test_fetch_word_step :
    (next? (step (State.reset.withFetchWord 24 0x0FF1CA))).map State.pc = some 3#64 := by decide

/-! ## Witnesses: for each statement, values that meet its hypotheses together, clause by clause -/

/-- A long form in mode64 and a short one in mode32. -/
theorem witness_DecodeOfEncodeGivesTheInstruction :
    WellFormed .mode64 (.psllwXmmXmmm128 (some ⟨true, true, true, true⟩) 7#3 (.mem (.sibNoBase 3#2 7#3 0xFFFFFFFF#32))) = true ∧
      WellFormed .mode32 (.vpsllqYmmYmmImm8 (.vex2 false 7#4) (.memForm 2#2 7#3)) = true := by decide

theorem witness_DecodedBytesAreTheEncoding :
    decode .mode64 [0x0F#8, 0xF1#8, 0xC1#8, 0x90#8] = .ok (.psllwMmMmm64 none 0#3 (.reg 1#3), [0x90#8]) := by decide

/-- The shortest and the longest encoding. -/
theorem witness_EncodingsAreThreeToTenBytes :
    WellFormed .mode32 (.psllwMmMmm64 none 0#3 (.reg 0#3)) = true ∧
      (encode (.psllwMmMmm64 none 0#3 (.reg 0#3))).length = 3 ∧
      WellFormed .mode64 (.vpsllwYmmYmmXmmm128 (.vex3 true true true true 15#4) 7#3 (.mem (.sib 3#2 7#3 7#3 (.disp32 1#32)))) = true ∧
      (encode (.vpsllwYmmYmmXmmm128 (.vex3 true true true true 15#4) 7#3 (.mem (.sib 3#2 7#3 7#3 (.disp32 1#32))))).length = 10 := by
  decide

/-- `ModRM.reg` 5 and 7, and the opcodes next to the six of the table. -/
theorem witness_OtherOpcodesAndExtensionsAreRefused :
    (rexWf .mode64 (some ⟨false, false, false, true⟩) = true ∧ 0x71#8 ∈ [0x71#8, 0x72#8, 0x73#8] ∧ bits53 0xE8#8 ≠ 6#3) ∧
      (Vex.wf .mode32 (.vex2 false 7#4) = true ∧ 0x73#8 ∈ [0x71#8, 0x72#8, 0x73#8] ∧ bits53 0xF8#8 ≠ 6#3) ∧
      (rexWf .mode32 none = true ∧ 0xF0#8 ∉ [0xF1#8, 0xF2#8, 0xF3#8, 0x71#8, 0x72#8, 0x73#8]) ∧
      (Vex.wf .mode64 (.vex3 true true true true 15#4) = true ∧
        0x74#8 ∉ [0xF1#8, 0xF2#8, 0xF3#8, 0x71#8, 0x72#8, 0x73#8]) := by decide

theorem witness_VexMapAndPpAreFixedAndVvvvIsFree :
    (bits76 0xF8#8 = 3#2 ∧ (0xF8#8).extractLsb' 0 2 ≠ 1#2) ∧
      (bits76 0xE2#8 = 3#2 ∧ (0xE2#8).extractLsb' 0 5 ≠ 1#5) ∧
      (bits76 0xE1#8 = 3#2 ∧ (0xE1#8).extractLsb' 0 5 = 1#5 ∧ (0x7A#8).extractLsb' 0 2 ≠ 1#2) ∧
      (0xF1#8 ∈ [0xF1#8, 0xF2#8, 0xF3#8, 0x71#8, 0x72#8, 0x73#8] ∧ 0x73#8 ∈ [0xF1#8, 0xF2#8, 0xF3#8, 0x71#8, 0x72#8, 0x73#8] ∧
        bits76 0xF0#8 = 3#2 ∧ bits53 0xF0#8 = 6#3) := by decide

theorem witness_PrefixesOutsideTheAdmittedOrderAreRefused :
    0xF0#8 ∈ [0xF0#8, 0xF2#8, 0xF3#8, 0x26#8, 0x2E#8, 0x36#8, 0x3E#8, 0x64#8, 0x65#8, 0x67#8] ∧
      0x66#8 ∈ [0xF0#8, 0xF2#8, 0xF3#8, 0x26#8, 0x2E#8, 0x36#8, 0x3E#8, 0x64#8, 0x65#8, 0x67#8, 0x66#8] ∧
      0xC4#8 ∈ [0xC4#8, 0xC5#8] ∧ 0xC5#8 ∈ [0xC4#8, 0xC5#8] := by decide

/-- `REX.R`; `REX.B` without `REX.R`; each on an opcode of its clause. -/
theorem witness_RexBitsThatExtendNothingAreRefused :
    (0xF1#8 ∈ [0xF1#8, 0xF2#8, 0xF3#8] ∧ Rex.r ⟨false, true, false, false⟩ = true) ∧
      (0xF3#8 ∈ [0xF1#8, 0xF2#8, 0xF3#8] ∧ Rex.r ⟨false, false, false, true⟩ = false ∧ Rex.b ⟨false, false, false, true⟩ = true ∧
        bits76 0xC0#8 = 3#2) ∧
      (0x71#8 ∈ [0x71#8, 0x72#8, 0x73#8] ∧ bits53 0x30#8 = 6#3 ∧ Rex.r ⟨false, true, false, false⟩ = true) ∧
      (0x73#8 ∈ [0x71#8, 0x72#8, 0x73#8] ∧ bits53 0xF0#8 = 6#3 ∧ Rex.r ⟨false, false, false, true⟩ = false ∧
        Rex.b ⟨false, false, false, true⟩ = true ∧ bits76 0xF0#8 = 3#2) := by decide

/-- A pair of SSE2 forms and a pair of VEX forms. -/
theorem witness_WBitsHaveNoEffect :
    (familyOf (.psllwXmmImm8 (some ⟨true, false, false, true⟩) (.reg 7#3 3#8)) =
        familyOf (.psllwXmmImm8 (some ⟨false, false, false, true⟩) (.reg 7#3 3#8)) ∧
      elementBits (.psllwXmmImm8 (some ⟨true, false, false, true⟩) (.reg 7#3 3#8)) =
        elementBits (.psllwXmmImm8 (some ⟨false, false, false, true⟩) (.reg 7#3 3#8)) ∧
      tailOf (.psllwXmmImm8 (some ⟨true, false, false, true⟩) (.reg 7#3 3#8)) =
        tailOf (.psllwXmmImm8 (some ⟨false, false, false, true⟩) (.reg 7#3 3#8)) ∧
      prefixOf (.psllwXmmImm8 (some ⟨true, false, false, true⟩) (.reg 7#3 3#8)) = .legacy (some ⟨true, false, false, true⟩) ∧
      prefixOf (.psllwXmmImm8 (some ⟨false, false, false, true⟩) (.reg 7#3 3#8)) =
        .legacy (some ⟨false, false, false, true⟩)) ∧
      (familyOf (.vpslldXmmXmmImm8 (.vex3 false false true true 15#4) (.reg 0#3 3#8)) =
          familyOf (.vpslldXmmXmmImm8 (.vex3 false false true false 15#4) (.reg 0#3 3#8)) ∧
        elementBits (.vpslldXmmXmmImm8 (.vex3 false false true true 15#4) (.reg 0#3 3#8)) =
          elementBits (.vpslldXmmXmmImm8 (.vex3 false false true false 15#4) (.reg 0#3 3#8)) ∧
        tailOf (.vpslldXmmXmmImm8 (.vex3 false false true true 15#4) (.reg 0#3 3#8)) =
          tailOf (.vpslldXmmXmmImm8 (.vex3 false false true false 15#4) (.reg 0#3 3#8)) ∧
        prefixOf (.vpslldXmmXmmImm8 (.vex3 false false true true 15#4) (.reg 0#3 3#8)) =
          .vex (.vex3 false false true true 15#4) ∧
        prefixOf (.vpslldXmmXmmImm8 (.vex3 false false true false 15#4) (.reg 0#3 3#8)) =
          .vex (.vex3 false false true false 15#4)) := by decide

/-- Both modes, and index number 0100 in its two spellings: no index, and R12. -/
theorem witness_EffectiveAddressIsBasePlusScaledIndexPlusDisp :
    State.reset.cfg.mode = .mode64 ∧ reset32.cfg.mode = .mode32 ∧ regNum false 4#3 = 4#4 ∧ regNum true 4#3 ≠ 4#4 := by decide

theorem witness_ShiftsCompose : 16 ∈ [16, 32, 64] ∧ 64 ∈ [16, 32, 64] ∧ 64 ∈ [64, 128, 256] ∧ 256 ∈ [64, 128, 256] := by
  decide

/-- The least count that clears a lane, the last lane, and two values that agree in one lane alone. -/
theorem witness_ShiftCountsAtTheEdgesOfALane :
    16 ∈ [16, 32, 64] ∧ 256 ∈ [64, 128, 256] ∧ 16 ≤ 16 ∧ 15 < 256 / 16 ∧
      laneNat 16 0x10002 1 = laneNat 16 0x10003 1 ∧ laneNat 16 0x10002 0 ≠ laneNat 16 0x10003 0 := by decide

theorem witness_NarrowerShiftLosesExactlyTheCrossingBits :
    (16, 32) ∈ [(16, 32), (16, 64), (32, 64)] ∧ (32, 64) ∈ [(16, 32), (16, 64), (32, 64)] ∧ 128 ∈ [64, 128, 256] := by decide

theorem witness_MmxRegisterCountShiftsEveryLane :
    MmxReady State.reset ∧ Fits State.reset (.psllwMmMmm64 none 0#3 (.reg 0#3)) ∧
      Fits State.reset (.psllqMmMmm64 none 7#3 (.reg 7#3)) := by decide

/-- An odd address with alignment checking off, and an aligned one with it on. -/
theorem witness_MmxMemoryCountShiftsEveryLane :
    (effAddr State.reset ⟨false, false, false⟩ 4 (.base 0#3 (.disp8 1#8)) = 1#64 ∧ MmxReady State.reset ∧
        Fits State.reset (.pslldMmMmm64 none 0#3 (.mem (.base 0#3 (.disp8 1#8)))) ∧ Readable State.reset 1#64 8 ∧
        AlignCheckOff State.reset) ∧
      (8#64).toNat % 8 = 0 ∧ Readable State.reset 8#64 8 := by decide

theorem witness_MmxImmediateCountShiftsEveryLane :
    MmxReady State.reset ∧ Fits State.reset (.psllwMmImm8 none (.reg 0#3 255#8)) ∧
      Fits reset32 (.psllqMmImm8 none (.reg 7#3 0#8)) := by decide

theorem witness_SseRegisterCountShiftsLowHalfAndKeepsUpper :
    Sse2Ready State.reset ∧ Fits State.reset (.psllwXmmXmmm128 (some ⟨false, true, false, true⟩) 7#3 (.reg 7#3)) ∧
      Fits reset32 (.psllqXmmXmmm128 none 0#3 (.reg 0#3)) := by decide

/-- The last 16 aligned bytes below the first non-canonical address. -/
theorem witness_SseMemoryCountShiftsLowHalfAndKeepsUpper :
    Sse2Ready State.reset ∧ Readable State.reset 0x7FFFFFFFFFF0#64 16 ∧ (0x7FFFFFFFFFF0#64).toNat % 16 = 0 ∧
      effAddr { State.reset with x := State.reset.x.set 3 0x7FFFFFFFFFF0#64 } ⟨false, false, false⟩ 4 (.base 3#3 .none) =
        0x7FFFFFFFFFF0#64 ∧
      Fits State.reset (.psllwXmmXmmm128 none 0#3 (.mem (.base 3#3 .none))) := by decide

theorem witness_SseImmediateCountShiftsLowHalfAndKeepsUpper :
    Sse2Ready State.reset ∧ Fits State.reset (.pslldXmmImm8 (some ⟨false, false, false, true⟩) (.reg 7#3 255#8)) := by decide

theorem witness_AvxRegisterCountShiftsSourceAndZeroesUpper :
    AvxReady State.reset ∧ Fits State.reset (.vpsllwXmmXmmXmmm128 (.vex3 true true true true 15#4) 7#3 (.reg 7#3)) := by decide

theorem witness_AvxMemoryCountShiftsSourceAndZeroesUpper :
    AvxReady State.reset ∧ Readable State.reset 1#64 16 ∧
      effAddr State.reset ⟨false, false, false⟩ 5 (.base 0#3 (.disp8 1#8)) = 1#64 ∧
      Fits State.reset (.vpslldXmmXmmXmmm128 (.vex2 false 0#4) 0#3 (.mem (.base 0#3 (.disp8 1#8)))) := by decide

theorem witness_AvxImmediateCountShiftsSourceAndZeroesUpper :
    AvxReady State.reset ∧ Fits State.reset (.vpsllqXmmXmmImm8 (.vex2 false 15#4) (.reg 7#3 255#8)) := by decide

theorem witness_Avx2RegisterCountShiftsEveryLaneOfTheSource :
    Avx2Ready State.reset ∧ Fits State.reset (.vpsllwYmmYmmXmmm128 (.vex3 true true true true 15#4) 7#3 (.reg 7#3)) := by decide

theorem witness_Avx2MemoryCountShiftsEveryLaneOfTheSource :
    Avx2Ready State.reset ∧ Readable State.reset 1#64 16 ∧
      effAddr State.reset ⟨false, false, false⟩ 5 (.base 0#3 (.disp8 1#8)) = 1#64 ∧
      Fits State.reset (.vpslldYmmYmmXmmm128 (.vex2 false 0#4) 0#3 (.mem (.base 0#3 (.disp8 1#8)))) := by decide

theorem witness_Avx2ImmediateCountShiftsEveryLaneOfTheSource :
    Avx2Ready State.reset ∧ Fits State.reset (.vpsllqYmmYmmImm8 (.vex2 false 15#4) (.reg 7#3 255#8)) := by decide

/-- `State.reset` with other control bits, and with other parameters. -/
def withCtl (c : Control) : State := { State.reset with ctl := c }
def withCfg (p : Params) : State := { State.reset with cfg := p }

theorem witness_ClearFeatureFlagRaisesUd :
    featureSet (withCfg { resetParams with hasMmx := false }) (familyOf (.psllwMmImm8 none (.reg 0#3 1#8))) = false ∧
      featureSet (withCfg { resetParams with hasSse2 := false }) (familyOf (.psllwXmmImm8 none (.reg 0#3 1#8))) = false ∧
      featureSet (withCfg { resetParams with hasAvx := false }) (familyOf (.vpsllwXmmXmmImm8 (.vex2 false 0#4) (.reg 0#3 1#8))) =
        false ∧
      featureSet (withCfg { resetParams with hasAvx2 := false })
        (familyOf (.vpsllwYmmYmmImm8 (.vex2 false 0#4) (.reg 0#3 1#8))) = false := by decide

/-- Each clause's control bits, and a form that faults for another reason when they are fine. -/
theorem witness_MmxOperatingSystemState :
    (familyOf (.psllwMmImm8 none (.reg 0#3 1#8)) = .mmx ∧ immMemForm (.psllwMmImm8 none (.reg 0#3 1#8)) = false ∧
        State.reset.cfg.hasMmx = true) ∧
      (withCtl { Control.reset with cr0Em := true, cr0Ts := true }).ctl.cr0Em = true ∧
      ((withCtl { Control.reset with cr0Ts := true, x87Pending := true }).ctl.cr0Em = false ∧
        (withCtl { Control.reset with cr0Ts := true, x87Pending := true }).ctl.cr0Ts = true) ∧
      (withCtl { Control.reset with x87Pending := true }).ctl.x87Pending = true ∧
      (OsMmxOk State.reset ∧ State.reset.fault = none ∧
        (next? (exec (.psllwMmMmm64 none 0#3 (.mem (.base 0#3 .none)))
          (withCfg { resetParams with admitted := [] }))).map State.fault = some (some ⟨.memFault 0#64, 0#64⟩)) := by decide

theorem witness_SseOperatingSystemState :
    (familyOf (.psllwXmmImm8 none (.reg 0#3 1#8)) = .sse2 ∧ immMemForm (.psllwXmmImm8 none (.reg 0#3 1#8)) = false ∧
        State.reset.cfg.hasSse2 = true) ∧
      (withCtl { Control.reset with cr4Osfxsr := false }).ctl.cr4Osfxsr = false ∧
      ((withCtl { Control.reset with cr0Ts := true }).ctl.cr0Em = false ∧
        (withCtl { Control.reset with cr0Ts := true }).ctl.cr4Osfxsr = true ∧
        (withCtl { Control.reset with cr0Ts := true }).ctl.cr0Ts = true) ∧
      (OsSseOk State.reset ∧ State.reset.fault = none ∧
        (next? (exec (.psllwXmmXmmm128 none 0#3 (.mem (.base 0#3 (.disp8 1#8)))) State.reset)).map State.fault =
          some (some ⟨.gp0, 0#64⟩)) := by decide

theorem witness_AvxOperatingSystemState :
    (familyOf (.vpsllwXmmXmmImm8 (.vex2 false 0#4) (.reg 0#3 1#8)) = .avx ∧
        familyOf (.vpsllwYmmYmmImm8 (.vex2 false 0#4) (.reg 0#3 1#8)) = .avx2 ∧
        immMemForm (.vpsllwXmmXmmImm8 (.vex2 false 0#4) (.reg 0#3 1#8)) = false ∧ featureSet State.reset .avx = true ∧
        featureSet State.reset .avx2 = true) ∧
      (withCtl { Control.reset with xcr0Avx := false }).ctl.xcr0Avx = false ∧
      ((withCtl { Control.reset with cr0Ts := true, cr0Em := true }).ctl.cr4Osxsave = true ∧
        (withCtl { Control.reset with cr0Ts := true, cr0Em := true }).ctl.cr0Ts = true) ∧
      (OsAvxOk (withCtl { Control.reset with cr0Em := true }) ∧
        (next? (exec (.vpsllwXmmXmmXmmm128 (.vex2 false 0#4) 0#3 (.mem (.base 0#3 .none)))
          (withCfg { resetParams with admitted := [⟨0, 15, none⟩] }))).map State.fault = some (some ⟨.memFault 0#64, 0#64⟩)) := by decide

theorem witness_ImmediateFormWithMemoryModRmRaisesUd :
    immMemForm (.psllqXmmImm8 none (.memForm 2#2 7#3)) = true ∧
      immMemForm (.vpsllqYmmYmmImm8 (.vex2 false 0#4) (.memForm 0#2 0#3)) = true := by decide

theorem witness_ImmediateFormWithMemoryModRmIsDecoded :
    (0x72#8 ∈ [0x71#8, 0x72#8, 0x73#8] ∧ bits76 0xB7#8 ≠ 3#2 ∧ bits53 0xB7#8 = 6#3) ∧
      (rexWf .mode64 (some ⟨true, false, true, true⟩) = true ∧ rexR (some ⟨true, false, true, true⟩) = false) ∧
      (Vex.wf .mode32 (.vex2 false 7#4) = true ∧ (Vex.vex2 false 7#4).rBit = false) := by decide

theorem witness_MisalignmentFaultsExactlyTheLegacyM128Forms :
    State.reset.fault = none ∧ familyOf (.psllqXmmXmmm128 none 0#3 (.mem (.base 0#3 (.disp8 15#8)))) = .sse2 ∧
      Sse2Ready State.reset ∧
      memOperandOf (.psllqXmmXmmm128 none 0#3 (.mem (.base 0#3 (.disp8 15#8)))) = some (.base 0#3 (.disp8 15#8)) ∧
      (operandAddr State.reset (.psllqXmmXmmm128 none 0#3 (.mem (.base 0#3 (.disp8 15#8)))) (.base 0#3 (.disp8 15#8))).toNat % 16 ≠
        0 := by decide

/-- Alignment checking on: `CR0.AM`, `EFLAGS.AC`, CPL 3. -/
def checked : State :=
  { State.reset with ctl := { Control.reset with cr0Am := true, cpl := 3#2 }, flags := 0x40000#64 }

theorem witness_AlignmentCheckConcernsMisalignedM64Alone :
    (State.reset.fault = none ∧ AlignCheckOff State.reset) ∧
      (familyOf (.psllqXmmImm8 none (.reg 0#3 0#8)) ≠ .mmx) ∧
      (checked.fault = none ∧ familyOf (.psllwMmMmm64 none 0#3 (.mem (.base 0#3 (.disp8 7#8)))) = .mmx ∧ MmxReady checked ∧
        ¬AlignCheckOff checked ∧
        memOperandOf (.psllwMmMmm64 none 0#3 (.mem (.base 0#3 (.disp8 7#8)))) = some (.base 0#3 (.disp8 7#8)) ∧
        operandAddr checked (.psllwMmMmm64 none 0#3 (.mem (.base 0#3 (.disp8 7#8)))) (.base 0#3 (.disp8 7#8)) = 7#64 ∧
        Readable checked 7#64 8 ∧ (7#64).toNat % 8 ≠ 0) := by decide

/-- The other side of the equivalence: with checking on, an aligned `m64` and a register count complete. -/
theorem test_alignment_check_aligned :
    faultAfter { checked with mem := Memory.writeBytes [] 0 [0x0F#8, 0xF1#8, 0x40#8, 0x08#8] } = some none ∧
      faultAfter { checked with mem := Memory.writeBytes [] 0 [0x0F#8, 0xF1#8, 0xC1#8] } = some none := by decide

/-- A cause present; none, with the last `pc` that fits; none, with the next `pc`. -/
theorem witness_FirstPresentCauseDecidesTheOutcome :
    firstCause (withCtl { Control.reset with cr0Ts := true }) (.psllwMmImm8 none (.reg 0#3 1#8)) = some .nm ∧
      (firstCause { State.reset with pc := 0xFFFFFFFFFFFFFFFB#64 } (.psllwMmImm8 none (.reg 0#3 1#8)) = none ∧
        Fits { State.reset with pc := 0xFFFFFFFFFFFFFFFB#64 } (.psllwMmImm8 none (.reg 0#3 1#8))) ∧
      (firstCause { State.reset with pc := 0xFFFFFFFFFFFFFFFC#64 } (.psllwMmImm8 none (.reg 0#3 1#8)) = none ∧
        ¬Fits { State.reset with pc := 0xFFFFFFFFFFFFFFFC#64 } (.psllwMmImm8 none (.reg 0#3 1#8))) := by decide

/-- A state whose step faults: `PSLLW mm0, [0]` in memory that holds no more than the instruction. -/
def faulting : State :=
  { boot [0x0F#8, 0xF1#8, 0x04#8, 0x25#8, 0x80#8] with cfg := { resetParams with admitted := [⟨0, 8, none⟩] } }

theorem witness_FaultOutcomeMeansThatFaultIsSet :
    (faultedWith State.reset .nm).fault.map Fault.faulted = some (.faulted ⟨.nm, 0#64⟩) := by decide

theorem witness_FaultsArePreciseAndTerminal :
    (∃ t r, step faulting = .next t ∧ t.fault = some r) ∧
      (faultedWith State.reset .ud).fault = some ⟨.ud, 0#64⟩ :=
  ⟨⟨faultedWith faulting (.memFault 0x80#64), ⟨.memFault 0x80#64, 0#64⟩, by rfl, by rfl⟩, rfl⟩

/-- The first and the last non-canonical byte of an operand, one for each family. -/
theorem witness_NonCanonicalOperandRaisesMemFault :
    (State.reset.cfg.mode = .mode64 ∧ MmxReady State.reset ∧ Sse2Ready State.reset ∧ AvxReady State.reset ∧
        Avx2Ready State.reset) ∧
      memOperandOf (.psllwMmMmm64 none 0#3 (.mem (.base 0#3 .none))) = some (.base 0#3 .none) ∧
      (operandAddr { State.reset with x := State.reset.x.set 0 0x7FFFFFFFFFF9#64 }
          (.psllwMmMmm64 none 0#3 (.mem (.base 0#3 .none))) (.base 0#3 .none) = 0x7FFFFFFFFFF9#64 ∧
        7 < operandBytes (.psllwMmMmm64 none 0#3 (.mem (.base 0#3 .none))) ∧ 2 ^ (48 - 1) ≤ 0x7FFFFFFFFFF9 + 7) ∧
      (0xFFFF7FFFFFFFFFF0 + 15 < 2 ^ 64 - 2 ^ (48 - 1) ∧ (0xFFFF7FFFFFFFFFF0#64).toNat % 16 = 0 ∧
        15 < operandBytes (.psllwXmmXmmm128 none 0#3 (.mem (.base 0#3 .none)))) := by decide

theorem witness_RegisterAndImmediateFormsAccessNoMemory :
    memOperandOf (.psllwMmMmm64 none 0#3 (.reg 0#3)) = none ∧
      memOperandOf (.vpsllqYmmYmmImm8 (.vex2 false 0#4) (.memForm 0#2 0#3)) = none ∧ State.reset.fault = none ∧
      (next? (exec (.vpsllqYmmYmmImm8 (.vex2 false 0#4) (.memForm 0#2 0#3)) State.reset)).map State.fault =
        some (some ⟨.ud, 0#64⟩) := by decide

/-- A completed MMX form and a completed VEX form. -/
theorem witness_FormsWriteNoMemoryFlagOrGeneralRegister :
    (∃ t, exec (.psllwMmImm8 none (.reg 0#3 1#8)) State.reset = .next t ∧ t.fault = none) ∧
      (∃ t, exec (.vpsllqYmmYmmImm8 (.vex2 false 0#4) (.reg 0#3 1#8)) State.reset = .next t ∧ t.fault = none) :=
  ⟨⟨_, rfl, rfl⟩, ⟨_, rfl, rfl⟩⟩

theorem witness_OnlyTheDestinationRegisterIsWritten :
    (∃ t, exec (.psllwMmImm8 none (.reg 7#3 1#8)) State.reset = .next t) ∧
      destMm (.psllwMmImm8 none (.reg 7#3 1#8)) ≠ some 6#3 ∧
      destYmm .mode64 (.vpsllqXmmXmmImm8 (.vex2 false 15#4) (.reg 0#3 1#8)) ≠ some 14#4 :=
  ⟨⟨_, rfl⟩, by decide, by decide⟩

/-- A VEX.128 form and an SSE2 form, with the counts 0 and one at the limit. -/
theorem witness_Vex128ZeroesTheUpperHalfAndSse2KeepsIt :
    (∃ t, exec (.vpsllwXmmXmmImm8 (.vex2 false 1#4) (.reg 1#3 0#8)) State.reset = .next t ∧ t.fault = none) ∧
      (∃ t, exec (.psllwXmmImm8 none (.reg 1#3 16#8)) State.reset = .next t ∧ t.fault = none) ∧
      (destYmm .mode64 (.vpsllwXmmXmmImm8 (.vex2 false 1#4) (.reg 1#3 0#8)) = some 1#4 ∧
        valueYmm .mode64 (.vpsllwXmmXmmImm8 (.vex2 false 1#4) (.reg 1#3 0#8)) = some 1#4 ∧
        countOf State.reset (.vpsllwXmmXmmImm8 (.vex2 false 1#4) (.reg 1#3 0#8)) = 0) ∧
      (destYmm .mode64 (.psllwXmmImm8 none (.reg 1#3 16#8)) = some 1#4 ∧
        valueYmm .mode64 (.psllwXmmImm8 none (.reg 1#3 16#8)) = some 1#4 ∧
        elementBits (.psllwXmmImm8 none (.reg 1#3 16#8)) ≤ countOf State.reset (.psllwXmmImm8 none (.reg 1#3 16#8))) :=
  ⟨⟨_, rfl, rfl⟩, ⟨_, rfl, rfl⟩, by decide, by decide⟩

theorem witness_UpperBitsOfTheCountRegisterHaveNoInfluence :
    countYmm .mode64 (.vpsllwXmmXmmXmmm128 (.vex2 false 2#4) 1#3 (.reg 3#3)) = some 3#4 ∧
      valueYmm .mode64 (.vpsllwXmmXmmXmmm128 (.vex2 false 2#4) 1#3 (.reg 3#3)) ≠ some 3#4 ∧
      destYmm .mode64 (.vpsllwXmmXmmXmmm128 (.vex2 false 2#4) 1#3 (.reg 3#3)) ≠ some 3#4 ∧
      (upper ++ 0#128 : BitVec 256).toNat % 2 ^ 64 = (State.reset.ymmReg 3#4).toNat % 2 ^ 64 := by decide

/-- Byte 8 differs, bytes 0 to 7 do not. -/
theorem witness_UpperBytesOfTheMemoryCountHaveNoInfluence :
    memOperandOf (.psllwXmmXmmm128 none 0#3 (.mem (.base 0#3 .none))) = some (.base 0#3 .none) ∧
      (∀ k < 8, Memory.read [(8, 1#8)] (0 + k) = State.reset.mem.read (0 + k)) ∧
      Memory.read [(8, 1#8)] 8 ≠ State.reset.mem.read 8 := by decide

theorem witness_FlagsAndMxcsrHaveNoInfluence :
    (~~~(0x40000#64)).getLsbD 18 = State.reset.flags.getLsbD 18 := by decide

/-- Register 8 differs in the vector file and in the general file; the program's first instruction completes. -/
def loaded32 : State := { reset32 with mem := Memory.writeBytes [] 0 [0x0F#8, 0xF1#8, 0xC1#8] }
def loaded32' : State := { loaded32 with ymm := loaded32.ymm.set 8 1#256, x := (loaded32.x.set 8 1#64).set 0 0x100000000#64 }

theorem witness_UnreachableRegistersOfMode32HaveNoInfluence :
    AgreeInMode32 loaded32 loaded32' ∧ loaded32 ≠ loaded32' ∧ (next? (step loaded32)).isSome = true := by decide

/-- One spelling that completes and one that faults, a `pc`-relative operand, and an immediate form. -/
theorem witness_BothVexPrefixesSpellTheSameInstruction :
    (State.reset.fault = none ∧ Statements.SameOperand .mode64 (.reg 7#3) (.reg 7#3) ∧
        Fits State.reset (.vpsllwYmmYmmXmmm128 (.vex3 true false false true 15#4) 7#3 (.reg 7#3)) ∧
        (next? (exec (.vpsllwYmmYmmXmmm128 (.vex2 true 15#4) 7#3 (.reg 7#3)) State.reset)).map State.fault = some none) ∧
      ((withCfg { resetParams with hasAvx := false }).fault = none ∧
        Fits (withCfg { resetParams with hasAvx := false }) (.vpsllqXmmXmmImm8 (.vex3 false false false true 15#4) (.reg 7#3 1#8)) ∧
        (next? (exec (.vpsllqXmmXmmImm8 (.vex2 false 15#4) (.reg 7#3 1#8))
          (withCfg { resetParams with hasAvx := false }))).map State.fault = some (some ⟨.ud, 0#64⟩)) ∧
      Statements.SameOperand .mode64 (.mem (.dispOnly 0#32)) (.mem (.dispOnly 0xFFFFFFFF#32)) ∧
      Statements.SameOperand .mode32 (.mem (.dispOnly 0#32)) (.mem (.dispOnly 0#32)) ∧
      Fits reset32 (.vpsllwXmmXmmXmmm128 (.vex3 false false false true 7#4) 7#3 (.mem (.dispOnly 0#32))) :=
  ⟨⟨by decide, .inl ⟨rfl, .inr fun _ h => by cases h⟩, by decide, by decide⟩, by decide,
    .inr ⟨rfl, _, _, rfl, rfl, by decide⟩, .inl ⟨rfl, .inl rfl⟩, by decide⟩

/-- The last readable operand below the first non-canonical address. -/
theorem witness_MemoryAndDisplacementsAreLittleEndian :
    (∃ v, memRead State.reset 0x7FFFFFFFFFF0#64 16 = .ok v) ∧ (∃ c, countM128 State.reset 0x7FFFFFFFFFF0#64 = .ok c) ∧
      (∃ c, countMm State.reset ⟨false, false, false⟩ 3 (.mem (.base 0#3 .none)) = .ok c) :=
  ⟨⟨_, rfl⟩, ⟨_, rfl⟩, ⟨_, rfl⟩⟩

theorem witness_EveryStepKeepsTheInvariant : Inv (boot [0x0F#8, 0xF1#8, 0xC1#8]) ∧
    (next? (step (boot [0x0F#8, 0xF1#8, 0xC1#8]))).isSome = true := by decide

theorem witness_RunsKeepLaunchValues : ∃ t, Sys2Proof.core.run 1 (boot [0x0F#8, 0xF1#8, 0xC1#8]) = .next t :=
  ⟨_, rfl⟩

theorem witness_RunsOnlyAdvancePc :
    ∃ t, Sys2Proof.core.run 1 (boot [0x0F#8, 0xF1#8, 0xC1#8]) = .next t ∧ t.fault = none :=
  ⟨_, rfl, rfl⟩

theorem witness_StepRunsTheDecodedInstruction :
    (boot [0x0F#8, 0xF1#8, 0xC1#8]).fault = none ∧
      (boot [0x0F#8, 0xF1#8, 0xC1#8]).cfg.endAt ≠ some (boot [0x0F#8, 0xF1#8, 0xC1#8]).pc ∧
      WellFormed .mode64 (.psllwMmMmm64 none 0#3 (.reg 1#3)) = true ∧
      decode .mode64 (fetchWindow (boot [0x0F#8, 0xF1#8, 0xC1#8])) =
        .ok (.psllwMmMmm64 none 0#3 (.reg 1#3), List.replicate 7 0#8) := by decide

/-- The instruction is the last thing that is admitted. -/
theorem witness_StepRunsTheInstructionWhoseEncodingStandsAtPc :
    ∀ (k : Nat) (hk : k < (encode (.psllwMmMmm64 none 0#3 (.reg 1#3))).length),
      k < 2 ^ addrWidth .mode64 ∧ admitsByte { resetParams with admitted := [⟨0, 3, some 1⟩] } k = true ∧
        (boot [0x0F#8, 0xF1#8, 0xC1#8]).mem.read k = (encode (.psllwMmMmm64 none 0#3 (.reg 1#3)))[k] := by decide

/-- Neither any byte nor the third one of `0F F1 C1` admitted; and the last two bytes of the address space, admitted. -/
theorem witness_FetchFromUnadmittedMemoryFaults :
    (State.reset.fault = none ∧ State.reset.cfg.endAt ≠ some 0x800000000000#64 ∧ decode .mode64 [] = .error .truncated ∧
        (0x800000000000#64).toNat + 0 < 2 ^ addrWidth .mode64 ∧ admitsByte State.reset.cfg (0x800000000000 + 0) = false) ∧
      (decode .mode64 [0x0F#8, 0xF1#8] = .error .truncated ∧
        (∀ k < 2, admitsByte { resetParams with admitted := [⟨0, 2, none⟩] } k = true) ∧
        admitsByte { resetParams with admitted := [⟨0, 2, none⟩] } 2 = false ∧
        ∀ (k : Nat) (hk : k < 2), (boot [0x0F#8, 0xF1#8, 0xC1#8]).mem.read k = [0x0F#8, 0xF1#8][k]) ∧
      ((∀ k < 2, 0xFFFFFFFFFFFFFFFE + k < 2 ^ addrWidth .mode64 ∧
          admitsByte State.reset.cfg (0xFFFFFFFFFFFFFFFE + k) = true) ∧
        2 ^ addrWidth .mode64 ≤ (0xFFFFFFFFFFFFFFFE#64).toNat + 2) := by decide

theorem witness_RunIsOverAtEnd : Final (withCfg { resetParams with endAt := some 0#64 }) := by decide

theorem witness_RefusedBytesGiveNoStep :
    State.reset.fault = none ∧ State.reset.cfg.endAt ≠ some State.reset.pc ∧
      decode State.reset.cfg.mode (fetchWindow State.reset) = .error (.notEscape 0#8) ∧
      DecodeRefusal.notEscape 0#8 ≠ .truncated := by decide

theorem witness_LoadedTableWordRunsNext :
    24 ≤ 80 ∧ decodeTableWord 24 0x0F71F0 = some (.psllwMmImm8 none (.reg 0#3 0#8)) := by decide

/-- The longest encoding cut after nothing and before its last byte. -/
theorem witness_EncodingsCutShortAreTruncated :
    WellFormed .mode64 (.vpsllwYmmYmmXmmm128 (.vex3 true true true true 15#4) 7#3 (.mem (.sib 3#2 7#3 7#3 (.disp32 1#32)))) = true ∧
      0 < (encode (.vpsllwYmmYmmXmmm128 (.vex3 true true true true 15#4) 7#3 (.mem (.sib 3#2 7#3 7#3 (.disp32 1#32))))).length ∧
      9 < (encode (.vpsllwYmmYmmXmmm128 (.vex3 true true true true 15#4) 7#3 (.mem (.sib 3#2 7#3 7#3 (.disp32 1#32))))).length := by
  decide

end Sys2Proof.Tests
end

/-! # What an instruction does, by the columns of the opcode table

The dispatch has 24 arms. Read through the columns of `Sys2Proof/Safety.lean` (family, operands, element width), they
are one skeleton: `exec_eq_runForm`. What holds of every form is proved from that one equation, without the 24 arms. -/

namespace Sys2Proof.Proofs

open Machine Safety

/-- The exception that the operating-system state gives a form of a family (`60_exceptions.md` R132 to R134). -/
def osCheck (s : State) : Family → Option Exc
  | .mmx => osMmx s
  | .sse2 => osSse s
  | .avx => osAvx s
  | .avx2 => osAvx s

/-- The checks of an instruction before its operands are read: `mod` of an immediate form, then the feature flag, then the
operating-system state (`60_exceptions.md` R141). -/
def instrCheck (i : Instr) (s : State) : Option Exc :=
  if immMemForm i then some .ud else formCheck (featureSet s (familyOf i)) (osCheck s (familyOf i))

/-- The count of an instruction (`40_shift_functions.md` R80). -/
def instrCount (i : Instr) (s : State) : Except Exc Quad :=
  match familyOf i, tailOf i with
  | .mmx, .rm _ rm => countMm s (extOf s.cfg.mode i) i.length rm
  | .sse2, .rm _ rm => countSse s (extOf s.cfg.mode i) i.length rm
  | .avx, .rm _ rm => countVex s (extOf s.cfg.mode i) i.length rm
  | .avx2, .rm _ rm => countVex s (extOf s.cfg.mode i) i.length rm
  | _, .imm (.reg _ imm8) => .ok (countImm imm8)
  | _, .imm (.memForm _ _) => .error .ud

/-- The one write of an instruction: its destination, by its family. -/
def instrWrite (i : Instr) (s : State) (count : Quad) : State :=
  match familyOf i, destMm i, destYmm s.cfg.mode i, valueYmm s.cfg.mode i with
  | .mmx, some d, _, _ => s.setMm d (sll (elementBits i) (s.mmReg d) count.toNat)
  | .sse2, _, some d, some v => s.setXmmKeep d (sll (elementBits i) (s.xmmReg v) count.toNat)
  | .avx, _, some d, some v => s.setXmmZero d (sll (elementBits i) (s.xmmReg v) count.toNat)
  | .avx2, _, some d, some v => s.setYmm d (sll (elementBits i) (s.ymmReg v) count.toNat)
  | _, _, _, _ => s

/-- Every instruction is the skeleton, with the check, the count and the write that the opcode table gives it. -/
theorem exec_eq_runForm (i : Instr) (s : State) :
    exec i s = runForm s (instrCheck i s) (instrCount i s) (instrWrite i s) i.length := by
  cases i with
  | psllwMmMmm64 | psllwXmmXmmm128 | pslldMmMmm64 | pslldXmmXmmm128 | psllqMmMmm64 | psllqXmmXmmm128
  | vpsllwXmmXmmXmmm128 | vpslldXmmXmmXmmm128 | vpsllqXmmXmmXmmm128
  | vpsllwYmmYmmXmmm128 | vpslldYmmYmmXmmm128 | vpsllqYmmYmmXmmm128 => rfl
  | psllwMmImm8 _ rm | psllwXmmImm8 _ rm | pslldMmImm8 _ rm | pslldXmmImm8 _ rm | psllqMmImm8 _ rm | psllqXmmImm8 _ rm
  | vpsllwXmmXmmImm8 _ rm | vpslldXmmXmmImm8 _ rm | vpsllqXmmXmmImm8 _ rm
  | vpsllwYmmYmmImm8 _ rm | vpslldYmmYmmImm8 _ rm | vpsllqYmmYmmImm8 _ rm => cases rm <;> rfl

/-- What a next state of an instruction is: its exception, or its write with `pc` advanced. -/
theorem exec_next_instrWrite {i : Instr} {s t : State} (h : exec i s = .next t) :
    (∃ e, t = faultedWith s e) ∨
      ∃ c, instrCount i s = .ok c ∧
        t = { instrWrite i s c with pc := (instrWrite i s c).pc + BitVec.ofNat 64 i.length } := by
  rw [exec_eq_runForm] at h
  rcases runForm_cases s (instrCheck i s) (instrCount i s) (instrWrite i s) i.length with
    ⟨e, -, he⟩ | ⟨e, -, -, he⟩ | ⟨c, -, hc, he⟩
  · rw [he] at h; cases h; exact .inl ⟨e, rfl⟩
  · rw [he] at h; cases h; exact .inl ⟨e, rfl⟩
  · obtain ⟨-, ht⟩ := advance_next (he ▸ h)
    exact .inr ⟨c, hc, ht⟩

/-! ## The one write -/

/-- An MMX register other than the destination is not written. -/
theorem mmReg_instrWrite {i : Instr} {r : BitVec 3} (h : destMm i ≠ some r) (s : State) (c : Quad) :
    (instrWrite i s c).mmReg r = s.mmReg r := by
  unfold instrWrite
  split
  next d _ _ _ hd => exact State.mmReg_setMm_ne s (fun e => h (hd.trans (congrArg some e))) _
  all_goals rfl

/-- A vector register other than the destination is not written. -/
theorem ymmReg_instrWrite {i : Instr} {s : State} {r : BitVec 4} (h : destYmm s.cfg.mode i ≠ some r) (c : Quad) :
    (instrWrite i s c).ymmReg r = s.ymmReg r := by
  have other {d : BitVec 4} (hd : destYmm s.cfg.mode i = some d) : d ≠ r := fun e => h (hd.trans (congrArg some e))
  unfold instrWrite
  split
  next => rfl
  next hd _ => rw [State.ymmReg_setXmmKeep, if_neg (other hd)]
  next hd _ => rw [State.ymmReg_setXmmZero, if_neg (other hd)]
  next hd _ => exact State.ymmReg_setYmm_ne s (other hd) _
  next => rfl

/-- Settles O41, from the one write of an instruction. -/
theorem onlyTheDestinationRegisterIsWritten : Obligations.OnlyTheDestinationRegisterIsWritten := by
  intro s t i h
  rcases exec_next_instrWrite h with ⟨e, rfl⟩ | ⟨c, -, rfl⟩
  · exact ⟨fun _ _ => rfl, fun _ _ => rfl⟩
  · exact ⟨fun r hr => mmReg_instrWrite hr s c, fun r hr => ymmReg_instrWrite hr c⟩

/-! ## What the forms leave unchanged -/

/-- Settles O40: an exception changes the fault record, and a completed form the register files and `pc`. -/
theorem formsWriteNoMemoryFlagOrGeneralRegister : Obligations.FormsWriteNoMemoryFlagOrGeneralRegister := by
  intro s t i h
  rcases exec_next h with ⟨e, rfl⟩ | ⟨-, mm, ymm, rfl⟩
  · exact ⟨rfl, rfl, rfl, rfl, rfl, fun _ => rfl⟩
  · exact ⟨rfl, rfl, rfl, rfl, rfl, fun _ => rfl⟩

/-! ## The step -/

theorem step_of_fault {s : State} {r : FaultRecord} (h : s.fault = some r) : step s = .fault (.faulted r) := by
  simp [step, h]

theorem step_of_end {s : State} (hf : s.fault = none) (he : s.cfg.endAt = some s.pc) : step s = .refused .runOver := by
  simp [step, hf, he]

/-- What a step answers to a fetch. -/
def afterFetch (s : State) : Fetched → Result
  | .instr i => exec i s
  | .notAdmitted => raiseExc (.memFault s.pc) s
  | .pastTop => .refused .pcPastTop
  | .refused why => .refused (.undecodable why)

/-- A step without a set fault and before the end of the run is what the fetch says. -/
theorem step_of_fetch {s : State} (hf : s.fault = none) (he : s.cfg.endAt ≠ some s.pc) :
    step s = afterFetch s (fetch s) := by
  cases hfetch : fetch s <;> simp [step, hf, he, hfetch, afterFetch]

/-- Everything a step can do: stop in the state whose fault is set, refuse, take an exception of the fetch, or execute. -/
theorem step_cases (s : State) :
    (∃ r, s.fault = some r ∧ step s = .fault (.faulted r)) ∨
      s.fault = none ∧
        ((∃ r, step s = .refused r) ∨ (∃ e, step s = raiseExc e s) ∨ ∃ i, fetch s = .instr i ∧ step s = exec i s) := by
  cases hf : s.fault with
  | some r => exact .inl ⟨r, rfl, step_of_fault hf⟩
  | none =>
    refine .inr ⟨rfl, ?_⟩
    by_cases he : s.cfg.endAt = some s.pc
    · exact .inl ⟨_, step_of_end hf he⟩
    · rw [step_of_fetch hf he]
      cases fetch s with
      | instr i => exact .inr (.inr ⟨i, rfl, rfl⟩)
      | notAdmitted => exact .inr (.inl ⟨_, rfl⟩)
      | pastTop => exact .inl ⟨_, rfl⟩
      | refused why => exact .inl ⟨_, rfl⟩

/-- A next state comes from a state without a set fault, by an exception of the fetch or by the fetched instruction. -/
theorem step_next {s t : State} (h : step s = .next t) :
    s.fault = none ∧ ((∃ e, t = faultedWith s e) ∨ ∃ i, fetch s = .instr i ∧ exec i s = .next t) := by
  rcases step_cases s with ⟨r, -, hs⟩ | ⟨hf, ⟨r, hs⟩ | ⟨e, hs⟩ | ⟨i, hi, hs⟩⟩ <;> rw [hs] at h
  · cases h
  · cases h
  · cases h; exact ⟨hf, .inl ⟨e, rfl⟩⟩
  · exact ⟨hf, .inr ⟨i, hi, h⟩⟩

/-- The same, with what an instruction can do: an exception, or new register files and an advanced `pc`. -/
theorem step_next_fields {s t : State} (h : step s = .next t) :
    s.fault = none ∧ ((∃ e, t = faultedWith s e) ∨
      ∃ len mm ymm, s.pc.toNat + len ≤ 2 ^ addrWidth s.cfg.mode - 1 ∧
        t = { s with mm := mm, ymm := ymm, pc := s.pc + BitVec.ofNat 64 len }) := by
  obtain ⟨hf, ht | ⟨i, -, hi⟩⟩ := step_next h
  · exact ⟨hf, .inl ht⟩
  · rcases exec_next hi with ht | ⟨hp, mm, ymm, ht⟩
    · exact ⟨hf, .inl ht⟩
    · exact ⟨hf, .inr ⟨i.length, mm, ymm, hp, ht⟩⟩

/-- Settles O37, by the cases of the step: neither the fetch nor an instruction stops with a fault. -/
theorem faultOutcomeMeansThatFaultIsSet : Obligations.FaultOutcomeMeansThatFaultIsSet := by
  intro s f
  rcases step_cases s with ⟨r, hf, hs⟩ | ⟨hf, ⟨r, hs⟩ | ⟨e, hs⟩ | ⟨i, -, hs⟩⟩
  · simp [hs, hf]
  · simp [hs, hf]
  · simp [hs, hf, raiseExc]
  · simp [hs, hf, exec_ne_fault]

/-! ## The invariant -/

/-- Taking an exception keeps the invariant: the record names the `pc` of the state. -/
theorem inv_faultedWith {s : State} (h : Inv s) (e : Exc) : Inv (faultedWith s e) := by
  obtain ⟨hwf, hmem, hpc, -⟩ := h
  exact ⟨hwf, hmem, hpc, .inr rfl⟩

theorem addrWidth_le (m : Mode) : 2 ^ addrWidth m ≤ 2 ^ 64 := by
  cases m <;> decide

/-- An advance that stays in the address space does not wrap. -/
theorem toNat_pc_add {s : State} {len : Nat} (h : s.pc.toNat + len ≤ 2 ^ addrWidth s.cfg.mode - 1) :
    (s.pc + BitVec.ofNat 64 len).toNat = s.pc.toNat + len := by
  have := addrWidth_le s.cfg.mode
  have := Nat.two_pow_pos (addrWidth s.cfg.mode)
  rw [BitVec.toNat_add, BitVec.toNat_ofNat, Nat.add_mod_mod, Nat.mod_eq_of_lt (by omega)]

/-- New register files and an advance in the address space keep the invariant of a state without a set fault. -/
theorem inv_advanced {s : State} (h : Inv s) (hf : s.fault = none) {len : Nat}
    (hp : s.pc.toNat + len ≤ 2 ^ addrWidth s.cfg.mode - 1) (mm : Vector Quad 8) (ymm : Vector Vec 16) :
    Inv { s with mm := mm, ymm := ymm, pc := s.pc + BitVec.ofNat 64 len } := by
  obtain ⟨hwf, hmem, -, -⟩ := h
  have := Nat.two_pow_pos (addrWidth s.cfg.mode)
  refine ⟨hwf, hmem, ?_, .inl hf⟩
  rw [toNat_pc_add hp]
  exact (by omega : s.pc.toNat + len < 2 ^ addrWidth s.cfg.mode)

/-- Settles O49, by the cases of the step. -/
theorem everyStepKeepsTheInvariant : Obligations.EveryStepKeepsTheInvariant := by
  intro s t hinv h
  obtain ⟨hf, ⟨e, rfl⟩ | ⟨len, mm, ymm, hp, rfl⟩⟩ := step_next_fields h
  · exact inv_faultedWith hinv e
  · exact inv_advanced hinv hf hp mm ymm

/-- Settles O50: memory is empty, `pc` is 0 and no fault is set. -/
theorem resetSatisfiesTheInvariant : Obligations.ResetSatisfiesTheInvariant :=
  ⟨State.reset_mem_wf, fun c hc => absurd hc List.not_mem_nil, by decide, .inl rfl⟩

/-! ## Parts of the state that have no influence

A change `f` of the state that the skeleton does not look at commutes with an instruction, provided the instruction finds the
same count and its write commutes with `f`. -/

/-- `f` leaves alone what the checks, an exception and the advance read, and commutes with what the last two write. -/
structure Passive (f : State → State) : Prop where
  cfg : ∀ s, (f s).cfg = s.cfg
  ctl : ∀ s, (f s).ctl = s.ctl
  pc : ∀ s, (f s).pc = s.pc
  setPc : ∀ s p, f { s with pc := p } = { f s with pc := p }
  setFault : ∀ s r, f { s with fault := r } = { f s with fault := r }

section Passive

variable {f : State → State} (hf : Passive f)

include hf

theorem Passive.raiseExc_map (e : Exc) (s : State) : raiseExc e (f s) = mapNext f (raiseExc e s) :=
  calc raiseExc e (f s)
      = .next { f s with fault := some ⟨e, (f s).pc⟩ } := rfl
    _ = .next { f s with fault := some ⟨e, s.pc⟩ } := by rw [hf.pc]
    _ = mapNext f (raiseExc e s) := congrArg Host.Outcome.next (hf.setFault s _).symm

theorem Passive.advance_map (s : State) (len : Nat) : advance (f s) len = mapNext f (advance s len) := by
  by_cases hp : s.pc.toNat + len ≤ 2 ^ addrWidth s.cfg.mode - 1
  · rw [advance_of_fits hp, advance_of_fits (by rwa [hf.pc, hf.cfg])]
    calc Host.Outcome.next { f s with pc := (f s).pc + BitVec.ofNat 64 len }
        = .next { f s with pc := s.pc + BitVec.ofNat 64 len } := by rw [hf.pc]
      _ = mapNext f (.next { s with pc := s.pc + BitVec.ofNat 64 len }) :=
        congrArg Host.Outcome.next (hf.setPc s _).symm
  · rw [advance_refused (Nat.lt_of_not_le hp), advance_refused (by rw [hf.pc, hf.cfg]; omega)]
    rfl

theorem Passive.instrCheck_eq (i : Instr) (s : State) : instrCheck i (f s) = instrCheck i s := by
  unfold instrCheck
  cases familyOf i <;> simp only [featureSet, osCheck, osMmx, osSse, osAvx, hf.cfg, hf.ctl]

/-- An instruction commutes with a passive change that keeps its count and commutes with its write. -/
theorem Passive.exec_map {i : Instr} {s : State} (hcount : instrCount i (f s) = instrCount i s)
    (hwrite : ∀ c, instrWrite i (f s) c = f (instrWrite i s c)) : exec i (f s) = mapNext f (exec i s) := by
  rw [exec_eq_runForm, exec_eq_runForm, hf.instrCheck_eq, hcount]
  cases instrCheck i s with
  | some e => exact hf.raiseExc_map e s
  | none =>
    cases instrCount i s with
    | error e => exact hf.raiseExc_map e s
    | ok c => rw [runForm_ok, runForm_ok, hwrite, hf.advance_map]

end Passive

/-- The address of a memory operand depends on the parameters, `pc` and the registers that form it. -/
theorem effAddr_congr {s t : State} {ext : ExtBits} (hcfg : t.cfg = s.cfg) (hpc : t.pc = s.pc)
    (hb : ∀ n, t.xReg (regNum ext.b n) = s.xReg (regNum ext.b n))
    (hx : ∀ n, t.xReg (regNum ext.x n) = s.xReg (regNum ext.x n)) (len : Nat) (m : MemOperand) :
    effAddr t ext len m = effAddr s ext len m := by
  have hindex (scale : BitVec 2) (index : BitVec 3) : indexValue t ext scale index = indexValue s ext scale index := by
    simp only [indexValue, hcfg, hx]
  cases m with
  | base rm d => simp only [effAddr, hcfg, hb]
  | dispOnly d => simp only [effAddr, hcfg, hpc]
  | sib scale index sb d => simp only [effAddr, hcfg, hb, hindex]
  | sibNoBase scale index d => simp only [effAddr, hcfg, hindex]

theorem memRead_congr {s t : State} (hcfg : t.cfg = s.cfg) (hmem : t.mem = s.mem) (a : Quad) (n : Nat) :
    memRead t a n = memRead s a n := by
  simp only [memRead, hcfg, hmem]

/-- The count depends on the parameters, `pc`, memory, the MMX registers, alignment checking, the registers that form the
address and the low quadword of the count register. -/
theorem instrCount_congr {i : Instr} {s t : State} (hcfg : t.cfg = s.cfg) (hpc : t.pc = s.pc) (hmem : t.mem = s.mem)
    (hmm : t.mm = s.mm) (hac : alignCheckOn t = alignCheckOn s)
    (hb : ∀ n, t.xReg (regNum (extOf s.cfg.mode i).b n) = s.xReg (regNum (extOf s.cfg.mode i).b n))
    (hx : ∀ n, t.xReg (regNum (extOf s.cfg.mode i).x n) = s.xReg (regNum (extOf s.cfg.mode i).x n))
    (hc : ∀ n, countXmmReg t (regNum (extOf s.cfg.mode i).b n) = countXmmReg s (regNum (extOf s.cfg.mode i).b n)) :
    instrCount i t = instrCount i s := by
  have haddr (m : MemOperand) := effAddr_congr hcfg hpc hb hx i.length m
  have hread := memRead_congr hcfg hmem
  unfold instrCount
  rw [hcfg]
  split
  next rm _ _ => cases rm <;> simp only [countMm, State.mmReg, hmm, haddr, hread, hac]
  next rm _ _ => cases rm <;> simp only [countSse, countM128, hc, haddr, hread]
  next rm _ _ => cases rm <;> simp only [countVex, countM128, hc, haddr, hread]
  next rm _ _ => cases rm <;> simp only [countVex, countM128, hc, haddr, hread]
  next => rfl
  next => rfl

/-- The write commutes with a change that keeps the registers it reads and commutes with the register writes. -/
theorem instrWrite_map {f : State → State} {i : Instr} {s : State} (hcfg : (f s).cfg = s.cfg) (hmm : (f s).mm = s.mm)
    (hsetMm : ∀ d v, f (s.setMm d v) = (f s).setMm d v)
    (hsetYmm : ∀ d, destYmm s.cfg.mode i = some d → ∀ v, f (s.setYmm d v) = (f s).setYmm d v)
    (hdest : ∀ d, destYmm s.cfg.mode i = some d → (f s).ymmReg d = s.ymmReg d)
    (hvalue : ∀ v, valueYmm s.cfg.mode i = some v → (f s).ymmReg v = s.ymmReg v) (c : Quad) :
    instrWrite i (f s) c = f (instrWrite i s c) := by
  unfold instrWrite
  rw [hcfg]
  split
  next => simp only [hsetMm, State.mmReg, hmm]
  next hd hv =>
    simp only [State.setXmmKeep, State.xmmReg, hsetYmm _ hd, hdest _ hd, hvalue _ hv]
  next hd hv => simp only [State.setXmmZero, State.xmmReg, hsetYmm _ hd, hvalue _ hv]
  next hd hv => simp only [hsetYmm _ hd, hvalue _ hv]
  next => rfl

/-! ## The flags and `MXCSR` -/

/-- The state with other values of the flags and `MXCSR`. -/
def withFlags (flags : Quad) (mxcsr : BitVec 32) (s : State) : State := { s with flags := flags, mxcsr := mxcsr }

theorem passive_withFlags (flags : Quad) (mxcsr : BitVec 32) : Passive (withFlags flags mxcsr) where
  cfg _ := rfl
  ctl _ := rfl
  pc _ := rfl
  setPc _ _ := rfl
  setFault _ _ := rfl

/-- Of the flags, alignment checking reads `EFLAGS.AC` alone. -/
theorem alignCheckOn_withFlags {s : State} {flags : Quad} (h : flags.getLsbD 18 = s.flags.getLsbD 18)
    (mxcsr : BitVec 32) : alignCheckOn (withFlags flags mxcsr s) = alignCheckOn s := by
  simp only [alignCheckOn, acFlag, withFlags, h]

/-- Settles O45: the change is passive, and of what it changes the count reads `EFLAGS.AC` alone. -/
theorem flagsAndMxcsrHaveNoInfluence : Obligations.FlagsAndMxcsrHaveNoInfluence := by
  intro s i flags mxcsr hac
  refine (passive_withFlags flags mxcsr).exec_map (i := i) (s := s) ?_ fun c => ?_
  · exact instrCount_congr rfl rfl rfl rfl (alignCheckOn_withFlags hac mxcsr) (fun _ => rfl) (fun _ => rfl) fun _ => rfl
  · exact instrWrite_map rfl rfl (fun _ _ => rfl) (fun _ _ _ => rfl) (fun _ _ => rfl) (fun _ _ => rfl) c

/-! ## What mode32 cannot reach -/

/-- In mode32 no extension bit is set (`30_encoding.md` R57). -/
theorem extOf_mode32 (i : Instr) : extOf .mode32 i = ⟨false, false, false⟩ := by
  unfold extOf
  cases prefixOf i <;> rfl

theorem regNum_false_lt (n : BitVec 3) : (regNum false n).toNat < 8 := by
  revert n; decide

theorem vvvvNum_mode32_lt (vex : Vex) : (vvvvNum .mode32 vex).toNat < 8 := by
  have := ((vexVvvvField vex).setWidth 3).isLt
  simp only [vvvvNum, BitVec.toNat_setWidth] at *
  omega

/-- In mode32 the destination is one of `YMM[0..7]`. -/
theorem destYmm_mode32_lt {i : Instr} {d : BitVec 4} (h : destYmm .mode32 i = some d) : d.toNat < 8 := by
  simp only [destYmm, extOf_mode32] at h
  split at h <;> cases h
  · exact regNum_false_lt _
  · exact regNum_false_lt _
  · exact vvvvNum_mode32_lt _

/-- In mode32 the value shifted is one of `YMM[0..7]`. -/
theorem valueYmm_mode32_lt {i : Instr} {v : BitVec 4} (h : valueYmm .mode32 i = some v) : v.toNat < 8 := by
  simp only [valueYmm, extOf_mode32] at h
  split at h
  · cases h
  · exact destYmm_mode32_lt h
  · cases h; exact vvvvNum_mode32_lt _
  · cases h; exact regNum_false_lt _
  · cases h

/-- The vector registers 0 to 7 of `low` and 8 to 15 of `high`. Irreducible, so that comparing two states does not compute
the registers one by one. -/
@[irreducible] def mixYmm (low high : Vector Vec 16) : Vector Vec 16 :=
  Vector.ofFn fun k => if k.val < 8 then low[k] else high[k]

theorem getElem_mixYmm (low high : Vector Vec 16) {k : Nat} (hk : k < 16) :
    (mixYmm low high)[k] = if k < 8 then low[k] else high[k] := by
  simp [mixYmm]

/-- `u` with `YMM[8..15]` and the general registers of `t`. -/
def withHighOf (t u : State) : State := { u with ymm := mixYmm u.ymm t.ymm, x := t.x }

theorem ymmReg_withHighOf (t u : State) (i : BitVec 4) :
    (withHighOf t u).ymmReg i = if i.toNat < 8 then u.ymmReg i else t.ymmReg i :=
  getElem_mixYmm u.ymm t.ymm i.isLt

theorem passive_withHighOf (t : State) : Passive (withHighOf t) where
  cfg _ := rfl
  ctl _ := rfl
  pc _ := rfl
  setPc _ _ := rfl
  setFault _ _ := rfl

/-- Two vector register files that read the same are the same. -/
theorem ymm_eq_of_ymmReg {s t : State} (h : ∀ i, s.ymmReg i = t.ymmReg i) : s.ymm = t.ymm := by
  apply Vector.ext
  intro k hk
  simpa [State.ymmReg, Nat.mod_eq_of_lt hk] using h (BitVec.ofNat 4 k)

theorem withHighOf_setYmm (t u : State) {d : BitVec 4} (hd : d.toNat < 8) (v : Vec) :
    withHighOf t (u.setYmm d v) = (withHighOf t u).setYmm d v := by
  have hymm : (withHighOf t (u.setYmm d v)).ymm = ((withHighOf t u).setYmm d v).ymm := by
    refine ymm_eq_of_ymmReg fun i => ?_
    simp only [ymmReg_withHighOf, State.ymmReg_setYmm]
    by_cases h : d = i
    · simp [← h, hd]
    · simp [h]
  calc withHighOf t (u.setYmm d v)
      = { (withHighOf t u).setYmm d v with ymm := (withHighOf t (u.setYmm d v)).ymm } := rfl
    _ = (withHighOf t u).setYmm d v := by rw [hymm]

/-- A state that agrees with `s` in mode32 is `s` with that state's own unreachable registers. -/
theorem withHighOf_of_agree {s t : State} (h : AgreeInMode32 s t) : withHighOf t s = t := by
  obtain ⟨-, ht, hymm, -⟩ := h
  have hfile : (withHighOf t s).ymm = t.ymm := by
    refine ymm_eq_of_ymmReg fun i => ?_
    rw [ymmReg_withHighOf]
    split
    next hi => exact (hymm i hi).symm
    next => rfl
  calc withHighOf t s
      = { s with ymm := (withHighOf t s).ymm, x := t.x } := rfl
    _ = { s with ymm := t.ymm, x := t.x } := by rw [hfile]
    _ = t := ht.symm

/-- The fetch reads the parameters, `pc` and memory alone. -/
theorem fetch_congr {s t : State} (hcfg : t.cfg = s.cfg) (hpc : t.pc = s.pc) (hmem : t.mem = s.mem) :
    fetch t = fetch s := by
  have hbytes (n a : Nat) : fetchBytes t a n = fetchBytes s a n := by
    induction n generalizing a with
    | zero => rfl
    | succ n ih => simp only [fetchBytes, hcfg, hmem, ih]
  have hwindow : fetchWindow t = fetchWindow s := by simp only [fetchWindow, hpc, hbytes]
  unfold fetch
  rw [hcfg, hpc, hwindow]

section Mode32

variable {s t : State} (hmode : s.cfg.mode = .mode32)
  (hx : ∀ i : BitVec 4, i.toNat < 8 → (withHighOf t s).xReg i = s.xReg i)

include hmode hx

/-- In mode32 an instruction commutes with a change of the unreachable registers. -/
theorem exec_withHighOf (i : Instr) : exec i (withHighOf t s) = mapNext (withHighOf t) (exec i s) := by
  have hreach (r : BitVec 4) (h : r.toNat < 8) : (withHighOf t s).ymmReg r = s.ymmReg r := by
    rw [ymmReg_withHighOf, if_pos h]
  refine (passive_withHighOf t).exec_map ?_ (instrWrite_map rfl rfl (fun _ _ => rfl) ?_ ?_ ?_)
  · refine instrCount_congr rfl rfl rfl rfl rfl ?_ ?_ ?_ <;> intro n <;> rw [hmode, extOf_mode32]
    · exact hx _ (regNum_false_lt n)
    · exact hx _ (regNum_false_lt n)
    · rw [countXmmReg_eq, countXmmReg_eq, hreach _ (regNum_false_lt n)]
  · exact fun d hd v => withHighOf_setYmm t s (destYmm_mode32_lt (hmode ▸ hd)) v
  · exact fun d hd => hreach d (destYmm_mode32_lt (hmode ▸ hd))
  · exact fun v hv => hreach v (valueYmm_mode32_lt (hmode ▸ hv))

/-- The commuting diagram of the step in mode32. -/
theorem step_withHighOf : step (withHighOf t s) = mapNext (withHighOf t) (step s) := by
  cases hf : s.fault with
  | some r => rw [step_of_fault hf, step_of_fault (s := withHighOf t s) hf]; rfl
  | none =>
    by_cases he : s.cfg.endAt = some s.pc
    · rw [step_of_end hf he, step_of_end (s := withHighOf t s) hf he]; rfl
    · rw [step_of_fetch hf he, step_of_fetch (s := withHighOf t s) hf he,
        fetch_congr (s := s) (t := withHighOf t s) rfl rfl rfl]
      cases fetch s with
      | instr i => exact exec_withHighOf hmode hx i
      | notAdmitted => exact (passive_withHighOf t).raiseExc_map _ s
      | pastTop => rfl
      | refused why => rfl

end Mode32

/-- In mode32 a step does not write `YMM[8..15]`. -/
theorem step_mode32_keeps_high {s s' : State} (hmode : s.cfg.mode = .mode32) (h : step s = .next s') {i : BitVec 4}
    (hi : 8 ≤ i.toNat) : s'.ymmReg i = s.ymmReg i := by
  obtain ⟨-, ⟨e, rfl⟩ | ⟨instr, -, hexec⟩⟩ := step_next h
  · rfl
  · refine (onlyTheDestinationRegisterIsWritten s s' instr hexec).2 i fun hd => ?_
    have := destYmm_mode32_lt (hmode ▸ hd)
    omega

/-- A step writes neither the general registers nor the parameters. -/
theorem step_keeps_x_cfg {s s' : State} (h : step s = .next s') : s'.x = s.x ∧ s'.cfg = s.cfg := by
  obtain ⟨-, ⟨e, rfl⟩ | ⟨len, mm, ymm, -, rfl⟩⟩ := step_next_fields h
  · exact ⟨rfl, rfl⟩
  · exact ⟨rfl, rfl⟩

/-- Changing the unreachable registers of a state whose reachable general registers read the same gives a state that
agrees with it. -/
theorem agree_withHighOf {s t : State} (hmode : s.cfg.mode = .mode32)
    (hx : ∀ i : BitVec 4, i.toNat < 8 → (withHighOf t s).xReg i = s.xReg i) : AgreeInMode32 s (withHighOf t s) :=
  ⟨hmode, rfl, fun i hi => by rw [ymmReg_withHighOf, if_pos hi], hx⟩

/-- Settles O46, by the commuting diagram of the step with the change of the unreachable registers. -/
theorem unreachableRegistersOfMode32HaveNoInfluence : Obligations.UnreachableRegistersOfMode32HaveNoInfluence := by
  intro s t hagree
  have ht : withHighOf t s = t := withHighOf_of_agree hagree
  obtain ⟨hmode, hsame, -, hx⟩ := hagree
  have hcfg : t.cfg = s.cfg := by rw [hsame]
  have hstep : step t = mapNext (withHighOf t) (step s) := by
    conv_lhs => rw [← ht]
    exact step_withHighOf hmode (by rwa [ht])
  refine ⟨fun s' h => ?_, fun r h => by rw [hstep, h]; rfl, fun r h => by rw [hstep, h]; rfl⟩
  obtain ⟨hx', hcfg'⟩ := step_keeps_x_cfg h
  refine ⟨withHighOf t s', by rw [hstep, h]; rfl, agree_withHighOf (hcfg' ▸ hmode) ?_, hx', rfl, fun i hi =>
    ⟨step_mode32_keeps_high hmode h hi, by rw [ymmReg_withHighOf, if_neg (by omega)]⟩⟩
  intro i hi
  calc (withHighOf t s').xReg i
      = toAw s'.cfg.mode (t.x[i.toNat]'i.isLt) := rfl
    _ = t.xReg i := by rw [State.xReg, hcfg', hcfg]
    _ = s.xReg i := hx i hi
    _ = s'.xReg i := by simp only [State.xReg, hx', hcfg']

end Sys2Proof.Proofs

/-! # Memory: what runs leave as at launch, the canonical addresses, and the order of bytes -/

namespace Sys2Proof.Proofs

open Machine Safety

/-! ## Runs -/

/-- A reflexive and transitive relation that every step keeps holds between the two ends of a run of any length. -/
theorem run_rel {M : Host.Core} {R : M.State → M.State → Prop} (hrefl : ∀ s, R s s)
    (htrans : ∀ {s u t}, R s u → R u t → R s t) (hstep : ∀ {s t}, M.step s = .next t → R s t)
    {k : Nat} {s t : M.State} (h : M.run k s = .next t) : R s t := by
  induction k generalizing s with
  | zero => cases h; exact hrefl _
  | succ k ih =>
    cases hs : M.step s <;> simp only [Host.Core.run, hs] at h
    case next u => exact htrans (hstep hs) (ih h)
    case fault => cases h
    case refused => cases h

/-- `t` is `s` but for the register files that the forms write, `pc` and the fault record. -/
def SameLaunchValues (s t : State) : Prop :=
  ∃ mm ymm pc fault, t = { s with mm := mm, ymm := ymm, pc := pc, fault := fault }

theorem SameLaunchValues.refl (s : State) : SameLaunchValues s s := ⟨_, _, _, _, rfl⟩

theorem SameLaunchValues.trans {s u t : State} (hsu : SameLaunchValues s u) (hut : SameLaunchValues u t) :
    SameLaunchValues s t := by
  obtain ⟨_, _, _, _, rfl⟩ := hsu
  obtain ⟨_, _, _, _, rfl⟩ := hut
  exact ⟨_, _, _, _, rfl⟩

theorem sameLaunchValues_step {s t : State} (h : step s = .next t) : SameLaunchValues s t := by
  obtain ⟨-, ⟨e, rfl⟩ | ⟨len, mm, ymm, -, rfl⟩⟩ := step_next_fields h
  · exact ⟨_, _, _, _, rfl⟩
  · exact ⟨_, _, _, _, rfl⟩

theorem sameLaunchValues_run {s t : State} {k : Nat} (h : core.run k s = .next t) : SameLaunchValues s t :=
  run_rel (M := core) SameLaunchValues.refl SameLaunchValues.trans sameLaunchValues_step h

/-- The bytes that a fetch sees depend on the parameters and memory alone. -/
theorem fetchBytes_congr {s t : State} (hcfg : t.cfg = s.cfg) (hmem : t.mem = s.mem) (a n : Nat) :
    fetchBytes t a n = fetchBytes s a n := by
  induction n generalizing a with
  | zero => rfl
  | succ n ih => simp only [fetchBytes, hcfg, hmem, ih]

/-- Settles O51: a step changes register files, `pc` and the fault record alone, and so does a run. -/
theorem runsKeepLaunchValues : Obligations.RunsKeepLaunchValues := by
  intro s t k h
  obtain ⟨_, _, _, _, rfl⟩ := sameLaunchValues_run h
  exact ⟨rfl, fetchBytes_congr rfl rfl, rfl, rfl, rfl, rfl, rfl⟩

/-! ## Forms that may run -/

/-- The premises under which a form of a family runs. -/
def FamilyReady (s : State) : Family → Prop
  | .mmx => MmxReady s
  | .sse2 => Sse2Ready s
  | .avx => AvxReady s
  | .avx2 => Avx2Ready s

/-- The checks before the operands pass exactly when the form has a meaning and its family may run. -/
theorem instrCheck_eq_none_iff {i : Instr} {s : State} :
    instrCheck i s = none ↔ immMemForm i = false ∧ FamilyReady s (familyOf i) := by
  have hfamily :
      formCheck (featureSet s (familyOf i)) (osCheck s (familyOf i)) = none ↔ FamilyReady s (familyOf i) := by
    rw [formCheck_none]
    cases familyOf i with
    | mmx => exact and_congr Iff.rfl osMmx_none
    | sse2 => exact and_congr Iff.rfl osSse_none
    | avx => exact and_congr Iff.rfl osAvx_none
    | avx2 => exact and_congr Iff.rfl osAvx_none
  rw [← hfamily, instrCheck]
  cases immMemForm i <;> simp

/-- A memory operand is the r/m operand of an RM or RVM form. -/
theorem tailOf_of_memOperandOf {i : Instr} {m : MemOperand} (h : memOperandOf i = some m) :
    ∃ reg, tailOf i = .rm reg (.mem m) := by
  unfold memOperandOf at h
  split at h
  next reg _ ht => cases h; exact ⟨reg, ht⟩
  next => cases h

theorem immMemForm_of_memOperandOf {i : Instr} {m : MemOperand} (h : memOperandOf i = some m) :
    immMemForm i = false := by
  obtain ⟨reg, ht⟩ := tailOf_of_memOperandOf h
  simp only [immMemForm, ht]

/-! ## A memory operand that cannot be read -/

theorem countMm_of_error {s : State} {ext : ExtBits} {len : Nat} {m : MemOperand} {e : Exc}
    (h : memRead s (effAddr s ext len m) 8 = .error e) : countMm s ext len (.mem m) = .error e := by
  simp only [countMm, h]

theorem countM128_of_error {s : State} {a : Quad} {e : Exc} (h : memRead s a 16 = .error e) :
    countM128 s a = .error e := by
  simp only [countM128, h]

/-- The exception of the read is that of the count, in a legacy `m128` once its address is aligned. -/
theorem instrCount_of_memRead_error {i : Instr} {s : State} {m : MemOperand} {e : Exc} (hm : memOperandOf i = some m)
    (haligned : familyOf i = .sse2 → (operandAddr s i m).toNat % 16 = 0)
    (hread : memRead s (operandAddr s i m) (operandBytes i) = .error e) : instrCount i s = .error e := by
  obtain ⟨reg, ht⟩ := tailOf_of_memOperandOf hm
  unfold operandBytes at hread
  unfold instrCount
  rw [ht]
  cases hfam : familyOf i <;> rw [hfam] at hread
  case mmx => exact countMm_of_error hread
  case sse2 => exact (countSse_aligned (haligned hfam)).trans (countM128_of_error hread)
  case avx => exact countM128_of_error hread
  case avx2 => exact countM128_of_error hread

/-- A form that may run and whose count faults takes that exception. -/
theorem exec_of_instrCount_error {i : Instr} {s : State} {e : Exc} (hcheck : instrCheck i s = none)
    (hcount : instrCount i s = .error e) : exec i s = .next (faultedWith s e) := by
  rw [exec_eq_runForm, hcheck, hcount, runForm_error, raiseExc_eq]

/-! ## Canonical addresses -/

/-- When an address is not canonical. -/
theorem canonical_eq_false_iff {bits a : Nat} :
    canonical bits a = false ↔ 2 ^ (bits - 1) ≤ a ∧ a < 2 ^ 64 - 2 ^ (bits - 1) := by
  rw [canonical, Bool.or_eq_false_iff, decide_eq_false_iff_not, decide_eq_false_iff_not, not_lt, not_le]

/-- In mode64 no read that holds a non-canonical address is admitted (`20_memory.md` R39). -/
theorem admits_eq_false_of_not_canonical {p : Params} {a n k : Nat} (hmode : p.mode = .mode64) (hk : k < n)
    (hc : canonical p.linearBits (a + k) = false) : admits p a n = false := by
  rw [← Bool.not_eq_true, admits_iff, canonicalRead_iff, hmode]
  rintro ⟨-, h | h⟩
  · cases h
  · exact Bool.noConfusion ((h k hk).symm.trans hc)

/-- Settles O38: the read is not admitted, and its exception is that of the form. -/
theorem nonCanonicalOperandRaisesMemFault : Obligations.NonCanonicalOperandRaisesMemFault := by
  intro s i m k hmode hm hready hk hlow hhigh
  have hfam : FamilyReady s (familyOf i) ∧ (familyOf i = .sse2 → (operandAddr s i m).toNat % 16 = 0) := by
    rcases hready with ⟨hf, hr⟩ | ⟨hf, hr, ha⟩ | ⟨hf, hr⟩ | ⟨hf, hr⟩ <;> rw [hf]
    · exact ⟨hr, nofun⟩
    · exact ⟨hr, fun _ => ha⟩
    · exact ⟨hr, nofun⟩
    · exact ⟨hr, nofun⟩
  obtain ⟨hfamily, haligned⟩ := hfam
  have hadmit : admits s.cfg (operandAddr s i m).toNat (operandBytes i) = false :=
    admits_eq_false_of_not_canonical hmode hk (canonical_eq_false_iff.mpr ⟨hlow, hhigh⟩)
  exact exec_of_instrCount_error (instrCheck_eq_none_iff.mpr ⟨immMemForm_of_memOperandOf hm, hfamily⟩)
    (instrCount_of_memRead_error hm haligned (memRead_error (.inr hadmit)))

/-! ## Little-endian values -/

/-- Appending a byte below a value. -/
theorem toNat_append_byte {n : Nat} (v : BitVec n) (b : Byte) :
    (v ++ b : BitVec (n + 8)).toNat = b.toNat + 256 * v.toNat := by
  have hb := b.isLt
  rw [BitVec.toNat_append, Nat.shiftLeft_eq, Nat.mul_comm, ← Nat.two_pow_add_eq_or_of_lt hb]
  omega

/-- The value read is the little-endian number of its bytes (`20_memory.md` R31). -/
theorem toNat_readLe (m : Memory) (a n : Nat) : (m.readLe a n).toNat = leNat m a n := by
  induction n generalizing a with
  | zero => rfl
  | succ n ih =>
    calc (m.readLe a (n + 1)).toNat
        = (m.readLe (a + 1) n ++ m.read a : BitVec (8 * n + 8)).toNat := rfl
      _ = (m.read a).toNat + 256 * (m.readLe (a + 1) n).toNat := toNat_append_byte ..
      _ = leNat m a (n + 1) := by rw [ih, leNat]

/-- The first bytes are the low part of the number. -/
theorem leNat_add_mod (m : Memory) (a n k : Nat) : leNat m a (n + k) % 256 ^ n = leNat m a n := by
  induction n generalizing a with
  | zero => rw [Nat.pow_zero, Nat.mod_one, leNat]
  | succ n ih =>
    have hb := (m.read a).isLt
    calc leNat m a (n + 1 + k) % 256 ^ (n + 1)
        = ((m.read a).toNat + 256 * leNat m (a + 1) (n + k)) % (256 * 256 ^ n) := by
          rw [Nat.succ_add, leNat, Nat.pow_succ']
      _ = (m.read a).toNat + 256 * (leNat m (a + 1) (n + k) % 256 ^ n) := by
          rw [Nat.mod_mul, Nat.add_mul_mod_self_left, Nat.mod_eq_of_lt hb, Nat.add_mul_div_left _ _ (by decide),
            Nat.div_eq_of_lt hb, Nat.zero_add]
      _ = leNat m a (n + 1) := by rw [ih, leNat]

/-- The value of a read that is answered. -/
theorem eq_readLe_of_memRead_ok {s : State} {a : Quad} {n : Nat} {v : BitVec (8 * n)} (h : memRead s a n = .ok v) :
    v = s.mem.readLe a.toNat n := by
  rcases memRead_cases s a n with ⟨he, -⟩ | ⟨he, -, -⟩ <;> rw [he] at h <;> cases h
  rfl

/-- Byte `k` of a value that is read. -/
theorem byte_of_memRead_ok {s : State} {a : Quad} {n k : Nat} {v : BitVec (8 * n)} (h : memRead s a n = .ok v)
    (hk : k < n) : v.toNat / 2 ^ (8 * k) % 2 ^ 8 = (s.mem.read (a.toNat + k)).toNat := by
  rw [eq_readLe_of_memRead_ok h, ← extractLsb'_readLe s.mem a.toNat hk, BitVec.extractLsb'_toNat,
    Nat.shiftRight_eq_div_pow]

/-- An `m128` count is its first 8 bytes. -/
theorem toNat_of_countM128_ok {s : State} {a c : Quad} (h : countM128 s a = .ok c) :
    c.toNat = leNat s.mem a.toNat 8 := by
  unfold countM128 at h
  split at h <;> cases h
  next v hv =>
    rw [eq_readLe_of_memRead_ok hv, BitVec.extractLsb'_toNat, Nat.shiftRight_zero, toNat_readLe]
    exact leNat_add_mod s.mem a.toNat 8 8

/-- An `m64` count is all 8 of its bytes. -/
theorem toNat_of_countMm_mem_ok {s : State} {ext : ExtBits} {len : Nat} {m : MemOperand} {c : Quad}
    (h : countMm s ext len (.mem m) = .ok c) : c.toNat = leNat s.mem (effAddr s ext len m).toNat 8 := by
  rw [countMm_mem] at h
  split at h
  · cases h
  next v hv =>
    split at h <;> cases h
    rw [eq_readLe_of_memRead_ok hv, toNat_readLe]

/-- A `disp32` is its four bytes, least significant first. -/
theorem toNat_packDisp32 (b0 b1 b2 b3 : Byte) :
    (packDisp32 b0 b1 b2 b3).toNat = b0.toNat + 256 * (b1.toNat + 256 * (b2.toNat + 256 * b3.toNat)) := by
  rw [packDisp32, toNat_append_byte, toNat_append_byte, toNat_append_byte]

/-- Settles O48: a read and both counts through the little-endian number of the bytes, a `disp32` byte by byte. -/
theorem memoryAndDisplacementsAreLittleEndian : Obligations.MemoryAndDisplacementsAreLittleEndian :=
  ⟨fun _ _ _ _ _ h hk => byte_of_memRead_ok h hk, fun _ _ _ h => toNat_of_countM128_ok h,
    fun _ _ _ _ _ h => toNat_of_countMm_mem_ok h, toNat_packDisp32⟩

end Sys2Proof.Proofs

/-! # Decoding, part by part

For each part of an encoding, one equivalence: what its reader answers is well formed, and the bytes it consumed are the
bytes that the encoder writes for it. Both directions of the round trip are these equivalences put together. -/

namespace Sys2Proof.Proofs

open Machine Safety

/-! ## A reader after a reader -/

/-- The value of a decoding step changed, its rest and its refusal kept. -/
def mapValue {α β : Type} (f : α → β) : Decoded α → Decoded β
  | .error e => .error e
  | .ok (x, rest) => .ok (f x, rest)

theorem mapValue_eq_ok_iff {α β : Type} {f : α → β} {p : Decoded α} {y : β} {rest : List Byte} :
    mapValue f p = .ok (y, rest) ↔ ∃ x, p = .ok (x, rest) ∧ f x = y := by
  cases p with
  | error e => simp [mapValue]
  | ok r => obtain ⟨x, r⟩ := r; simp [mapValue, and_comm]

/-! ## ModRM, SIB, displacement and immediate -/

theorem packModRm_eq_iff {hi : BitVec 2} {mid lo : BitVec 3} {b : Byte} :
    packModRm hi mid lo = b ↔ hi = bits76 b ∧ mid = bits53 b ∧ lo = bits20 b := by
  constructor
  · rintro rfl; simp
  · rintro ⟨rfl, rfl, rfl⟩; simp

/-- The field `mod` of a memory operand's ModRM byte (`30_encoding.md` R56). -/
def modOfMem : MemOperand → BitVec 2
  | .base _ d => d.mod
  | .dispOnly _ => 0#2
  | .sib _ _ _ d => d.mod
  | .sibNoBase _ _ _ => 0#2

/-- The field `rm` of a memory operand's ModRM byte. -/
def rmOfMem : MemOperand → BitVec 3
  | .base rm _ => rm
  | .dispOnly _ => 5#3
  | .sib _ _ _ _ => 4#3
  | .sibNoBase _ _ _ => 4#3

/-- The bytes of a memory operand after ModRM: SIB and displacement (R58). -/
def bytesAfterMem : MemOperand → List Byte
  | .base _ d => d.bytes
  | .dispOnly d => disp32Bytes d
  | .sib scale index sb d => packModRm scale index sb :: d.bytes
  | .sibNoBase scale index d => packModRm scale index 5#3 :: disp32Bytes d

theorem memOperand_bytes (reg : BitVec 3) (m : MemOperand) :
    m.bytes reg = packModRm (modOfMem m) reg (rmOfMem m) :: bytesAfterMem m := by
  cases m <;> rfl

theorem disp_mod_ne_three (d : Disp) : d.mod ≠ 3#2 := by
  cases d <;> simp [Disp.mod]

theorem modOfMem_ne_three (m : MemOperand) : modOfMem m ≠ 3#2 := by
  cases m with
  | base _ d => exact disp_mod_ne_three d
  | dispOnly => simp [modOfMem]
  | sib _ _ _ d => exact disp_mod_ne_three d
  | sibNoBase => simp [modOfMem]

theorem wf_base_iff {rm : BitVec 3} {d : Disp} :
    (MemOperand.base rm d).wf = true ↔ rm ≠ 4#3 ∧ ¬(d.mod = 0#2 ∧ rm = 5#3) := by
  cases d <;> simp [MemOperand.wf, Disp.mod]

theorem wf_sib_iff {scale : BitVec 2} {index sb : BitVec 3} {d : Disp} :
    (MemOperand.sib scale index sb d).wf = true ↔ ¬(d.mod = 0#2 ∧ sb = 5#3) := by
  cases d <;> simp [MemOperand.wf, Disp.mod]

theorem takeDisp32_eq_ok_iff {bs rest : List Byte} {d : BitVec 32} :
    takeDisp32 bs = .ok (d, rest) ↔ bs = disp32Bytes d ++ rest :=
  ⟨takeDisp32_ok, fun h => h ▸ takeDisp32_disp32Bytes d rest⟩

theorem takeDisp_two (bs : List Byte) : takeDisp 2#2 bs = mapValue .disp32 (takeDisp32 bs) := by
  unfold takeDisp
  cases takeDisp32 bs <;> rfl

/-- The fields `mod` that announce a memory operand. -/
theorem mod_cases {mod : BitVec 2} (h : mod ≠ 3#2) : mod = 0#2 ∨ mod = 1#2 ∨ mod = 2#2 := by
  revert mod; decide

theorem takeDisp_eq_ok_iff {mod : BitVec 2} (hmod : mod ≠ 3#2) {bs rest : List Byte} {d : Disp} :
    takeDisp mod bs = .ok (d, rest) ↔ d.mod = mod ∧ bs = d.bytes ++ rest := by
  rcases mod_cases hmod with rfl | rfl | rfl
  · cases d <;> simp [takeDisp, Disp.mod, Disp.bytes]
  · cases bs <;> cases d <;> simp [takeDisp, Disp.mod, Disp.bytes]
  · simp only [takeDisp_two, mapValue_eq_ok_iff, takeDisp32_eq_ok_iff]
    cases d <;> simp [Disp.mod, Disp.bytes]

theorem takeSib_cons (mod : BitVec 2) (b : Byte) (bs : List Byte) :
    takeSib mod (b :: bs) =
      if mod = 0#2 ∧ bits20 b = 5#3 then mapValue (.sibNoBase (bits76 b) (bits53 b)) (takeDisp32 bs)
      else mapValue (.sib (bits76 b) (bits53 b) (bits20 b)) (takeDisp mod bs) := by
  simp only [takeSib]
  cases takeDisp32 bs <;> cases takeDisp mod bs <;> rfl

theorem takeSib_eq_ok_iff {mod : BitVec 2} (hmod : mod ≠ 3#2) {bs rest : List Byte} {m : MemOperand} :
    takeSib mod bs = .ok (m, rest) ↔
      m.wf = true ∧ modOfMem m = mod ∧ rmOfMem m = 4#3 ∧ bs = bytesAfterMem m ++ rest := by
  cases bs with
  | nil => cases m <;> simp [takeSib, rmOfMem, bytesAfterMem, wf_base_iff]; tauto
  | cons b bs =>
    rw [takeSib_cons]
    constructor
    · split
      next h =>
        rw [mapValue_eq_ok_iff]
        rintro ⟨d, hd, rfl⟩
        have hb : packModRm (bits76 b) (bits53 b) 5#3 = b := packModRm_eq_iff.mpr ⟨rfl, rfl, h.2.symm⟩
        exact ⟨rfl, h.1.symm, rfl, by rw [takeDisp32_ok hd, bytesAfterMem, hb, List.cons_append]⟩
      next h =>
        rw [mapValue_eq_ok_iff]
        rintro ⟨d, hd, rfl⟩
        obtain ⟨rfl, rfl⟩ := (takeDisp_eq_ok_iff hmod).mp hd
        exact ⟨wf_sib_iff.mpr h, rfl, rfl, by rw [bytesAfterMem, packModRm_bits, List.cons_append]⟩
    · rintro ⟨hwf, rfl, hrm, hbs⟩
      cases m with
      | base rm d => exact absurd hrm (wf_base_iff.mp hwf).1
      | dispOnly d => simp [rmOfMem] at hrm
      | sib scale index sb d =>
        obtain ⟨rfl, rfl⟩ := List.cons.inj hbs
        have hd : takeDisp d.mod (d.bytes ++ rest) = .ok (d, rest) := (takeDisp_eq_ok_iff hmod).mpr ⟨rfl, rfl⟩
        simp [modOfMem, hd, wf_sib_iff.mp hwf, mapValue]
      | sibNoBase scale index d =>
        obtain ⟨rfl, rfl⟩ := List.cons.inj hbs
        simp [modOfMem, takeDisp32_disp32Bytes, mapValue]

theorem takeMem_of_sib {mod : BitVec 2} {bs : List Byte} : takeMem mod 4#3 bs = takeSib mod bs := rfl

theorem takeMem_of_not_sib {mod : BitVec 2} {rm : BitVec 3} (h : rm ≠ 4#3) (bs : List Byte) :
    takeMem mod rm bs =
      if mod = 0#2 ∧ rm = 5#3 then mapValue .dispOnly (takeDisp32 bs) else mapValue (.base rm) (takeDisp mod bs) := by
  unfold takeMem
  rw [if_neg h]
  cases takeDisp32 bs <;> cases takeDisp mod bs <;> rfl

theorem takeMem_eq_ok_iff {mod : BitVec 2} (hmod : mod ≠ 3#2) {rm : BitVec 3} {bs rest : List Byte} {m : MemOperand} :
    takeMem mod rm bs = .ok (m, rest) ↔
      m.wf = true ∧ modOfMem m = mod ∧ rmOfMem m = rm ∧ bs = bytesAfterMem m ++ rest := by
  by_cases hrm : rm = 4#3
  · rw [hrm, takeMem_of_sib, takeSib_eq_ok_iff hmod]
  rw [takeMem_of_not_sib hrm]
  constructor
  · split
    next h =>
      rw [mapValue_eq_ok_iff]
      rintro ⟨d, hd, rfl⟩
      exact ⟨rfl, h.1.symm, h.2.symm, takeDisp32_ok hd⟩
    next h =>
      rw [mapValue_eq_ok_iff]
      rintro ⟨d, hd, rfl⟩
      obtain ⟨rfl, hbs⟩ := (takeDisp_eq_ok_iff hmod).mp hd
      exact ⟨wf_base_iff.mpr ⟨hrm, h⟩, rfl, rfl, hbs⟩
  · rintro ⟨hwf, rfl, rfl, rfl⟩
    cases m with
    | base rm d =>
      have hd : takeDisp d.mod (d.bytes ++ rest) = .ok (d, rest) := (takeDisp_eq_ok_iff hmod).mpr ⟨rfl, rfl⟩
      simp only [modOfMem, rmOfMem, bytesAfterMem, if_neg (wf_base_iff.mp hwf).2, hd, mapValue]
    | dispOnly d => simp [modOfMem, rmOfMem, bytesAfterMem, takeDisp32_disp32Bytes, mapValue]
    | sib => exact absurd rfl hrm
    | sibNoBase => exact absurd rfl hrm

/-! ## The operands after the opcode -/

/-- The field `mod` of the ModRM byte of an RM or RVM form (R56). -/
def modOfRm : RmOperand → BitVec 2
  | .reg _ => 3#2
  | .mem m => modOfMem m

/-- Its field `rm`. -/
def rmOfRm : RmOperand → BitVec 3
  | .reg n => n
  | .mem m => rmOfMem m

/-- The bytes of an r/m operand after ModRM. -/
def bytesAfterRm : RmOperand → List Byte
  | .reg _ => []
  | .mem m => bytesAfterMem m

theorem rmOperand_bytes (reg : BitVec 3) (rm : RmOperand) :
    rm.bytes reg = packModRm (modOfRm rm) reg (rmOfRm rm) :: bytesAfterRm rm := by
  cases rm with
  | reg n => rfl
  | mem m => exact memOperand_bytes reg m

theorem takeRm_of_reg {modrm : Byte} (h : bits76 modrm = 3#2) (bs : List Byte) :
    takeRm modrm bs = .ok (.reg (bits20 modrm), bs) := by
  rw [takeRm, if_pos h]

theorem takeRm_of_mem {modrm : Byte} (h : bits76 modrm ≠ 3#2) (bs : List Byte) :
    takeRm modrm bs = mapValue .mem (takeMem (bits76 modrm) (bits20 modrm) bs) := by
  unfold takeRm
  rw [if_neg h]
  cases takeMem (bits76 modrm) (bits20 modrm) bs <;> rfl

theorem cons_eq_rmBytes_iff {modrm : Byte} {bs rest : List Byte} {rm : RmOperand} :
    modrm :: bs = rm.bytes (bits53 modrm) ++ rest ↔
      modOfRm rm = bits76 modrm ∧ rmOfRm rm = bits20 modrm ∧ bs = bytesAfterRm rm ++ rest := by
  rw [rmOperand_bytes, List.cons_append, List.cons.injEq, eq_comm (a := modrm), packModRm_eq_iff]
  simp [and_assoc]

theorem takeRm_eq_ok_iff {modrm : Byte} {bs rest : List Byte} {rm : RmOperand} :
    takeRm modrm bs = .ok (rm, rest) ↔ rm.wf = true ∧ modrm :: bs = rm.bytes (bits53 modrm) ++ rest := by
  rw [cons_eq_rmBytes_iff]
  by_cases h : bits76 modrm = 3#2
  · rw [takeRm_of_reg h, h]
    cases rm with
    | reg n => simp [RmOperand.wf, modOfRm, rmOfRm, bytesAfterRm, eq_comm]
    | mem m => simp [modOfRm, modOfMem_ne_three]
  · rw [takeRm_of_mem h, mapValue_eq_ok_iff]
    cases rm with
    | reg n => simp [modOfRm, Ne.symm h]
    | mem m => simp [RmOperand.wf, modOfRm, rmOfRm, bytesAfterRm, takeMem_eq_ok_iff h]

/-- The field `mod` of the ModRM byte of an MI or VMI form. -/
def modOfImm : ImmOperand → BitVec 2
  | .reg _ _ => 3#2
  | .memForm mod _ => mod

/-- Its field `rm`. -/
def rmOfImm : ImmOperand → BitVec 3
  | .reg n _ => n
  | .memForm _ rm => rm

/-- The immediate, where it is read (R63, R64 step 4). -/
def bytesAfterImm : ImmOperand → List Byte
  | .reg _ imm8 => [imm8]
  | .memForm _ _ => []

theorem immOperand_bytes (rm : ImmOperand) :
    rm.bytes = packModRm (modOfImm rm) 6#3 (rmOfImm rm) :: bytesAfterImm rm := by
  cases rm <;> rfl

theorem takeImm_of_reg {modrm : Byte} (h : bits76 modrm = 3#2) (imm8 : Byte) (bs : List Byte) :
    takeImm modrm (imm8 :: bs) = .ok (.reg (bits20 modrm) imm8, bs) := by
  simp only [takeImm, h, if_true]

theorem takeImm_of_reg_nil {modrm : Byte} (h : bits76 modrm = 3#2) : takeImm modrm [] = .error .truncated := by
  simp only [takeImm, h, if_true]

theorem takeImm_of_mem {modrm : Byte} (h : bits76 modrm ≠ 3#2) (bs : List Byte) :
    takeImm modrm bs = .ok (.memForm (bits76 modrm) (bits20 modrm), bs) := by
  unfold takeImm
  rw [if_neg h]

theorem cons_eq_immBytes_iff {modrm : Byte} {bs rest : List Byte} {rm : ImmOperand} :
    modrm :: bs = rm.bytes ++ rest ↔
      bits53 modrm = 6#3 ∧ modOfImm rm = bits76 modrm ∧ rmOfImm rm = bits20 modrm ∧ bs = bytesAfterImm rm ++ rest := by
  rw [immOperand_bytes, List.cons_append, List.cons.injEq, eq_comm (a := modrm), packModRm_eq_iff]
  tauto

theorem takeImm_eq_ok_iff {modrm : Byte} (hreg : bits53 modrm = 6#3) {bs rest : List Byte} {rm : ImmOperand} :
    takeImm modrm bs = .ok (rm, rest) ↔ rm.wf = true ∧ modrm :: bs = rm.bytes ++ rest := by
  rw [cons_eq_immBytes_iff, eq_true hreg, true_and]
  by_cases h : bits76 modrm = 3#2
  · have hmem {mod : BitVec 2} {n : BitVec 3} (hwf : (ImmOperand.memForm mod n).wf = true) : mod ≠ 3#2 := by
      simpa [ImmOperand.wf] using hwf
    cases bs with
    | nil =>
      rw [takeImm_of_reg_nil h, h]
      cases rm with
      | reg n imm8 => simp [bytesAfterImm]
      | memForm mod n => exact ⟨nofun, fun ⟨hwf, hmod, _⟩ => absurd hmod (hmem hwf)⟩
    | cons imm8 bs =>
      rw [takeImm_of_reg h, h]
      cases rm with
      | reg n imm => simp [ImmOperand.wf, modOfImm, rmOfImm, bytesAfterImm, eq_comm, and_assoc]
      | memForm mod n => exact ⟨nofun, fun ⟨hwf, hmod, _⟩ => absurd hmod (hmem hwf)⟩
  · rw [takeImm_of_mem h]
    cases rm with
    | reg n imm8 => simp [modOfImm, Ne.symm h]
    | memForm mod n =>
      simp only [ImmOperand.wf, modOfImm, rmOfImm, bytesAfterImm, List.nil_append, bne_iff_ne, Except.ok.injEq,
        Prod.mk.injEq, ImmOperand.memForm.injEq]
      constructor
      · rintro ⟨⟨rfl, rfl⟩, rfl⟩; exact ⟨h, rfl, rfl, rfl⟩
      · rintro ⟨-, rfl, rfl, rfl⟩; exact ⟨⟨rfl, rfl⟩, rfl⟩

end Sys2Proof.Proofs

/-! # The rows of the opcode table, and the prefixes before them -/

namespace Sys2Proof.Proofs

open Machine Safety

/-! ## The rows, by shape

The 24 rows are four shapes: legacy or VEX, with an r/m operand or with an immediate. -/

/-- The opcode byte of an element and a kind of operand (R53). -/
def opcodeByte : Elem → Bool → Byte
  | .word, false => 0xF1#8
  | .dword, false => 0xF2#8
  | .qword, false => 0xF3#8
  | .word, true => 0x71#8
  | .dword, true => 0x72#8
  | .qword, true => 0x73#8

@[simp] theorem opcodeRow_opcodeByte (e : Elem) (imm : Bool) : opcodeRow (opcodeByte e imm) = some (e, imm) := by
  cases e <;> cases imm <;> rfl

theorem opcodeRow_eq_some {op : Byte} {e : Elem} {imm : Bool} (h : opcodeRow op = some (e, imm)) :
    op = opcodeByte e imm := by
  unfold opcodeRow at h
  split_ifs at h with h1 h2 h3 h4 h5 h6 <;> cases h <;> assumption

/-- An RM form of the legacy shape, with `66` in front or without it. -/
def legacyRmForm : Bool → Elem → Option Rex → BitVec 3 → RmOperand → Instr
  | false => mkMmRm
  | true => mkXmmRm

/-- An MI form of the legacy shape. -/
def legacyImmForm : Bool → Elem → Option Rex → ImmOperand → Instr
  | false => mkMmImm
  | true => mkXmmImm

/-- The instructions of the legacy shape with given prefixes, each with its opcode and the bytes of its operands. -/
inductive LegacyForm (p66 : Bool) (rex : Option Rex) : Instr → Byte → List Byte → Prop
  | rm (e : Elem) (reg : BitVec 3) (rm : RmOperand) :
    LegacyForm p66 rex (legacyRmForm p66 e rex reg rm) (opcodeByte e false) (rm.bytes reg)
  | imm (e : Elem) (rm : ImmOperand) :
    LegacyForm p66 rex (legacyImmForm p66 e rex rm) (opcodeByte e true) rm.bytes

/-- The instructions of the VEX shape. -/
inductive VexForm (l : Bool) (vex : Vex) : Instr → Byte → List Byte → Prop
  | rm (e : Elem) (reg : BitVec 3) (rm : RmOperand) :
    VexForm l vex (mkVexRm l e vex reg rm) (opcodeByte e false) (rm.bytes reg)
  | imm (e : Elem) (rm : ImmOperand) : VexForm l vex (mkVexImm l e vex rm) (opcodeByte e true) rm.bytes

/-- Every instruction is of one of the two shapes. -/
theorem instr_form (i : Instr) :
    (∃ p66 rex op operands, LegacyForm p66 rex i op operands) ∨ ∃ l vex op operands, VexForm l vex i op operands := by
  cases i with
  | psllwMmMmm64 p reg rm => exact .inl ⟨false, p, _, _, .rm .word reg rm⟩
  | psllwXmmXmmm128 p reg rm => exact .inl ⟨true, p, _, _, .rm .word reg rm⟩
  | psllwMmImm8 p rm => exact .inl ⟨false, p, _, _, .imm .word rm⟩
  | psllwXmmImm8 p rm => exact .inl ⟨true, p, _, _, .imm .word rm⟩
  | pslldMmMmm64 p reg rm => exact .inl ⟨false, p, _, _, .rm .dword reg rm⟩
  | pslldXmmXmmm128 p reg rm => exact .inl ⟨true, p, _, _, .rm .dword reg rm⟩
  | pslldMmImm8 p rm => exact .inl ⟨false, p, _, _, .imm .dword rm⟩
  | pslldXmmImm8 p rm => exact .inl ⟨true, p, _, _, .imm .dword rm⟩
  | psllqMmMmm64 p reg rm => exact .inl ⟨false, p, _, _, .rm .qword reg rm⟩
  | psllqXmmXmmm128 p reg rm => exact .inl ⟨true, p, _, _, .rm .qword reg rm⟩
  | psllqMmImm8 p rm => exact .inl ⟨false, p, _, _, .imm .qword rm⟩
  | psllqXmmImm8 p rm => exact .inl ⟨true, p, _, _, .imm .qword rm⟩
  | vpsllwXmmXmmXmmm128 p reg rm => exact .inr ⟨false, p, _, _, .rm .word reg rm⟩
  | vpsllwXmmXmmImm8 p rm => exact .inr ⟨false, p, _, _, .imm .word rm⟩
  | vpslldXmmXmmXmmm128 p reg rm => exact .inr ⟨false, p, _, _, .rm .dword reg rm⟩
  | vpslldXmmXmmImm8 p rm => exact .inr ⟨false, p, _, _, .imm .dword rm⟩
  | vpsllqXmmXmmXmmm128 p reg rm => exact .inr ⟨false, p, _, _, .rm .qword reg rm⟩
  | vpsllqXmmXmmImm8 p rm => exact .inr ⟨false, p, _, _, .imm .qword rm⟩
  | vpsllwYmmYmmXmmm128 p reg rm => exact .inr ⟨true, p, _, _, .rm .word reg rm⟩
  | vpsllwYmmYmmImm8 p rm => exact .inr ⟨true, p, _, _, .imm .word rm⟩
  | vpslldYmmYmmXmmm128 p reg rm => exact .inr ⟨true, p, _, _, .rm .dword reg rm⟩
  | vpslldYmmYmmImm8 p rm => exact .inr ⟨true, p, _, _, .imm .dword rm⟩
  | vpsllqYmmYmmXmmm128 p reg rm => exact .inr ⟨true, p, _, _, .rm .qword reg rm⟩
  | vpsllqYmmYmmImm8 p rm => exact .inr ⟨true, p, _, _, .imm .qword rm⟩

theorem encode_of_legacyForm {p66 : Bool} {rex : Option Rex} {i : Instr} {op : Byte} {operands : List Byte}
    (h : LegacyForm p66 rex i op operands) : encode i = legacyBytes p66 rex op operands := by
  cases h with
  | rm e reg rm => cases p66 <;> cases e <;> rfl
  | imm e rm => cases p66 <;> cases e <;> rfl

theorem encode_of_vexForm {l : Bool} {vex : Vex} {i : Instr} {op : Byte} {operands : List Byte}
    (h : VexForm l vex i op operands) : encode i = vexFormBytes l vex op operands := by
  cases h with
  | rm e reg rm => cases l <;> cases e <;> rfl
  | imm e rm => cases l <;> cases e <;> rfl

/-! ## Well-formedness of the shapes -/

theorem wf_legacyRmForm_iff {m : Mode} {p66 : Bool} {e : Elem} {rex : Option Rex} {reg : BitVec 3} {rm : RmOperand} :
    WellFormed m (legacyRmForm p66 e rex reg rm) = true ↔
      rexWf m rex = true ∧ rm.wf = true ∧ (p66 = false → rexR rex = false) ∧
        (p66 = false → rexB rex = true → modOfRm rm ≠ 3#2) := by
  cases p66 with
  | true => cases e <;> simp [legacyRmForm, mkXmmRm, WellFormed, sseRmWf]
  | false =>
    have h : WellFormed m (legacyRmForm false e rex reg rm) = mmxRmWf m rex rm := by cases e <;> rfl
    rw [h]
    cases rm with
    | reg n => simp [mmxRmWf, modOfRm]; tauto
    | mem mem => simp [mmxRmWf, modOfRm, modOfMem_ne_three]; tauto

theorem wf_legacyImmForm_iff {m : Mode} {p66 : Bool} {e : Elem} {rex : Option Rex} {rm : ImmOperand} :
    WellFormed m (legacyImmForm p66 e rex rm) = true ↔
      rexWf m rex = true ∧ rm.wf = true ∧ rexR rex = false ∧
        (p66 = false → rexB rex = true → modOfImm rm ≠ 3#2) := by
  cases p66 with
  | true =>
    have h : WellFormed m (legacyImmForm true e rex rm) = sseMiWf m rex rm := by cases e <;> rfl
    simp [h, sseMiWf]; tauto
  | false =>
    have h : WellFormed m (legacyImmForm false e rex rm) = mmxMiWf m rex rm := by cases e <;> rfl
    rw [h]
    cases rm with
    | reg n imm8 => simp [mmxMiWf, modOfImm]; tauto
    | memForm mod n => simp [mmxMiWf, modOfImm, ImmOperand.wf]; tauto

theorem wf_vexRmForm_iff {m : Mode} {l : Bool} {e : Elem} {vex : Vex} {reg : BitVec 3} {rm : RmOperand} :
    WellFormed m (mkVexRm l e vex reg rm) = true ↔ vex.wf m = true ∧ rm.wf = true := by
  have h : WellFormed m (mkVexRm l e vex reg rm) = rvmWf m vex rm := by cases l <;> cases e <;> rfl
  simp [h, rvmWf]

theorem wf_vexImmForm_iff {m : Mode} {l : Bool} {e : Elem} {vex : Vex} {rm : ImmOperand} :
    WellFormed m (mkVexImm l e vex rm) = true ↔ vex.wf m = true ∧ vex.rBit = false ∧ rm.wf = true := by
  have h : WellFormed m (mkVexImm l e vex rm) = vmiWf m vex rm := by cases l <;> cases e <;> rfl
  simp [h, vmiWf, and_assoc]

theorem rexWf_of_legacyForm {m : Mode} {p66 : Bool} {rex : Option Rex} {i : Instr} {op : Byte} {operands : List Byte}
    (h : LegacyForm p66 rex i op operands) (hwf : WellFormed m i = true) : rexWf m rex = true := by
  cases h with
  | rm e reg rm => exact (wf_legacyRmForm_iff.mp hwf).1
  | imm e rm => exact (wf_legacyImmForm_iff.mp hwf).1

theorem vexWf_of_vexForm {m : Mode} {l : Bool} {vex : Vex} {i : Instr} {op : Byte} {operands : List Byte}
    (h : VexForm l vex i op operands) (hwf : WellFormed m i = true) : vex.wf m = true := by
  cases h with
  | rm e reg rm => exact (wf_vexRmForm_iff.mp hwf).1
  | imm e rm => exact (wf_vexImmForm_iff.mp hwf).1

/-! ## Reading a row -/

theorem decodeLegacyRm_eq (p66 : Bool) (rex : Option Rex) (e : Elem) (modrm : Byte) (bs : List Byte) :
    decodeLegacyRm p66 rex e modrm bs =
      if p66 = false ∧ rexR rex = true then .error .rexRExtendsNothing
      else if p66 = false ∧ rexB rex = true ∧ bits76 modrm = 3#2 then .error .rexBExtendsNothing
      else mapValue (legacyRmForm p66 e rex (bits53 modrm)) (takeRm modrm bs) := by
  simp only [decodeLegacyRm, Bool.and_eq_true, Bool.not_eq_true', beq_iff_eq, and_assoc]
  cases takeRm modrm bs <;> cases p66 <;> rfl

theorem decodeLegacyImm_eq (p66 : Bool) (rex : Option Rex) (e : Elem) (modrm : Byte) (bs : List Byte) :
    decodeLegacyImm p66 rex e modrm bs =
      if bits53 modrm ≠ 6#3 then .error (.opcodeExtensionNotSix (bits53 modrm))
      else if rexR rex = true then .error .rexRExtendsNothing
      else if p66 = false ∧ rexB rex = true ∧ bits76 modrm = 3#2 then .error .rexBExtendsNothing
      else mapValue (legacyImmForm p66 e rex) (takeImm modrm bs) := by
  simp only [decodeLegacyImm, Bool.and_eq_true, Bool.not_eq_true', beq_iff_eq, and_assoc]
  cases takeImm modrm bs <;> cases p66 <;> rfl

/-- The ModRM byte and operands after the opcode of a VEX form. -/
def decodeVexOperands (vex : Vex) (l : Bool) (e : Elem) (imm : Bool) (modrm : Byte) (bs : List Byte) : Decoded Instr :=
  if imm = true then
    if bits53 modrm ≠ 6#3 then .error (.opcodeExtensionNotSix (bits53 modrm))
    else if vex.rBit = true then .error .vexRExtendsNothing
    else mapValue (mkVexImm l e vex) (takeImm modrm bs)
  else mapValue (mkVexRm l e vex (bits53 modrm)) (takeRm modrm bs)

/-- The same of a legacy form. -/
def decodeLegacyOperands (p66 : Bool) (rex : Option Rex) (e : Elem) (imm : Bool) (modrm : Byte) (bs : List Byte) :
    Decoded Instr :=
  if imm = true then decodeLegacyImm p66 rex e modrm bs else decodeLegacyRm p66 rex e modrm bs

theorem decodeAfterEscape_unlisted {op : Byte} (h : opcodeRow op = none) (p66 : Bool) (rex : Option Rex)
    (bs : List Byte) : decodeAfterEscape p66 rex (op :: bs) = .error (.opcodeNotListed op) := by
  simp only [decodeAfterEscape, h]

theorem decodeAfterEscape_nil {op : Byte} {e : Elem} {imm : Bool} (h : opcodeRow op = some (e, imm)) (p66 : Bool)
    (rex : Option Rex) : decodeAfterEscape p66 rex [op] = .error .truncated := by
  simp only [decodeAfterEscape, h]

theorem decodeAfterEscape_cons {op : Byte} {e : Elem} {imm : Bool} (h : opcodeRow op = some (e, imm)) (p66 : Bool)
    (rex : Option Rex) (modrm : Byte) (bs : List Byte) :
    decodeAfterEscape p66 rex (op :: modrm :: bs) = decodeLegacyOperands p66 rex e imm modrm bs := by
  simp only [decodeAfterEscape, h, decodeLegacyOperands]

theorem decodeVexOpcode_unlisted {op : Byte} (h : opcodeRow op = none) (vex : Vex) (l : Bool) (bs : List Byte) :
    decodeVexOpcode vex l (op :: bs) = .error (.opcodeNotListed op) := by
  simp only [decodeVexOpcode, h]

theorem decodeVexOpcode_nil {op : Byte} {e : Elem} {imm : Bool} (h : opcodeRow op = some (e, imm)) (vex : Vex)
    (l : Bool) : decodeVexOpcode vex l [op] = .error .truncated := by
  simp only [decodeVexOpcode, h]

theorem decodeVexOpcode_cons {op : Byte} {e : Elem} {imm : Bool} (h : opcodeRow op = some (e, imm)) (vex : Vex)
    (l : Bool) (modrm : Byte) (bs : List Byte) :
    decodeVexOpcode vex l (op :: modrm :: bs) = decodeVexOperands vex l e imm modrm bs := by
  simp only [decodeVexOpcode, h, decodeVexOperands]
  cases takeImm modrm bs <;> cases takeRm modrm bs <;> rfl

theorem modOfRm_of_bytes {modrm : Byte} {bs rest : List Byte} {rm : RmOperand}
    (h : modrm :: bs = rm.bytes (bits53 modrm) ++ rest) : modOfRm rm = bits76 modrm :=
  (cons_eq_rmBytes_iff.mp h).1

theorem decodeLegacyRm_eq_ok_iff {m : Mode} {p66 : Bool} {rex : Option Rex} (hrex : rexWf m rex = true) {e : Elem}
    {modrm : Byte} {bs rest : List Byte} {i : Instr} :
    decodeLegacyRm p66 rex e modrm bs = .ok (i, rest) ↔
      ∃ rm, legacyRmForm p66 e rex (bits53 modrm) rm = i ∧ WellFormed m i = true ∧
        modrm :: bs = rm.bytes (bits53 modrm) ++ rest := by
  rw [decodeLegacyRm_eq]
  constructor
  · intro h
    split_ifs at h with hr hb
    obtain ⟨rm, hrm, rfl⟩ := mapValue_eq_ok_iff.mp h
    obtain ⟨hwf, hbytes⟩ := takeRm_eq_ok_iff.mp hrm
    refine ⟨rm, rfl, wf_legacyRmForm_iff.mpr ⟨hrex, hwf, ?_, ?_⟩, hbytes⟩
    · simpa using hr
    · rw [modOfRm_of_bytes hbytes]; tauto
  · rintro ⟨rm, rfl, hwf, hbytes⟩
    obtain ⟨-, hrm, hr, hb⟩ := wf_legacyRmForm_iff.mp hwf
    rw [modOfRm_of_bytes hbytes] at hb
    rw [if_neg (by simpa using hr), if_neg (by tauto), mapValue_eq_ok_iff]
    exact ⟨rm, takeRm_eq_ok_iff.mpr ⟨hrm, hbytes⟩, rfl⟩

theorem decodeLegacyImm_eq_ok_iff {m : Mode} {p66 : Bool} {rex : Option Rex} (hrex : rexWf m rex = true) {e : Elem}
    {modrm : Byte} {bs rest : List Byte} {i : Instr} :
    decodeLegacyImm p66 rex e modrm bs = .ok (i, rest) ↔
      ∃ rm, legacyImmForm p66 e rex rm = i ∧ WellFormed m i = true ∧ modrm :: bs = rm.bytes ++ rest := by
  rw [decodeLegacyImm_eq]
  constructor
  · intro h
    split_ifs at h with hreg hr hb
    obtain ⟨rm, hrm, rfl⟩ := mapValue_eq_ok_iff.mp h
    obtain ⟨hwf, hbytes⟩ := (takeImm_eq_ok_iff (not_not.mp hreg)).mp hrm
    obtain ⟨-, hmod, -⟩ := cons_eq_immBytes_iff.mp hbytes
    refine ⟨rm, rfl, wf_legacyImmForm_iff.mpr ⟨hrex, hwf, by simpa using hr, ?_⟩, hbytes⟩
    rw [hmod]; tauto
  · rintro ⟨rm, rfl, hwf, hbytes⟩
    obtain ⟨-, hrm, hr, hb⟩ := wf_legacyImmForm_iff.mp hwf
    obtain ⟨hreg, hmod, -⟩ := cons_eq_immBytes_iff.mp hbytes
    rw [hmod] at hb
    rw [if_neg (not_not.mpr hreg), if_neg (by simp [hr]), if_neg (by tauto), mapValue_eq_ok_iff]
    exact ⟨rm, (takeImm_eq_ok_iff hreg).mpr ⟨hrm, hbytes⟩, rfl⟩

theorem decodeVexOperands_rm_eq_ok_iff {m : Mode} {vex : Vex} (hvex : vex.wf m = true) {l : Bool} {e : Elem}
    {modrm : Byte} {bs rest : List Byte} {i : Instr} :
    decodeVexOperands vex l e false modrm bs = .ok (i, rest) ↔
      ∃ rm, mkVexRm l e vex (bits53 modrm) rm = i ∧ WellFormed m i = true ∧
        modrm :: bs = rm.bytes (bits53 modrm) ++ rest := by
  rw [decodeVexOperands, if_neg Bool.false_ne_true, mapValue_eq_ok_iff]
  constructor
  · rintro ⟨rm, hrm, rfl⟩
    obtain ⟨hwf, hbytes⟩ := takeRm_eq_ok_iff.mp hrm
    exact ⟨rm, rfl, wf_vexRmForm_iff.mpr ⟨hvex, hwf⟩, hbytes⟩
  · rintro ⟨rm, rfl, hwf, hbytes⟩
    exact ⟨rm, takeRm_eq_ok_iff.mpr ⟨(wf_vexRmForm_iff.mp hwf).2, hbytes⟩, rfl⟩

theorem decodeVexOperands_imm_eq_ok_iff {m : Mode} {vex : Vex} (hvex : vex.wf m = true) {l : Bool} {e : Elem}
    {modrm : Byte} {bs rest : List Byte} {i : Instr} :
    decodeVexOperands vex l e true modrm bs = .ok (i, rest) ↔
      ∃ rm, mkVexImm l e vex rm = i ∧ WellFormed m i = true ∧ modrm :: bs = rm.bytes ++ rest := by
  rw [decodeVexOperands, if_pos rfl]
  constructor
  · intro h
    split_ifs at h with hreg hr
    obtain ⟨rm, hrm, rfl⟩ := mapValue_eq_ok_iff.mp h
    obtain ⟨hwf, hbytes⟩ := (takeImm_eq_ok_iff (not_not.mp hreg)).mp hrm
    exact ⟨rm, rfl, wf_vexImmForm_iff.mpr ⟨hvex, by simpa using hr, hwf⟩, hbytes⟩
  · rintro ⟨rm, rfl, hwf, hbytes⟩
    obtain ⟨-, hr, hrm⟩ := wf_vexImmForm_iff.mp hwf
    obtain ⟨hreg, -⟩ := cons_eq_immBytes_iff.mp hbytes
    rw [if_neg (not_not.mpr hreg), if_neg (by simp [hr]), mapValue_eq_ok_iff]
    exact ⟨rm, (takeImm_eq_ok_iff hreg).mpr ⟨hrm, hbytes⟩, rfl⟩

/-- What is read after the escape byte: a well-formed instruction with these prefixes, its opcode and its operands. -/
theorem decodeAfterEscape_eq_ok_iff {m : Mode} {p66 : Bool} {rex : Option Rex} (hrex : rexWf m rex = true) {op : Byte}
    {tail rest : List Byte} {i : Instr} :
    decodeAfterEscape p66 rex (op :: tail) = .ok (i, rest) ↔
      WellFormed m i = true ∧ ∃ operands, LegacyForm p66 rex i op operands ∧ tail = operands ++ rest := by
  constructor
  · intro h
    cases hrow : opcodeRow op with
    | none => rw [decodeAfterEscape_unlisted hrow] at h; cases h
    | some row =>
      obtain ⟨e, imm⟩ := row
      obtain rfl := opcodeRow_eq_some hrow
      cases tail with
      | nil => rw [decodeAfterEscape_nil hrow] at h; cases h
      | cons modrm bs =>
        rw [decodeAfterEscape_cons hrow] at h
        cases imm with
        | false =>
          obtain ⟨rm, rfl, hwf, hbytes⟩ := (decodeLegacyRm_eq_ok_iff hrex).mp h
          exact ⟨hwf, _, .rm e _ rm, hbytes⟩
        | true =>
          obtain ⟨rm, rfl, hwf, hbytes⟩ := (decodeLegacyImm_eq_ok_iff hrex).mp h
          exact ⟨hwf, _, .imm e rm, hbytes⟩
  · rintro ⟨hwf, operands, hform, rfl⟩
    cases hform with
    | rm e reg rm =>
      rw [rmOperand_bytes, List.cons_append, decodeAfterEscape_cons (opcodeRow_opcodeByte e false)]
      refine (decodeLegacyRm_eq_ok_iff hrex).mpr ⟨rm, ?_, hwf, ?_⟩ <;> rw [bits53_packModRm]
      rw [rmOperand_bytes, List.cons_append]
    | imm e rm =>
      rw [immOperand_bytes, List.cons_append, decodeAfterEscape_cons (opcodeRow_opcodeByte e true)]
      exact (decodeLegacyImm_eq_ok_iff hrex).mpr ⟨rm, rfl, hwf, by rw [immOperand_bytes, List.cons_append]⟩

/-- What is read after the bytes of `vex`. -/
theorem decodeVexOpcode_eq_ok_iff {m : Mode} {vex : Vex} (hvex : vex.wf m = true) {l : Bool} {op : Byte}
    {tail rest : List Byte} {i : Instr} :
    decodeVexOpcode vex l (op :: tail) = .ok (i, rest) ↔
      WellFormed m i = true ∧ ∃ operands, VexForm l vex i op operands ∧ tail = operands ++ rest := by
  constructor
  · intro h
    cases hrow : opcodeRow op with
    | none => rw [decodeVexOpcode_unlisted hrow] at h; cases h
    | some row =>
      obtain ⟨e, imm⟩ := row
      obtain rfl := opcodeRow_eq_some hrow
      cases tail with
      | nil => rw [decodeVexOpcode_nil hrow] at h; cases h
      | cons modrm bs =>
        rw [decodeVexOpcode_cons hrow] at h
        cases imm with
        | false =>
          obtain ⟨rm, rfl, hwf, hbytes⟩ := (decodeVexOperands_rm_eq_ok_iff hvex).mp h
          exact ⟨hwf, _, .rm e _ rm, hbytes⟩
        | true =>
          obtain ⟨rm, rfl, hwf, hbytes⟩ := (decodeVexOperands_imm_eq_ok_iff hvex).mp h
          exact ⟨hwf, _, .imm e rm, hbytes⟩
  · rintro ⟨hwf, operands, hform, rfl⟩
    cases hform with
    | rm e reg rm =>
      rw [rmOperand_bytes, List.cons_append, decodeVexOpcode_cons (opcodeRow_opcodeByte e false)]
      refine (decodeVexOperands_rm_eq_ok_iff hvex).mpr ⟨rm, ?_, hwf, ?_⟩ <;> rw [bits53_packModRm]
      rw [rmOperand_bytes, List.cons_append]
    | imm e rm =>
      rw [immOperand_bytes, List.cons_append, decodeVexOpcode_cons (opcodeRow_opcodeByte e true)]
      exact (decodeVexOperands_imm_eq_ok_iff hvex).mpr ⟨rm, rfl, hwf, by rw [immOperand_bytes, List.cons_append]⟩

/-! ## The legacy prefixes -/

/-- A byte whose high nibble is not 4 is no REX byte. -/
theorem rexByte_ne {b : Byte} (h : b.extractLsb' 4 4 ≠ 4#4) (rex : Rex) : rexByte rex ≠ b := by
  rintro rfl
  exact h (highNibble_rexByte rex)

theorem decode_of_ne_vex {b : Byte} (h4 : b ≠ 0xC4#8) (h5 : b ≠ 0xC5#8) (m : Mode) (bs : List Byte) :
    decode m (b :: bs) = decodeLegacy m (b :: bs) := by
  simp only [decode, h4, h5, or_self, if_false]

theorem decodeLegacy_66 (m : Mode) (bs : List Byte) : decodeLegacy m (0x66#8 :: bs) = decodeRex m true bs := rfl

theorem decodeLegacy_of_ne_66 {b : Byte} (h : b ≠ 0x66#8) (m : Mode) (bs : List Byte) :
    decodeLegacy m (b :: bs) = decodeRex m false (b :: bs) := by
  simp only [decodeLegacy, h, if_false]

theorem decodeRex_rexByte (p66 : Bool) (rex : Rex) (bs : List Byte) :
    decodeRex .mode64 p66 (rexByte rex :: bs) = decodeEscape .mode64 p66 (some rex) bs := by
  simp only [decodeRex, highNibble_rexByte, rexOf_rexByte, and_self, if_true]

theorem decodeRex_of_ne_rex {m : Mode} {b : Byte} (h : m = .mode32 ∨ b.extractLsb' 4 4 ≠ 4#4) (p66 : Bool)
    (bs : List Byte) : decodeRex m p66 (b :: bs) = decodeEscape m p66 none (b :: bs) := by
  rw [decodeRex, if_neg]
  rintro ⟨rfl, hb⟩
  exact h.elim nofun (· hb)

theorem decodeEscape_0F (m : Mode) (p66 : Bool) (rex : Option Rex) (bs : List Byte) :
    decodeEscape m p66 rex (0x0F#8 :: bs) = decodeAfterEscape p66 rex bs := rfl

theorem decodeEscape_of_ne_0F {b : Byte} (h : b ≠ 0x0F#8) (m : Mode) (p66 : Bool) (rex : Option Rex) (bs : List Byte) :
    decodeEscape m p66 rex (b :: bs) = .error (escapeRefusal m (p66 || rex.isSome) b) := by
  rw [decodeEscape, if_neg h]

/-- The bytes of the legacy prefixes are read as these prefixes. -/
theorem decode_legacyBytes {m : Mode} {rex : Option Rex} (hrex : rexWf m rex = true) (p66 : Bool) (op : Byte)
    (tail : List Byte) : decode m (legacyBytes p66 rex op tail) = decodeAfterEscape p66 rex (op :: tail) := by
  cases rex with
  | none =>
    have hesc (q : Bool) : decodeRex m q (0x0F#8 :: op :: tail) = decodeAfterEscape q none (op :: tail) := by
      rw [decodeRex_of_ne_rex (.inr (by decide)), decodeEscape_0F]
    cases p66 with
    | false => exact hesc false
    | true => exact hesc true
  | some r =>
    obtain rfl : m = .mode64 := by simpa [rexWf] using hrex
    cases p66 with
    | false =>
      calc decode .mode64 (rexByte r :: 0x0F#8 :: op :: tail)
          = decodeLegacy .mode64 (rexByte r :: 0x0F#8 :: op :: tail) :=
            decode_of_ne_vex (rexByte_ne (by decide) r) (rexByte_ne (by decide) r) _ _
        _ = decodeRex .mode64 false (rexByte r :: 0x0F#8 :: op :: tail) :=
            decodeLegacy_of_ne_66 (rexByte_ne (by decide) r) _ _
        _ = decodeAfterEscape false (some r) (op :: tail) := by rw [decodeRex_rexByte, decodeEscape_0F]
    | true => exact (decodeRex_rexByte true r _).trans (decodeEscape_0F ..)

theorem decodeEscape_ok {m : Mode} {p66 : Bool} {rex : Option Rex} {bs : List Byte} {r : Instr × List Byte}
    (h : decodeEscape m p66 rex bs = .ok r) :
    ∃ op tail, bs = 0x0F#8 :: op :: tail ∧ decodeAfterEscape p66 rex (op :: tail) = .ok r := by
  match bs with
  | [] => cases h
  | b :: bs =>
    by_cases hb : b = 0x0F#8
    · rw [hb, decodeEscape_0F] at h
      match bs with
      | [] => cases h
      | op :: tail => exact ⟨op, tail, by rw [hb], h⟩
    · rw [decodeEscape_of_ne_0F hb] at h; cases h

theorem decodeRex_ok {m : Mode} {p66 : Bool} {bs : List Byte} {r : Instr × List Byte} (h : decodeRex m p66 bs = .ok r) :
    ∃ rex op tail, rexWf m rex = true ∧ (if p66 then [0x66#8] else []) ++ bs = legacyBytes p66 rex op tail ∧
      decodeAfterEscape p66 rex (op :: tail) = .ok r := by
  match bs with
  | [] => cases h
  | b :: bs =>
    by_cases hb : m = .mode64 ∧ b.extractLsb' 4 4 = 4#4
    · rw [decodeRex, if_pos hb] at h
      obtain ⟨op, tail, rfl, hop⟩ := decodeEscape_ok h
      refine ⟨some (rexOf b), op, tail, by simp [rexWf, hb.1], ?_, hop⟩
      simp [legacyBytes, rexByte_rexOf hb.2]
    · rw [decodeRex, if_neg hb] at h
      obtain ⟨op, tail, hbs, hop⟩ := decodeEscape_ok h
      exact ⟨none, op, tail, rfl, by simp [legacyBytes, hbs], hop⟩

/-- Bytes that the legacy shape reads start with its prefixes. -/
theorem decodeLegacy_ok {m : Mode} {bs : List Byte} {r : Instr × List Byte} (h : decodeLegacy m bs = .ok r) :
    ∃ p66 rex op tail, rexWf m rex = true ∧ bs = legacyBytes p66 rex op tail ∧
      decodeAfterEscape p66 rex (op :: tail) = .ok r := by
  match bs with
  | [] => cases h
  | b :: bs =>
    by_cases hb : b = 0x66#8
    · rw [hb, decodeLegacy_66] at h
      obtain ⟨rex, op, tail, hrex, hbs, hop⟩ := decodeRex_ok h
      exact ⟨true, rex, op, tail, hrex, by rw [← hbs, hb]; rfl, hop⟩
    · rw [decodeLegacy_of_ne_66 hb] at h
      obtain ⟨rex, op, tail, hrex, hbs, hop⟩ := decodeRex_ok h
      exact ⟨false, rex, op, tail, hrex, hbs, hop⟩

/-! ## The VEX prefixes -/

/-- The last byte of VEX2 and VEX3 with `pp = 01`: its top bit, `vvvv` stored inverted, and `L` (R60). -/
def vexLastByte (top : Bool) (v : BitVec 4) (l : Bool) : Byte :=
  (BitVec.ofBool top ++ ~~~v ++ BitVec.ofBool l ++ 1#2 : BitVec 8)

/-- The second byte of VEX3 with `mmmmm = 00001` (R60). -/
def vex3MapByte (r x b : Bool) : Byte :=
  (BitVec.ofBool (!r) ++ BitVec.ofBool (!x) ++ BitVec.ofBool (!b) ++ 1#5 : BitVec 8)

theorem vex2_bytes (l r : Bool) (v : BitVec 4) : (Vex.vex2 r v).bytes l = [0xC5#8, vexLastByte (!r) v l] := rfl

theorem vex3_bytes (l r x b w : Bool) (v : BitVec 4) :
    (Vex.vex3 r x b w v).bytes l = [0xC4#8, vex3MapByte r x b, vexLastByte w v l] := rfl

/-- The fields of the last byte read back. -/
theorem vexLastByte_fields : ∀ (top : Bool) (v : BitVec 4) (l : Bool),
    (vexLastByte top v l).getLsbD 7 = top ∧ vexVvvv (vexLastByte top v l) = v ∧ vexL (vexLastByte top v l) = l ∧
      vexPp (vexLastByte top v l) = 1#2 ∧ (bits76 (vexLastByte top v l) = 3#2 ↔ top = true ∧ v.getLsbD 3 = false) := by
  decide

/-- A byte with `pp = 01` is that byte of its fields. -/
theorem vexLastByte_of_fields {b : Byte} (h : vexPp b = 1#2) : vexLastByte (b.getLsbD 7) (vexVvvv b) (vexL b) = b := by
  revert h b; decide

theorem vex3MapByte_fields : ∀ r x b : Bool,
    (vex3MapByte r x b).getLsbD 7 = !r ∧ (vex3MapByte r x b).getLsbD 6 = !x ∧ (vex3MapByte r x b).getLsbD 5 = !b ∧
      (vex3MapByte r x b).extractLsb' 0 5 = 1#5 ∧ (bits76 (vex3MapByte r x b) = 3#2 ↔ r = false ∧ x = false) := by
  decide

theorem vex3MapByte_of_fields {b : Byte} (h : b.extractLsb' 0 5 = 1#5) :
    vex3MapByte (!b.getLsbD 7) (!b.getLsbD 6) (!b.getLsbD 5) = b := by
  revert h b; decide

/-- In mode64, and in mode32 with bits 7:6 of the next byte set, `C5` begins VEX2 (R61 (d)). -/
theorem decode_C5 {m : Mode} {b1 : Byte} (h : m = .mode64 ∨ bits76 b1 = 3#2) (bs : List Byte) :
    decode m (0xC5#8 :: b1 :: bs) = decodeVex2 b1 bs := by
  simp [decode, h]

theorem decode_C4 {m : Mode} {b1 : Byte} (h : m = .mode64 ∨ bits76 b1 = 3#2) (bs : List Byte) :
    decode m (0xC4#8 :: b1 :: bs) = decodeVex3 b1 bs := by
  simp [decode, h]

/-- Bytes that do not begin with VEX2 or VEX3 are read in the legacy shape. -/
theorem decode_of_not_vex {m : Mode} {b b1 : Byte}
    (h : ¬((b = 0xC4#8 ∨ b = 0xC5#8) ∧ (m = .mode64 ∨ bits76 b1 = 3#2))) (bs : List Byte) :
    decode m (b :: b1 :: bs) = decodeLegacy m (b :: b1 :: bs) := by
  by_cases hb : b = 0xC4#8 ∨ b = 0xC5#8
  · simp only [decode, hb, if_true, if_neg fun hm => h ⟨hb, hm⟩]
  · simp only [decode, hb, if_false]

theorem mode64_or_vex2_wf_iff {m : Mode} {r : Bool} {v : BitVec 4} {l : Bool} :
    (m = .mode64 ∨ bits76 (vexLastByte (!r) v l) = 3#2) ↔ (Vex.vex2 r v).wf m = true := by
  obtain ⟨-, -, -, -, h⟩ := vexLastByte_fields (!r) v l
  rw [h]
  simp [Vex.wf]

theorem mode64_or_vex3_wf_iff {m : Mode} {r x b w : Bool} {v : BitVec 4} :
    (m = .mode64 ∨ bits76 (vex3MapByte r x b) = 3#2) ↔ (Vex.vex3 r x b w v).wf m = true := by
  obtain ⟨-, -, -, -, h⟩ := vex3MapByte_fields r x b
  rw [h]
  simp [Vex.wf]

/-- The bytes of VEX2 and VEX3 are read as what they spell. -/
theorem decode_vexFormBytes {m : Mode} {vex : Vex} (hvex : vex.wf m = true) (l : Bool) (op : Byte) (tail : List Byte) :
    decode m (vexFormBytes l vex op tail) = decodeVexOpcode vex l (op :: tail) := by
  cases vex with
  | vex2 r v =>
    obtain ⟨hr, hv, hl, hpp, -⟩ := vexLastByte_fields (!r) v l
    calc decode m (0xC5#8 :: vexLastByte (!r) v l :: op :: tail)
        = decodeVex2 (vexLastByte (!r) v l) (op :: tail) := decode_C5 (mode64_or_vex2_wf_iff.mpr hvex) _
      _ = decodeVexOpcode (.vex2 r v) l (op :: tail) := by
        rw [decodeVex2, if_neg (not_not.mpr hpp), hr, hv, hl, Bool.not_not]
  | vex3 r x b w v =>
    obtain ⟨hw, hv, hl, hpp, -⟩ := vexLastByte_fields w v l
    obtain ⟨hr, hx, hb, hmap, -⟩ := vex3MapByte_fields r x b
    calc decode m (0xC4#8 :: vex3MapByte r x b :: vexLastByte w v l :: op :: tail)
        = decodeVex3 (vex3MapByte r x b) (vexLastByte w v l :: op :: tail) :=
          decode_C4 (mode64_or_vex3_wf_iff.mpr hvex) _
      _ = decodeVexOpcode (.vex3 r x b w v) l (op :: tail) := by
        rw [decodeVex3, if_neg (not_not.mpr hmap), if_neg (not_not.mpr hpp), hr, hx, hb, hw, hv, hl]
        simp only [Bool.not_not]

theorem decodeVexOpcode_ok {vex : Vex} {l : Bool} {bs : List Byte} {r : Instr × List Byte}
    (h : decodeVexOpcode vex l bs = .ok r) : ∃ op tail, bs = op :: tail := by
  match bs with
  | [] => cases h
  | op :: tail => exact ⟨op, tail, rfl⟩

theorem decodeVex2_ok {m : Mode} {b1 : Byte} (hm : m = .mode64 ∨ bits76 b1 = 3#2) {bs : List Byte}
    {r : Instr × List Byte} (h : decodeVex2 b1 bs = .ok r) :
    ∃ l vex op tail, vex.wf m = true ∧ 0xC5#8 :: b1 :: bs = vexFormBytes l vex op tail ∧
      decodeVexOpcode vex l (op :: tail) = .ok r := by
  rw [decodeVex2] at h
  split_ifs at h with hpp
  obtain ⟨op, tail, rfl⟩ := decodeVexOpcode_ok h
  have hb1 : vexLastByte (!!b1.getLsbD 7) (vexVvvv b1) (vexL b1) = b1 := by
    rw [Bool.not_not, vexLastByte_of_fields (not_not.mp hpp)]
  refine ⟨_, _, op, tail, ?_, ?_, h⟩
  · rwa [← mode64_or_vex2_wf_iff (l := vexL b1), hb1]
  · rw [vexFormBytes, vex2_bytes, hb1]; rfl

theorem decodeVex3_ok {m : Mode} {b1 : Byte} (hm : m = .mode64 ∨ bits76 b1 = 3#2) {bs : List Byte}
    {r : Instr × List Byte} (h : decodeVex3 b1 bs = .ok r) :
    ∃ l vex op tail, vex.wf m = true ∧ 0xC4#8 :: b1 :: bs = vexFormBytes l vex op tail ∧
      decodeVexOpcode vex l (op :: tail) = .ok r := by
  match bs with
  | [] => cases h
  | b2 :: bs =>
    rw [decodeVex3] at h
    split_ifs at h with hmap hpp
    have hb1 := vex3MapByte_of_fields (not_not.mp hmap)
    obtain ⟨op, tail, rfl⟩ := decodeVexOpcode_ok h
    refine ⟨_, _, op, tail, ?_, ?_, h⟩
    · rwa [← mode64_or_vex3_wf_iff, hb1]
    · rw [vexFormBytes, vex3_bytes, hb1, vexLastByte_of_fields (not_not.mp hpp)]; rfl

/-- Bytes that the decoder reads start with the prefixes of one of the two shapes. -/
theorem decode_ok {m : Mode} {bs : List Byte} {r : Instr × List Byte} (h : decode m bs = .ok r) :
    (∃ p66 rex op tail, rexWf m rex = true ∧ bs = legacyBytes p66 rex op tail ∧
      decodeAfterEscape p66 rex (op :: tail) = .ok r) ∨
    ∃ l vex op tail, vex.wf m = true ∧ bs = vexFormBytes l vex op tail ∧ decodeVexOpcode vex l (op :: tail) = .ok r := by
  match bs with
  | [] => cases h
  | [b] =>
    by_cases hvex : b = 0xC4#8 ∨ b = 0xC5#8
    · simp [decode, hvex] at h
    · rw [decode_of_ne_vex (fun h4 => hvex (.inl h4)) (fun h5 => hvex (.inr h5))] at h
      exact .inl (decodeLegacy_ok h)
  | b :: b1 :: bs =>
    by_cases hvex : (b = 0xC4#8 ∨ b = 0xC5#8) ∧ (m = .mode64 ∨ bits76 b1 = 3#2)
    · obtain ⟨rfl | rfl, hm⟩ := hvex
      · exact .inr (decodeVex3_ok hm (decode_C4 hm bs ▸ h))
      · exact .inr (decodeVex2_ok hm (decode_C5 hm bs ▸ h))
    · rw [decode_of_not_vex hvex] at h
      exact .inl (decodeLegacy_ok h)

/-! ## The round trip -/

/-- What the decoder answers, in one equivalence: a well-formed instruction, of which the bytes are the encoding. -/
theorem decode_eq_ok_iff {m : Mode} {bytes rest : List Byte} {i : Instr} :
    decode m bytes = .ok (i, rest) ↔ WellFormed m i = true ∧ bytes = encode i ++ rest := by
  constructor
  · intro h
    rcases decode_ok h with ⟨p66, rex, op, tail, hrex, rfl, hop⟩ | ⟨l, vex, op, tail, hvex, rfl, hop⟩
    · obtain ⟨hwf, operands, hform, rfl⟩ := (decodeAfterEscape_eq_ok_iff hrex).mp hop
      exact ⟨hwf, by simp [encode_of_legacyForm hform, legacyBytes]⟩
    · obtain ⟨hwf, operands, hform, rfl⟩ := (decodeVexOpcode_eq_ok_iff hvex).mp hop
      exact ⟨hwf, by simp [encode_of_vexForm hform, vexFormBytes]⟩
  · rintro ⟨hwf, rfl⟩
    rcases instr_form i with ⟨p66, rex, op, operands, hform⟩ | ⟨l, vex, op, operands, hform⟩
    · have hrex := rexWf_of_legacyForm hform hwf
      calc decode m (encode i ++ rest)
          = decode m (legacyBytes p66 rex op (operands ++ rest)) := by
            simp [encode_of_legacyForm hform, legacyBytes]
        _ = decodeAfterEscape p66 rex (op :: (operands ++ rest)) := decode_legacyBytes hrex ..
        _ = .ok (i, rest) := (decodeAfterEscape_eq_ok_iff hrex).mpr ⟨hwf, operands, hform, rfl⟩
    · have hvex := vexWf_of_vexForm hform hwf
      calc decode m (encode i ++ rest)
          = decode m (vexFormBytes l vex op (operands ++ rest)) := by
            simp [encode_of_vexForm hform, vexFormBytes]
        _ = decodeVexOpcode vex l (op :: (operands ++ rest)) := decode_vexFormBytes hvex ..
        _ = .ok (i, rest) := (decodeVexOpcode_eq_ok_iff hvex).mpr ⟨hwf, operands, hform, rfl⟩

/-- Settles O1, by the equivalence of the round trip. -/
theorem decodeOfEncodeGivesTheInstruction : Obligations.DecodeOfEncodeGivesTheInstruction :=
  fun _ _ _ hwf => decode_eq_ok_iff.mpr ⟨hwf, rfl⟩

/-- Settles O2, by its other direction. -/
theorem decodedBytesAreTheEncoding : Obligations.DecodedBytesAreTheEncoding :=
  fun _ _ _ _ h => decode_eq_ok_iff.mp h

end Sys2Proof.Proofs

/-! # Bytes that break off, and bytes that are refused -/

namespace Sys2Proof.Proofs

open Machine Safety

/-! ## Readers that more bytes do not change

A reader that does not run out of bytes answers the same when more bytes follow. So an encoding that is cut short can
only be refused as truncated: another answer would be that of the whole encoding, which leaves nothing over. -/

/-- More bytes after those that a decoding step has left. -/
def withMore {α : Type} (ext : List Byte) : Decoded α → Decoded α
  | .error e => .error e
  | .ok (x, rest) => .ok (x, rest ++ ext)

/-- Unless `f` finds too few bytes, more bytes after them are left over and change nothing else. -/
def ReadsOn {α : Type} (f : List Byte → Decoded α) : Prop :=
  ∀ bs ext, f bs = .error .truncated ∨ f (bs ++ ext) = withMore ext (f bs)

section ReadsOn

variable {α β : Type} {f g : List Byte → Decoded α}

theorem readsOn_error (e : DecodeRefusal) : ReadsOn fun _ => (.error e : Decoded α) := fun _ _ => .inr rfl

theorem readsOn_ok (x : α) : ReadsOn fun bs => (.ok (x, bs) : Decoded α) := fun _ _ => .inr rfl

/-- A reader of one byte and then more. -/
theorem readsOn_of_cons (hnil : f [] = .error .truncated) (hcons : ∀ b, ReadsOn fun bs => f (b :: bs)) : ReadsOn f := by
  intro bs ext
  cases bs with
  | nil => exact .inl hnil
  | cons b bs => exact hcons b bs ext

theorem ReadsOn.cons (h : ReadsOn f) (b : Byte) : ReadsOn fun bs => f (b :: bs) := fun bs ext => h (b :: bs) ext

theorem ReadsOn.ite {c : Prop} [Decidable c] (hf : ReadsOn f) (hg : ReadsOn g) :
    ReadsOn fun bs => if c then f bs else g bs := by
  by_cases hc : c
  · simpa only [hc, if_true] using hf
  · simpa only [hc, if_false] using hg

theorem ReadsOn.mapValue (h : ReadsOn f) (k : α → β) : ReadsOn fun bs => mapValue k (f bs) := by
  intro bs ext
  rcases h bs ext with h | h <;> dsimp only <;> rw [h]
  · exact .inl rfl
  · cases f bs <;> exact .inr rfl

end ReadsOn

theorem readsOn_takeDisp32 : ReadsOn takeDisp32 := by
  rintro (_ | ⟨b0, _ | ⟨b1, _ | ⟨b2, _ | ⟨b3, bs⟩⟩⟩⟩) ext
  case cons.cons.cons.cons => exact .inr rfl
  all_goals exact .inl rfl

theorem readsOn_takeDisp {mod : BitVec 2} (hmod : mod ≠ 3#2) : ReadsOn (takeDisp mod) := by
  rcases mod_cases hmod with rfl | rfl | rfl
  · exact readsOn_ok Disp.none
  · exact readsOn_of_cons rfl fun d => readsOn_ok (Disp.disp8 d)
  · rw [funext takeDisp_two]
    exact readsOn_takeDisp32.mapValue Disp.disp32

theorem readsOn_takeMem {mod : BitVec 2} (hmod : mod ≠ 3#2) (rm : BitVec 3) : ReadsOn (takeMem mod rm) := by
  by_cases hrm : rm = 4#3
  · refine readsOn_of_cons (by rw [hrm]; rfl) fun b => ?_
    simp only [hrm, takeMem_of_sib, takeSib_cons]
    exact (readsOn_takeDisp32.mapValue _).ite ((readsOn_takeDisp hmod).mapValue _)
  · rw [funext (takeMem_of_not_sib hrm)]
    exact (readsOn_takeDisp32.mapValue _).ite ((readsOn_takeDisp hmod).mapValue _)

theorem readsOn_takeRm (modrm : Byte) : ReadsOn (takeRm modrm) := by
  by_cases h : bits76 modrm = 3#2
  · rw [funext (takeRm_of_reg h)]
    exact readsOn_ok _
  · rw [funext (takeRm_of_mem h)]
    exact (readsOn_takeMem h _).mapValue _

theorem readsOn_takeImm (modrm : Byte) : ReadsOn (takeImm modrm) := by
  by_cases h : bits76 modrm = 3#2
  · refine readsOn_of_cons (by rw [takeImm_of_reg_nil h]) fun imm8 => ?_
    simp only [takeImm_of_reg h]
    exact readsOn_ok _
  · rw [funext (takeImm_of_mem h)]
    exact readsOn_ok _

theorem readsOn_decodeLegacyOperands (p66 : Bool) (rex : Option Rex) (e : Elem) (imm : Bool) (modrm : Byte) :
    ReadsOn (decodeLegacyOperands p66 rex e imm modrm) := by
  unfold decodeLegacyOperands
  simp only [decodeLegacyImm_eq, decodeLegacyRm_eq]
  exact ((readsOn_error _).ite ((readsOn_error _).ite ((readsOn_error _).ite ((readsOn_takeImm _).mapValue _)))).ite
    ((readsOn_error _).ite ((readsOn_error _).ite ((readsOn_takeRm _).mapValue _)))

theorem readsOn_decodeVexOperands (vex : Vex) (l : Bool) (e : Elem) (imm : Bool) (modrm : Byte) :
    ReadsOn (decodeVexOperands vex l e imm modrm) := by
  unfold decodeVexOperands
  exact ((readsOn_error _).ite ((readsOn_error _).ite ((readsOn_takeImm _).mapValue _))).ite
    ((readsOn_takeRm _).mapValue _)

theorem readsOn_decodeAfterEscape (p66 : Bool) (rex : Option Rex) : ReadsOn (decodeAfterEscape p66 rex) := by
  refine readsOn_of_cons rfl fun op => ?_
  cases h : opcodeRow op with
  | none => simpa only [decodeAfterEscape_unlisted h] using readsOn_error _
  | some row =>
    refine readsOn_of_cons (decodeAfterEscape_nil h p66 rex) fun modrm => ?_
    simpa only [decodeAfterEscape_cons h] using readsOn_decodeLegacyOperands p66 rex row.1 row.2 modrm

theorem readsOn_decodeVexOpcode (vex : Vex) (l : Bool) : ReadsOn (decodeVexOpcode vex l) := by
  refine readsOn_of_cons rfl fun op => ?_
  cases h : opcodeRow op with
  | none => simpa only [decodeVexOpcode_unlisted h] using readsOn_error _
  | some row =>
    refine readsOn_of_cons (decodeVexOpcode_nil h vex l) fun modrm => ?_
    simpa only [decodeVexOpcode_cons h] using readsOn_decodeVexOperands vex l row.1 row.2 modrm

theorem readsOn_decodeEscape (m : Mode) (p66 : Bool) (rex : Option Rex) : ReadsOn (decodeEscape m p66 rex) :=
  readsOn_of_cons rfl fun _ => (readsOn_decodeAfterEscape p66 rex).ite (readsOn_error _)

theorem readsOn_decodeRex (m : Mode) (p66 : Bool) : ReadsOn (decodeRex m p66) :=
  readsOn_of_cons rfl fun b => (readsOn_decodeEscape m p66 _).ite ((readsOn_decodeEscape m p66 none).cons b)

theorem readsOn_decodeLegacy (m : Mode) : ReadsOn (decodeLegacy m) :=
  readsOn_of_cons rfl fun b => (readsOn_decodeRex m true).ite ((readsOn_decodeRex m false).cons b)

theorem readsOn_decodeVex2 (b1 : Byte) : ReadsOn (decodeVex2 b1) :=
  (readsOn_error _).ite (readsOn_decodeVexOpcode _ _)

theorem readsOn_decodeVex3 (b1 : Byte) : ReadsOn (decodeVex3 b1) :=
  readsOn_of_cons rfl fun _ => (readsOn_error _).ite ((readsOn_error _).ite (readsOn_decodeVexOpcode _ _))

theorem readsOn_decode (m : Mode) : ReadsOn (decode m) := by
  refine readsOn_of_cons rfl fun b => ?_
  by_cases hb : b = 0xC4#8 ∨ b = 0xC5#8
  · refine readsOn_of_cons (by simp [decode, hb]) fun b1 => ?_
    by_cases hm : m = .mode64 ∨ bits76 b1 = 3#2
    · rcases hb with rfl | rfl
      · simpa only [decode_C4 hm] using readsOn_decodeVex3 b1
      · simpa only [decode_C5 hm] using readsOn_decodeVex2 b1
    · simpa only [decode_of_not_vex fun h => hm h.2] using ((readsOn_decodeLegacy m).cons b).cons b1
  · obtain ⟨h4, h5⟩ := not_or.mp hb
    simpa only [decode_of_ne_vex h4 h5] using (readsOn_decodeLegacy m).cons b

/-- Settles O60: an answer to the cut bytes that is not `truncated` would be the answer to the whole encoding, with the
bytes that were cut off left over. -/
theorem encodingsCutShortAreTruncated : Obligations.EncodingsCutShortAreTruncated := by
  intro m i k hwf hk
  have hwhole : decode m ((encode i).take k ++ (encode i).drop k) = .ok (i, []) :=
    decode_eq_ok_iff.mpr ⟨hwf, by simp⟩
  rcases readsOn_decode m ((encode i).take k) ((encode i).drop k) with h | h
  · exact h
  · rw [hwhole] at h
    cases hcut : decode m ((encode i).take k) with
    | error e => rw [hcut] at h; cases h
    | ok r =>
      rw [hcut] at h
      have hrest : [] = r.2 ++ (encode i).drop k := congrArg Prod.snd (Except.ok.inj h)
      have hdrop : (encode i).drop k = [] := (List.append_eq_nil_iff.mp hrest.symm).2
      have := List.drop_eq_nil_iff.mp hdrop
      omega

/-! ## The length of an encoding -/

theorem encode_length (i : Instr) : (encode i).length = i.length := by
  cases i with
  | psllwMmMmm64 | psllwXmmXmmm128 | pslldMmMmm64 | pslldXmmXmmm128 | psllqMmMmm64 | psllqXmmXmmm128 =>
    exact legacyRm_length ..
  | psllwMmImm8 | psllwXmmImm8 | pslldMmImm8 | pslldXmmImm8 | psllqMmImm8 | psllqXmmImm8 => exact legacyImm_length ..
  | vpsllwXmmXmmXmmm128 | vpslldXmmXmmXmmm128 | vpsllqXmmXmmXmmm128
  | vpsllwYmmYmmXmmm128 | vpslldYmmYmmXmmm128 | vpsllqYmmYmmXmmm128 => exact vexFormRm_length ..
  | vpsllwXmmXmmImm8 | vpslldXmmXmmImm8 | vpsllqXmmXmmImm8
  | vpsllwYmmYmmImm8 | vpslldYmmYmmImm8 | vpsllqYmmYmmImm8 => exact vexFormImm_length ..

theorem legacyHead_bounds (p66 : Bool) (rex : Option Rex) : 2 ≤ legacyHead p66 rex ∧ legacyHead p66 rex ≤ 4 := by
  cases p66 <;> cases rex <;> simp [legacyHead]

theorem vexHead_bounds (vex : Vex) : 3 ≤ vex.head ∧ vex.head ≤ 4 := by
  cases vex <;> simp [Vex.head]

theorem disp_length_le (d : Disp) : d.length ≤ 4 := by
  cases d <;> simp [Disp.length]

theorem rmOperand_length_bounds (rm : RmOperand) : 1 ≤ rm.length ∧ rm.length ≤ 6 := by
  rcases rm with n | (⟨_, d⟩ | _ | ⟨_, _, _, d⟩ | _)
  case mem.base => have := disp_length_le d; simp only [RmOperand.length]; omega
  case mem.sib => have := disp_length_le d; simp only [RmOperand.length]; omega
  all_goals simp [RmOperand.length]

theorem immOperand_length_bounds (rm : ImmOperand) : 1 ≤ rm.length ∧ rm.length ≤ 2 := by
  cases rm <;> simp [ImmOperand.length]

/-- Every encoding has 3 to 10 bytes (R62): 2 to 4 of prefixes and opcode, 1 to 6 of operands. -/
theorem encode_length_bounds (i : Instr) : 3 ≤ (encode i).length ∧ (encode i).length ≤ 10 := by
  rcases instr_form i with ⟨p66, rex, op, operands, hform⟩ | ⟨l, vex, op, operands, hform⟩
  · have hhead := legacyHead_bounds p66 rex
    rw [encode_of_legacyForm hform, legacyBytes_length]
    cases hform with
    | rm e reg rm => have := rmOperand_length_bounds rm; rw [RmOperand.bytes_length]; omega
    | imm e rm => have := immOperand_length_bounds rm; rw [ImmOperand.bytes_length]; omega
  · have hhead := vexHead_bounds vex
    rw [encode_of_vexForm hform, vexFormBytes_length]
    cases hform with
    | rm e reg rm => have := rmOperand_length_bounds rm; rw [RmOperand.bytes_length]; omega
    | imm e rm => have := immOperand_length_bounds rm; rw [ImmOperand.bytes_length]; omega

/-- Settles O3, from the lengths of the parts. -/
theorem encodingsAreThreeToTenBytes : Obligations.EncodingsAreThreeToTenBytes := by
  intro m i _
  obtain ⟨hmin, hmax⟩ := encode_length_bounds i
  exact ⟨hmin, hmax, encode_length i⟩

/-! ## Opcodes and extensions that are not listed -/

theorem opcodeRow_of_imm {op : Byte} (h : op ∈ [0x71#8, 0x72#8, 0x73#8]) : ∃ e, opcodeRow op = some (e, true) := by
  simp only [List.mem_cons, List.not_mem_nil, or_false] at h
  rcases h with rfl | rfl | rfl
  · exact ⟨.word, rfl⟩
  · exact ⟨.dword, rfl⟩
  · exact ⟨.qword, rfl⟩

theorem opcodeRow_of_rm {op : Byte} (h : op ∈ [0xF1#8, 0xF2#8, 0xF3#8]) : ∃ e, opcodeRow op = some (e, false) := by
  simp only [List.mem_cons, List.not_mem_nil, or_false] at h
  rcases h with rfl | rfl | rfl
  · exact ⟨.word, rfl⟩
  · exact ⟨.dword, rfl⟩
  · exact ⟨.qword, rfl⟩

theorem opcodeRow_eq_none_iff {op : Byte} :
    opcodeRow op = none ↔ op ∉ [0xF1#8, 0xF2#8, 0xF3#8, 0x71#8, 0x72#8, 0x73#8] := by
  unfold opcodeRow
  split_ifs with h1 h2 h3 h4 h5 h6 <;> simp [*]

/-- An opcode with an immediate, in the legacy shape. -/
theorem decode_legacyBytes_imm {m : Mode} {rex : Option Rex} (hrex : rexWf m rex = true) {op : Byte} {e : Elem}
    (hop : opcodeRow op = some (e, true)) (p66 : Bool) (modrm : Byte) (rest : List Byte) :
    decode m (legacyBytes p66 rex op (modrm :: rest)) = decodeLegacyImm p66 rex e modrm rest := by
  rw [decode_legacyBytes hrex, decodeAfterEscape_cons hop, decodeLegacyOperands, if_pos rfl]

/-- An opcode with an r/m operand, in the legacy shape. -/
theorem decode_legacyBytes_rm {m : Mode} {rex : Option Rex} (hrex : rexWf m rex = true) {op : Byte} {e : Elem}
    (hop : opcodeRow op = some (e, false)) (p66 : Bool) (modrm : Byte) (rest : List Byte) :
    decode m (legacyBytes p66 rex op (modrm :: rest)) = decodeLegacyRm p66 rex e modrm rest := by
  rw [decode_legacyBytes hrex, decodeAfterEscape_cons hop, decodeLegacyOperands, if_neg Bool.false_ne_true]

/-- A listed opcode, in the VEX shape. -/
theorem decode_vexFormBytes_listed {m : Mode} {vex : Vex} (hvex : vex.wf m = true) {op : Byte} {e : Elem} {imm : Bool}
    (hop : opcodeRow op = some (e, imm)) (l : Bool) (modrm : Byte) (rest : List Byte) :
    decode m (vexFormBytes l vex op (modrm :: rest)) = decodeVexOperands vex l e imm modrm rest := by
  rw [decode_vexFormBytes hvex, decodeVexOpcode_cons hop]

/-- Settles O5: the prefixes are read, and the opcode or the extension is refused. -/
theorem otherOpcodesAndExtensionsAreRefused : Obligations.OtherOpcodesAndExtensionsAreRefused := by
  intro m rest
  refine ⟨fun p66 rex op modrm hrex hop hreg => ?_, fun l vex op modrm hvex hop hreg => ?_,
    fun p66 rex op hrex hop => ?_, fun l vex op hvex hop => ?_⟩
  · obtain ⟨e, he⟩ := opcodeRow_of_imm hop
    rw [decode_legacyBytes_imm hrex he, decodeLegacyImm_eq, if_pos hreg]
  · obtain ⟨e, he⟩ := opcodeRow_of_imm hop
    rw [decode_vexFormBytes_listed hvex he, decodeVexOperands, if_pos rfl, if_pos hreg]
  · rw [decode_legacyBytes hrex, decodeAfterEscape_unlisted (opcodeRow_eq_none_iff.mpr hop)]
  · rw [decode_vexFormBytes hvex, decodeVexOpcode_unlisted (opcodeRow_eq_none_iff.mpr hop)]

/-! ## Bits that extend nothing -/

/-- Settles O8: the bit is refused before the operands are read. -/
theorem rexBitsThatExtendNothingAreRefused : Obligations.RexBitsThatExtendNothingAreRefused := by
  intro rex op modrm rest
  have hrex : rexWf .mode64 (some rex) = true := rfl
  refine ⟨fun hop hr => ?_, fun hop hr hb hmod => ?_, fun p66 hop hreg hr => ?_, fun hop hreg hr hb hmod => ?_⟩
  · obtain ⟨e, he⟩ := opcodeRow_of_rm hop
    rw [decode_legacyBytes_rm hrex he, decodeLegacyRm_eq, if_pos ⟨rfl, hr⟩]
  · obtain ⟨e, he⟩ := opcodeRow_of_rm hop
    rw [decode_legacyBytes_rm hrex he, decodeLegacyRm_eq, if_neg (by simp [rexR, hr]), if_pos ⟨rfl, hb, hmod⟩]
  · obtain ⟨e, he⟩ := opcodeRow_of_imm hop
    rw [decode_legacyBytes_imm hrex he, decodeLegacyImm_eq, if_neg (not_not.mpr hreg),
      if_pos (show rexR (some rex) = true from hr)]
  · obtain ⟨e, he⟩ := opcodeRow_of_imm hop
    rw [decode_legacyBytes_imm hrex he, decodeLegacyImm_eq, if_neg (not_not.mpr hreg), if_neg (by simp [rexR, hr]),
      if_pos ⟨rfl, hb, hmod⟩]

/-! ## Immediate forms with `mod` other than 11 -/

theorem immMemForm_legacyImmForm (p66 : Bool) (e : Elem) (rex : Option Rex) (mod : BitVec 2) (rm : BitVec 3) :
    immMemForm (legacyImmForm p66 e rex (.memForm mod rm)) = true := by
  cases p66 <;> cases e <;> rfl

theorem immMemForm_mkVexImm (l : Bool) (e : Elem) (vex : Vex) (mod : BitVec 2) (rm : BitVec 3) :
    immMemForm (mkVexImm l e vex (.memForm mod rm)) = true := by
  cases l <;> cases e <;> rfl

/-- Settles O32: after the ModRM byte nothing is read. -/
theorem immediateFormWithMemoryModRmIsDecoded : Obligations.ImmediateFormWithMemoryModRmIsDecoded := by
  intro m op modrm rest hop hmod hreg
  obtain ⟨e, he⟩ := opcodeRow_of_imm hop
  refine ⟨fun p66 rex hrex hr => ⟨_, ?_, immMemForm_legacyImmForm p66 e rex (bits76 modrm) (bits20 modrm)⟩,
    fun l vex hvex hr => ⟨_, ?_, immMemForm_mkVexImm l e vex (bits76 modrm) (bits20 modrm)⟩⟩
  · rw [decode_legacyBytes_imm hrex he, decodeLegacyImm_eq, if_neg (not_not.mpr hreg), if_neg (by simp [hr]),
      if_neg (by tauto), takeImm_of_mem hmod, mapValue]
  · rw [decode_vexFormBytes_listed hvex he, decodeVexOperands, if_pos rfl, if_neg (not_not.mpr hreg),
      if_neg (by simp [hr]), takeImm_of_mem hmod, mapValue]

/-- Settles O31: the check of `mod` comes first. -/
theorem immediateFormWithMemoryModRmRaisesUd : Obligations.ImmediateFormWithMemoryModRmRaisesUd := by
  intro s i h
  rw [exec_eq_runForm, instrCheck, if_pos h, runForm_check, raiseExc_eq]

/-! ## The fixed fields of VEX2 and VEX3 -/

theorem prefixOf_mkVexRm (l : Bool) (e : Elem) (vex : Vex) (reg : BitVec 3) (rm : RmOperand) :
    prefixOf (mkVexRm l e vex reg rm) = .vex vex := by
  cases l <;> cases e <;> rfl

theorem prefixOf_mkVexImm (l : Bool) (e : Elem) (vex : Vex) (rm : ImmOperand) :
    prefixOf (mkVexImm l e vex rm) = .vex vex := by
  cases l <;> cases e <;> rfl

/-- Settles O6: the fields are tested in the order map, `pp`, opcode, and `vvvv` is only kept. -/
theorem vexMapAndPpAreFixedAndVvvvIsFree : Obligations.VexMapAndPpAreFixedAndVvvvIsFree := by
  refine ⟨fun m b1 rest hm hpp => ?_, fun m b1 b2 rest hm hmap => ?_, fun m b1 b2 rest hm hmap hpp => ?_,
    fun l vvvv op modrm imm8 rest hop hmod hreg => ?_⟩
  · rw [decode_C5 hm, decodeVex2, if_pos (show vexPp b1 ≠ 1#2 from hpp), vexPp]
  · rw [decode_C4 hm, decodeVex3, if_pos hmap]
  · rw [decode_C4 hm, decodeVex3, if_neg (not_not.mpr hmap), if_pos (show vexPp b2 ≠ 1#2 from hpp), vexPp]
  · have hvex : (Vex.vex2 false vvvv).wf .mode64 = true := rfl
    cases hrow : opcodeRow op with
    | none => exact absurd hop (opcodeRow_eq_none_iff.mp hrow)
    | some row =>
      obtain ⟨e, _ | _⟩ := row
      · refine ⟨_, imm8 :: rest, ?_, prefixOf_mkVexRm l e _ (bits53 modrm) (.reg (bits20 modrm))⟩
        rw [decode_vexFormBytes_listed hvex hrow, decodeVexOperands, if_neg Bool.false_ne_true, takeRm_of_reg hmod,
          mapValue]
      · refine ⟨_, rest, ?_, prefixOf_mkVexImm l e _ (.reg (bits20 modrm) imm8)⟩
        rw [decode_vexFormBytes_listed hvex hrow, decodeVexOperands, if_pos rfl, if_neg (not_not.mpr hreg),
          if_neg (by simp [Vex.rBit]), takeImm_of_reg hmod, mapValue]

/-! ## Prefixes outside the admitted order -/

/-- A byte that R54 shuts out before the escape byte is refused where the escape byte must stand. -/
theorem decodeEscape_prefixByte {b : Byte} (h : b ∈ prefixBytes) (m : Mode) (p66 : Bool) (rex : Option Rex)
    (bs : List Byte) : decodeEscape m p66 rex (b :: bs) = .error (.prefixNotAdmitted b) := by
  have h0F : b ≠ 0x0F#8 := by rintro rfl; revert h; decide
  rw [decodeEscape_of_ne_0F h0F, escapeRefusal, if_pos (List.contains_iff_mem.mpr h)]

theorem highNibble_prefixByte {b : Byte} (h : b ∈ prefixBytes) : b.extractLsb' 4 4 ≠ 4#4 := by
  revert b; decide

/-- So it is where REX may stand. -/
theorem decodeRex_prefixByte {b : Byte} (h : b ∈ prefixBytes) (m : Mode) (p66 : Bool) (bs : List Byte) :
    decodeRex m p66 (b :: bs) = .error (.prefixNotAdmitted b) := by
  rw [decodeRex_of_ne_rex (.inr (highNibble_prefixByte h)), decodeEscape_prefixByte h]

theorem decode_66 (m : Mode) (bs : List Byte) : decode m (0x66#8 :: bs) = decodeRex m true bs := rfl

/-- What stands first in the legacy shape and is not `66`. -/
theorem decode_of_first {b : Byte} (h4 : b ≠ 0xC4#8) (h5 : b ≠ 0xC5#8) (h66 : b ≠ 0x66#8) (m : Mode) (bs : List Byte) :
    decode m (b :: bs) = decodeRex m false (b :: bs) := by
  rw [decode_of_ne_vex h4 h5, decodeLegacy_of_ne_66 h66]

/-- VEX2 or VEX3 after `66` (R61 (c)). -/
theorem decodeRex_vexByte_after_66 {b : Byte} (h : b ∈ [0xC4#8, 0xC5#8]) (m : Mode) (bs : List Byte) :
    decodeRex m true (b :: bs) = .error (.vexAfterPrefix b) := by
  simp only [List.mem_cons, List.not_mem_nil, or_false] at h
  rcases h with rfl | rfl <;> cases m <;> rfl

/-- In mode32 a byte `40H..4FH` is none of the bytes that have a name where the escape byte must stand. -/
theorem escapeRefusal_rexByte_mode32 (rex : Rex) (p : Bool) :
    escapeRefusal .mode32 p (rexByte rex) = .notEscape (rexByte rex) := by
  have hprefix : rexByte rex ∉ prefixBytes := fun h => highNibble_prefixByte h (highNibble_rexByte rex)
  have h4 : rexByte rex ≠ 0xC4#8 := rexByte_ne (by decide) rex
  have h5 : rexByte rex ≠ 0xC5#8 := rexByte_ne (by decide) rex
  simp [escapeRefusal, hprefix, h4, h5]

/-- Settles O7: each byte gets to where the escape byte must stand, and is refused there. -/
theorem prefixesOutsideTheAdmittedOrderAreRefused : Obligations.PrefixesOutsideTheAdmittedOrderAreRefused := by
  refine ⟨fun m b rest hb => ?_, fun m rest => ?_, fun rex b rest hb => ?_, fun m b rest hb => ?_, fun rex rest => ?_⟩
  · have hprefix : b ∈ prefixBytes := List.mem_append_left [0x66#8] hb
    have hfirst : b ≠ 0xC4#8 ∧ b ≠ 0xC5#8 ∧ b ≠ 0x66#8 := by clear hprefix; revert b; decide
    obtain ⟨h4, h5, h66⟩ := hfirst
    exact ⟨by rw [decode_of_first h4 h5 h66, decodeRex_prefixByte hprefix],
      by rw [decode_66, decodeRex_prefixByte hprefix]⟩
  · rw [decode_66, decodeRex_prefixByte (by decide)]
  · rw [decode_of_first (rexByte_ne (by decide) rex) (rexByte_ne (by decide) rex) (rexByte_ne (by decide) rex),
      decodeRex_rexByte, decodeEscape_prefixByte hb]
  · rw [decode_66, decodeRex_vexByte_after_66 hb]
  · rw [decode_of_first (rexByte_ne (by decide) rex) (rexByte_ne (by decide) rex) (rexByte_ne (by decide) rex),
      decodeRex_of_ne_rex (.inl rfl), decodeEscape_of_ne_0F (rexByte_ne (by decide) rex), escapeRefusal_rexByte_mode32]

end Sys2Proof.Proofs

/-! # Operands: register numbers, effective addresses, and prefixes that say the same -/

namespace Sys2Proof.Proofs

open Machine Safety Statements

/-! ## Register numbers -/

theorem toNat_regNum (ext : Bool) (n : BitVec 3) : (regNum ext n).toNat = 8 * ext.toNat + n.toNat := by
  revert ext n; decide

/-- In mode32 `vvvv` keeps its low 3 bits (R61). -/
theorem toNat_vvvvNum_mode32 (vex : Vex) : (vvvvNum .mode32 vex).toNat = (vexVvvvField vex).toNat % 8 := by
  simp only [vvvvNum, BitVec.toNat_setWidth]
  omega

/-- Settles O10, field by field. -/
theorem registerNumbersFollowTheExtensionBits : Obligations.RegisterNumbersFollowTheExtensionBits := by
  refine ⟨toNat_regNum, fun rex vex => ⟨by cases rex <;> rfl, by cases vex <;> rfl, vvvvNum_mode32_lt vex⟩,
    fun w r x b v => ⟨rfl, rfl, rfl, rfl, rfl, rfl, toNat_vvvvNum_mode32 _, toNat_vvvvNum_mode32 _⟩⟩

/-! ## The effective address as an integer

Each part of an effective address is congruent modulo `2^AW` to the integer that it stands for, and `toAw` takes the
remainder once. -/

theorem addrWidth_dvd (m : Mode) : (2 : ℤ) ^ addrWidth m ∣ 2 ^ 64 := by
  cases m <;> decide

/-- `toAw` is the remainder modulo `2^AW`. -/
theorem toNat_toAw (m : Mode) (v : Quad) : ((toAw m v).toNat : ℤ) = v.toNat % 2 ^ addrWidth m := by
  have hv := v.isLt
  cases m with
  | mode64 => simp only [toAw, addrWidth]; omega
  | mode32 => simp only [toAw, addrWidth, BitVec.toNat_setWidth]; omega

theorem toAw_modEq (m : Mode) (v : Quad) : (toAw m v).toNat ≡ v.toNat [ZMOD 2 ^ addrWidth m] := by
  rw [toNat_toAw]
  exact Int.mod_modEq ..

/-- A value known modulo `2^64` is known modulo `2^AW`. -/
theorem modEq_of_emod {m : Mode} {a b : ℤ} (h : a = b % 2 ^ 64) : a ≡ b [ZMOD 2 ^ addrWidth m] :=
  h ▸ (Int.mod_modEq b (2 ^ 64)).of_dvd (addrWidth_dvd m)

theorem add_modEq (m : Mode) (a b : Quad) : (a + b).toNat ≡ a.toNat + b.toNat [ZMOD 2 ^ addrWidth m] :=
  modEq_of_emod (by rw [BitVec.toNat_add]; norm_cast)

theorem ofNat_modEq (m : Mode) (n : Nat) : (BitVec.ofNat 64 n).toNat ≡ n [ZMOD 2 ^ addrWidth m] :=
  modEq_of_emod (by rw [BitVec.toNat_ofNat]; norm_cast)

theorem shiftLeft_modEq (m : Mode) (a : Quad) (n : Nat) :
    (a <<< n).toNat ≡ a.toNat * 2 ^ n [ZMOD 2 ^ addrWidth m] :=
  modEq_of_emod (by rw [BitVec.toNat_shiftLeft, Nat.shiftLeft_eq]; norm_cast)

theorem signExtend_modEq (m : Mode) {w : Nat} (d : BitVec w) :
    (d.signExtend 64).toNat ≡ d.toInt [ZMOD 2 ^ addrWidth m] :=
  modEq_of_emod (by rw [BitVec.signExtend, BitVec.toNat_ofInt, Int.toNat_of_nonneg (by omega)]; norm_cast)

/-- A displacement as an integer (R58). -/
def dispInt : Disp → ℤ
  | .none => 0
  | .disp8 d => d.toInt
  | .disp32 d => d.toInt

theorem dispValue_modEq (m : Mode) (d : Disp) : (dispValue m d).toNat ≡ dispInt d [ZMOD 2 ^ addrWidth m] := by
  cases d with
  | none => rfl
  | disp8 d => exact (toAw_modEq m _).trans (signExtend_modEq m d)
  | disp32 d => exact (toAw_modEq m _).trans (signExtend_modEq m d)

/-- A general register as an integer, read at width `AW` (R59). -/
def regInt (s : State) (n : BitVec 4) : ℤ := (s.x[n.toNat]'n.isLt).toNat % 2 ^ addrWidth s.cfg.mode

theorem toNat_xReg (s : State) (n : BitVec 4) : ((s.xReg n).toNat : ℤ) = regInt s n := toNat_toAw ..

/-- The scaled index as an integer; number 0100 is no index (R58). -/
def indexInt (s : State) (ext : ExtBits) (scale : BitVec 2) (index : BitVec 3) : ℤ :=
  if regNum ext.x index = 4#4 then 0 else regInt s (regNum ext.x index) * 2 ^ scale.toNat

theorem indexValue_modEq (s : State) (ext : ExtBits) (scale : BitVec 2) (index : BitVec 3) :
    (indexValue s ext scale index).toNat ≡ indexInt s ext scale index [ZMOD 2 ^ addrWidth s.cfg.mode] := by
  unfold indexValue indexInt
  split
  · rfl
  · rw [← toNat_xReg]
    exact (toAw_modEq _ _).trans (shiftLeft_modEq _ _ _)

/-- The `pc`-relative form of mode64 (R59). -/
theorem toNat_effAddr_pcRelative {s : State} (h : s.cfg.mode = .mode64) (ext : ExtBits) (len : Nat) (d : BitVec 32) :
    ((effAddr s ext len (.dispOnly d)).toNat : ℤ) = (s.pc.toNat + len + d.toInt) % 2 ^ addrWidth s.cfg.mode := by
  have haddr : effAddr s ext len (.dispOnly d) = s.pc + BitVec.ofNat 64 len + d.signExtend 64 := by
    simp only [effAddr, h]
  have hsum : (s.pc + BitVec.ofNat 64 len + d.signExtend 64).toNat ≡ s.pc.toNat + len + d.toInt
      [ZMOD 2 ^ addrWidth s.cfg.mode] :=
    (add_modEq ..).trans (((add_modEq ..).trans ((ofNat_modEq ..).add_left _)).add (signExtend_modEq ..))
  have hlt := (s.pc + BitVec.ofNat 64 len + d.signExtend 64).isLt
  rw [haddr, ← hsum.eq, h, addrWidth, Int.emod_eq_of_lt (by omega) (by omega)]

/-- Settles O11: the parts are congruent to their integers, and so is their sum. -/
theorem effectiveAddressIsBasePlusScaledIndexPlusDisp : Obligations.EffectiveAddressIsBasePlusScaledIndexPlusDisp := by
  intro s ext len scale rm index sb d d32 space reg idx disp
  have hdisp : (dispValue s.cfg.mode d).toNat ≡ disp [ZMOD space] := by
    cases d <;> exact dispValue_modEq s.cfg.mode _
  have hdisp32 : (dispValue s.cfg.mode (.disp32 d32)).toNat ≡ d32.toInt [ZMOD space] := dispValue_modEq ..
  have hidx : (indexValue s ext scale index).toNat ≡ idx [ZMOD space] := indexValue_modEq s ext scale index
  have hbase (n : BitVec 4) : (s.xReg n).toNat ≡ reg n [ZMOD space] := congrArg (· % space) (toNat_xReg s n)
  refine ⟨?_, ?_, ?_, fun h64 => toNat_effAddr_pcRelative h64 ext len d32, fun h32 => ?_⟩
  · rw [effAddr, toNat_toAw]
    exact (add_modEq ..).trans ((hbase _).add hdisp)
  · rw [effAddr, toNat_toAw]
    exact (add_modEq ..).trans (((add_modEq ..).trans ((hbase _).add hidx)).add hdisp)
  · rw [effAddr, toNat_toAw]
    exact (add_modEq ..).trans (hidx.add hdisp32)
  · simp only [effAddr, h32, BitVec.toNat_setWidth]
    omega

/-! ## Prefixes that differ in W alone -/

/-- The bytes up to the opcode (R62). -/
def headLength (family : Family) : Prefix → Nat
  | .legacy rex => legacyHead (family == .sse2) rex
  | .vex vex => vex.head

/-- The bytes of the operands. -/
def tailLength : Tail → Nat
  | .rm _ rm => rm.length
  | .imm rm => rm.length

theorem length_eq_head_add_tail (i : Instr) :
    i.length = headLength (familyOf i) (prefixOf i) + tailLength (tailOf i) := by
  cases i <;> rfl

/-- An instruction does what its columns in the opcode table say: family, element and operands, the extension bits, the
registers that its prefixes select and its length. -/
theorem exec_congr {s : State} {i j : Instr} (hfamily : familyOf i = familyOf j) (hbits : elementBits i = elementBits j)
    (htail : tailOf i = tailOf j) (hext : extOf s.cfg.mode i = extOf s.cfg.mode j)
    (hdest : destYmm s.cfg.mode i = destYmm s.cfg.mode j) (hvalue : valueYmm s.cfg.mode i = valueYmm s.cfg.mode j)
    (hlength : i.length = j.length) : exec i s = exec j s := by
  have hmod : immMemForm i = immMemForm j := by unfold immMemForm; rw [htail]
  have hcheck : instrCheck i s = instrCheck j s := by simp only [instrCheck, hmod, hfamily]
  have hcount : instrCount i s = instrCount j s := by simp only [instrCount, hfamily, htail, hext, hlength]
  have hwrite : instrWrite i s = instrWrite j s := by
    funext c
    simp only [instrWrite, destMm, hfamily, htail, hbits, hdest, hvalue]
  rw [exec_eq_runForm, exec_eq_runForm, hcheck, hcount, hwrite, hlength]

/-- Two prefixes of the same shape that mean the same: the same extension bits, `vvvv` and length. -/
def SamePrefix (m : Mode) (family : Family) (p q : Prefix) : Prop :=
  headLength family p = headLength family q ∧
    ((∃ rex rex', p = .legacy rex ∧ q = .legacy rex' ∧ rexExt m rex = rexExt m rex') ∨
      ∃ vex vex', p = .vex vex ∧ q = .vex vex' ∧ vexExt m vex = vexExt m vex' ∧ vvvvNum m vex = vvvvNum m vex')

section SamePrefix

variable {m : Mode} {i j : Instr} (hfamily : familyOf i = familyOf j) (htail : tailOf i = tailOf j)
  (hprefix : SamePrefix m (familyOf j) (prefixOf i) (prefixOf j))

include hprefix

theorem extOf_of_samePrefix : extOf m i = extOf m j := by
  obtain ⟨-, ⟨rex, rex', hi, hj, hext⟩ | ⟨vex, vex', hi, hj, hext, -⟩⟩ := hprefix <;> simpa only [extOf, hi, hj]

include hfamily htail

theorem length_of_samePrefix : i.length = j.length := by
  rw [length_eq_head_add_tail, length_eq_head_add_tail, hfamily, htail, hprefix.1]

theorem destYmm_of_samePrefix : destYmm m i = destYmm m j := by
  have hext := extOf_of_samePrefix hprefix
  unfold destYmm
  rw [hfamily, htail, hext]
  obtain ⟨-, ⟨rex, rex', hi, hj, -⟩ | ⟨vex, vex', hi, hj, -, hv⟩⟩ := hprefix <;> rw [hi, hj]
  · rcases tailOf j with _ | (_ | _) <;> cases familyOf j <;> rfl
  · rcases tailOf j with _ | (_ | _) <;> cases familyOf j <;> simp only [hv]

theorem valueYmm_of_samePrefix : valueYmm m i = valueYmm m j := by
  have hext := extOf_of_samePrefix hprefix
  have hdest := destYmm_of_samePrefix hfamily htail hprefix
  unfold valueYmm
  rw [hfamily, htail, hext, hdest]
  obtain ⟨-, ⟨rex, rex', hi, hj, -⟩ | ⟨vex, vex', hi, hj, -, hv⟩⟩ := hprefix <;> rw [hi, hj]
  · rcases tailOf j with _ | (_ | _) <;> cases familyOf j <;> rfl
  · rcases tailOf j with _ | (_ | _) <;> cases familyOf j <;> simp only [hv]

end SamePrefix

/-- Settles O9: W is neither an extension bit nor `vvvv`, and does not change the length. -/
theorem wBitsHaveNoEffect : Obligations.WBitsHaveNoEffect := by
  intro s i j hfamily hbits htail hw
  have hprefix : SamePrefix s.cfg.mode (familyOf j) (prefixOf i) (prefixOf j) := by
    rcases hw with ⟨r, x, b, w, w', hi, hj⟩ | ⟨r, x, b, w, w', v, hi, hj⟩ <;> rw [hi, hj]
    · exact ⟨rfl, .inl ⟨_, _, rfl, rfl, by cases s.cfg.mode <;> rfl⟩⟩
    · exact ⟨rfl, .inr ⟨_, _, rfl, rfl, by cases s.cfg.mode <;> rfl, rfl⟩⟩
  exact exec_congr hfamily hbits htail (extOf_of_samePrefix hprefix) (destYmm_of_samePrefix hfamily htail hprefix)
    (valueYmm_of_samePrefix hfamily htail hprefix) (length_of_samePrefix hfamily htail hprefix)

/-! ## VEX2 and VEX3 -/

theorem instrWrite_keeps (i : Instr) (s : State) (c : Quad) :
    (instrWrite i s c).pc = s.pc ∧ (instrWrite i s c).cfg = s.cfg ∧ (instrWrite i s c).fault = s.fault := by
  unfold instrWrite
  split <;> exact ⟨rfl, rfl, rfl⟩

/-- Two instructions with the same check, count and write, the second one byte longer. -/
theorem sameButOneByteLonger_of_parts {s : State} {i j : Instr} (hf : s.fault = none) (hfits : Fits s j)
    (hcheck : instrCheck j s = instrCheck i s) (hcount : instrCount j s = instrCount i s)
    (hwrite : instrWrite j s = instrWrite i s) (hlength : j.length = i.length + 1) : SameButOneByteLonger s i j := by
  unfold SameButOneByteLonger
  rw [exec_eq_runForm, exec_eq_runForm, hcheck, hcount, hwrite]
  cases instrCheck i s with
  | some e => exact ⟨faultedWith s e, rfl, fun _ => rfl, nofun⟩
  | none =>
    cases instrCount i s with
    | error e => exact ⟨faultedWith s e, rfl, fun _ => rfl, nofun⟩
    | ok c =>
      obtain ⟨hpc, hcfg, hfault⟩ := instrWrite_keeps i s c
      have hfitsj : (instrWrite i s c).pc.toNat + j.length ≤ 2 ^ addrWidth (instrWrite i s c).cfg.mode - 1 := by
        rwa [hpc, hcfg]
      refine ⟨_, advance_of_fits (by omega), fun h => absurd (hfault.trans hf) h, fun _ => ?_⟩
      rw [runForm_ok, advance_of_fits hfitsj, hlength, BitVec.ofNat_add, ← BitVec.add_assoc]

theorem vexExt_vex3 (m : Mode) (r w : Bool) (v : BitVec 4) :
    vexExt m (.vex3 r false false w v) = vexExt m (.vex2 r v) := by
  cases m <;> rfl

theorem vvvvNum_vex3 (m : Mode) (r w : Bool) (v : BitVec 4) :
    vvvvNum m (.vex3 r false false w v) = vvvvNum m (.vex2 r v) := rfl

section VexForms

variable {l : Bool} {e : Elem} {s : State} {vex vex' : Vex}

theorem instrCheck_mkVexRm (reg reg' : BitVec 3) (rm rm' : RmOperand) :
    instrCheck (mkVexRm l e vex' reg' rm') s = instrCheck (mkVexRm l e vex reg rm) s := by
  cases l <;> cases e <;> rfl

theorem instrCount_mkVexRm (reg : BitVec 3) (rm : RmOperand) :
    instrCount (mkVexRm l e vex reg rm) s = countVex s (vexExt s.cfg.mode vex) (vex.head + rm.length) rm := by
  cases l <;> cases e <;> rfl

theorem length_mkVexRm (reg : BitVec 3) (rm : RmOperand) : (mkVexRm l e vex reg rm).length = vex.head + rm.length := by
  cases l <;> cases e <;> rfl

theorem length_mkVexImm (rm : ImmOperand) : (mkVexImm l e vex rm).length = vex.head + rm.length := by
  cases l <;> cases e <;> rfl

/-- Two VEX prefixes with the same extension bits and the same `vvvv` give the same write. -/
theorem instrWrite_mkVexRm (hext : vexExt s.cfg.mode vex' = vexExt s.cfg.mode vex)
    (hvvvv : vvvvNum s.cfg.mode vex' = vvvvNum s.cfg.mode vex) (reg : BitVec 3) (rm rm' : RmOperand) :
    instrWrite (mkVexRm l e vex' reg rm') s = instrWrite (mkVexRm l e vex reg rm) s := by
  funext c
  cases l <;> cases e <;>
    simp only [instrWrite, mkVexRm, familyOf, prefixOf, tailOf, destMm, destYmm, valueYmm, extOf, elementBits, hext,
      hvvvv]

theorem instrCheck_mkVexImm (rm : ImmOperand) :
    instrCheck (mkVexImm l e vex' rm) s = instrCheck (mkVexImm l e vex rm) s := by
  cases l <;> cases e <;> rfl

theorem instrCount_mkVexImm (rm : ImmOperand) :
    instrCount (mkVexImm l e vex' rm) s = instrCount (mkVexImm l e vex rm) s := by
  cases rm <;> cases l <;> cases e <;> rfl

theorem instrWrite_mkVexImm (hext : vexExt s.cfg.mode vex' = vexExt s.cfg.mode vex)
    (hvvvv : vvvvNum s.cfg.mode vex' = vvvvNum s.cfg.mode vex) (rm : ImmOperand) :
    instrWrite (mkVexImm l e vex' rm) s = instrWrite (mkVexImm l e vex rm) s := by
  funext c
  cases rm <;> cases l <;> cases e <;>
    simp only [instrWrite, mkVexImm, familyOf, prefixOf, tailOf, destMm, destYmm, valueYmm, extOf, elementBits, hext,
      hvvvv]

end VexForms

/-- An address that is not `pc`-relative does not depend on the length of the instruction. -/
theorem effAddr_of_not_pcRelative {s : State} {m : MemOperand} (h : s.cfg.mode = .mode32 ∨ ∀ d, m ≠ .dispOnly d)
    (ext : ExtBits) (len len' : Nat) : effAddr s ext len' m = effAddr s ext len m := by
  cases m with
  | base | sib | sibNoBase => rfl
  | dispOnly d =>
    have hmode : s.cfg.mode = .mode32 := h.resolve_right fun hd => hd d rfl
    simp only [effAddr, hmode]

/-- One byte more and a displacement of one less name the same `pc`-relative address (R59). -/
theorem effAddr_pcRelative_succ {s : State} (h : s.cfg.mode = .mode64) (ext : ExtBits) (len : Nat) {d d3 : BitVec 32}
    (hd : d3.toInt = d.toInt - 1) : effAddr s ext (len + 1) (.dispOnly d3) = effAddr s ext len (.dispOnly d) := by
  apply BitVec.eq_of_toNat_eq
  rw [← Int.natCast_inj, toNat_effAddr_pcRelative h, toNat_effAddr_pcRelative h, hd]
  congr 1
  push_cast
  ring

theorem length_of_sameOperand {m : Mode} {rm rm3 : RmOperand} (h : SameOperand m rm rm3) : rm3.length = rm.length := by
  obtain ⟨rfl, -⟩ | ⟨-, d, d3, rfl, rfl, -⟩ := h <;> rfl

/-- The same operand gives the same count in the longer spelling. -/
theorem countVex_of_sameOperand {s : State} {rm rm3 : RmOperand} (h : SameOperand s.cfg.mode rm rm3) (ext : ExtBits)
    (len : Nat) : countVex s ext (len + 1) rm3 = countVex s ext len rm := by
  obtain ⟨rfl, hrel⟩ | ⟨hmode, d, d3, rfl, rfl, hd⟩ := h
  · cases rm3 with
    | reg n => rfl
    | mem m =>
      have hm : s.cfg.mode = .mode32 ∨ ∀ d, m ≠ .dispOnly d := hrel.imp_right fun h d hd => h d (congrArg _ hd)
      rw [countVex, countVex, effAddr_of_not_pcRelative hm]
  · rw [countVex, countVex, effAddr_pcRelative_succ hmode ext len hd]

theorem sameUnderBothPrefixes_mkVexRm (l : Bool) (e : Elem) : SameUnderBothPrefixes (mkVexRm l e) := by
  intro s r w v reg rm rm3 hf hrm hfits
  have hlength : (Vex.vex3 r false false w v).head + rm3.length = (Vex.vex2 r v).head + rm.length + 1 := by
    rw [length_of_sameOperand hrm, Vex.head, Vex.head]
    omega
  refine sameButOneByteLonger_of_parts hf hfits (instrCheck_mkVexRm ..) ?_
    (instrWrite_mkVexRm (vexExt_vex3 ..) (vvvvNum_vex3 ..) ..) ?_
  · rw [instrCount_mkVexRm, instrCount_mkVexRm, hlength, vexExt_vex3, countVex_of_sameOperand hrm]
  · rw [length_mkVexRm, length_mkVexRm, hlength]

theorem sameUnderBothPrefixes_mkVexImm (l : Bool) (e : Elem) : SameUnderBothPrefixesImm (mkVexImm l e) := by
  intro s r w v rm hf hfits
  refine sameButOneByteLonger_of_parts hf hfits (instrCheck_mkVexImm rm) (instrCount_mkVexImm rm)
    (instrWrite_mkVexImm (vexExt_vex3 ..) (vvvvNum_vex3 ..) rm) ?_
  rw [length_mkVexImm, length_mkVexImm, Vex.head, Vex.head]
  omega

/-- Settles O47, by the two shapes of the VEX forms. -/
theorem bothVexPrefixesSpellTheSameInstruction : Obligations.BothVexPrefixesSpellTheSameInstruction :=
  ⟨sameUnderBothPrefixes_mkVexRm false .word, sameUnderBothPrefixes_mkVexRm false .dword,
    sameUnderBothPrefixes_mkVexRm false .qword, sameUnderBothPrefixes_mkVexRm true .word,
    sameUnderBothPrefixes_mkVexRm true .dword, sameUnderBothPrefixes_mkVexRm true .qword,
    sameUnderBothPrefixes_mkVexImm false .word, sameUnderBothPrefixes_mkVexImm false .dword,
    sameUnderBothPrefixes_mkVexImm false .qword, sameUnderBothPrefixes_mkVexImm true .word,
    sameUnderBothPrefixes_mkVexImm true .dword, sameUnderBothPrefixes_mkVexImm true .qword⟩

end Sys2Proof.Proofs

/-! # From the bytes in memory to the step -/

namespace Sys2Proof.Proofs

open Machine Safety

/-! ## The fetch -/

theorem fetch_of_decode_ok {s : State} {i : Instr} {rest : List Byte}
    (h : decode s.cfg.mode (fetchWindow s) = .ok (i, rest)) : fetch s = .instr i := by
  simp only [fetch, h]

theorem step_of_decode_ok {s : State} {i : Instr} {rest : List Byte} (hf : s.fault = none)
    (he : s.cfg.endAt ≠ some s.pc) (h : decode s.cfg.mode (fetchWindow s) = .ok (i, rest)) : step s = exec i s := by
  rw [step_of_fetch hf he, fetch_of_decode_ok h, afterFetch]

/-- Settles O53, by the fetch. -/
theorem stepRunsTheDecodedInstruction : Obligations.StepRunsTheDecodedInstruction :=
  fun _ _ _ hf he _ h => step_of_decode_ok hf he h

/-- The bytes stand in admitted memory from address `a` on. -/
def StandsAt (s : State) (a : Nat) (bytes : List Byte) : Prop :=
  ∀ (k : Nat) (hk : k < bytes.length), a + k < 2 ^ addrWidth s.cfg.mode ∧
    admitsByte s.cfg (a + k) = true ∧ s.mem.read (a + k) = bytes[k]

/-- Bytes that stand in admitted memory are fetched before what follows them. -/
theorem fetchBytes_of_standsAt {s : State} {a : Nat} {bytes : List Byte} (h : StandsAt s a bytes) (n : Nat) :
    fetchBytes s a (bytes.length + n) = bytes ++ fetchBytes s (a + bytes.length) n := by
  induction bytes generalizing a with
  | nil => simp
  | cons b bytes ih =>
    obtain ⟨hlt, hadmit, hread⟩ := h 0 (by simp)
    have htail : StandsAt s (a + 1) bytes := fun k hk => by
      have := h (k + 1) (by simpa using hk)
      rwa [show a + (k + 1) = a + 1 + k by omega] at this
    calc fetchBytes s a ((b :: bytes).length + n)
        = fetchBytes s a (bytes.length + n + 1) := by rw [List.length_cons, Nat.add_right_comm]
      _ = s.mem.read a :: fetchBytes s (a + 1) (bytes.length + n) := if_pos ⟨hlt, hadmit⟩
      _ = b :: (bytes ++ fetchBytes s (a + 1 + bytes.length) n) := by rw [ih htail]; exact congrArg (· :: _) hread
      _ = b :: bytes ++ fetchBytes s (a + (b :: bytes).length) n := by
        rw [List.length_cons, List.cons_append, show a + (bytes.length + 1) = a + 1 + bytes.length by omega]

/-- Settles O54: the window starts with the encoding, and the decoder reads it back. -/
theorem stepRunsTheInstructionWhoseEncodingStandsAtPc :
    Obligations.StepRunsTheInstructionWhoseEncodingStandsAtPc := by
  intro s i hf he hwf hbytes
  obtain ⟨-, hmax⟩ := encode_length_bounds i
  have hwindow : fetchWindow s =
      encode i ++ fetchBytes s (s.pc.toNat + (encode i).length) (10 - (encode i).length) := by
    rw [← fetchBytes_of_standsAt hbytes, fetchWindow, maxLength, Nat.add_sub_cancel' hmax]
  exact step_of_decode_ok hf he (decode_eq_ok_iff.mpr ⟨hwf, hwindow⟩)

/-! ## A word loaded after reset -/

theorem tableBytes_length {nbits : Nat} (h : nbits ≤ 80) (w : Nat) : (tableBytes nbits w).length = maxLength := by
  simp only [tableBytes, List.length_append, List.length_map, List.length_range, List.length_replicate, maxLength]
  omega

theorem decode_of_decodeTableWord {nbits w : Nat} {i : Instr} (h : decodeTableWord nbits w = some i) :
    ∃ rest, decode .mode64 (tableBytes nbits w) = .ok (i, rest) := by
  unfold decodeTableWord at h
  split at h
  next j rest hdecode => cases h; exact ⟨rest, hdecode⟩
  next => cases h

/-- Every byte that an instruction at reset can be made of is admitted. -/
theorem admitsByte_reset : ∀ k < maxLength, admitsByte resetParams k = true := by decide

/-- On the state after reset the load changes memory alone (log 14). -/
theorem withFetchWord_reset (nbits w : Nat) :
    State.reset.withFetchWord nbits w =
      { State.reset with mem := loadAtPc State.reset (tableBytes nbits w) } := rfl

/-- Bytes that fit in the address space are loaded whole, from address 0 on. -/
theorem loadAtPc_reset {bytes : List Byte} (h : bytes.length ≤ 2 ^ 64) :
    loadAtPc State.reset bytes = State.reset.mem.writeBytes 0 bytes :=
  congrArg (State.reset.mem.writeBytes 0) (List.take_of_length_le h)

/-- The bytes of the word stand at `pc`. -/
theorem standsAt_withFetchWord_reset {nbits : Nat} (h : nbits ≤ 80) (w : Nat) :
    StandsAt (State.reset.withFetchWord nbits w) 0 (tableBytes nbits w) := by
  intro k hk
  have hk10 : k < maxLength := tableBytes_length h w ▸ hk
  rw [withFetchWord_reset, loadAtPc_reset (by rw [tableBytes_length h, maxLength]; omega)]
  refine ⟨?_, ?_, Memory.read_writeBytes_inside State.reset_mem_wf _ 0 k hk⟩
  · rw [Nat.zero_add]
    exact Nat.lt_trans hk10 (by decide : maxLength < 2 ^ 64)
  · rw [Nat.zero_add]
    exact admitsByte_reset k hk10

/-- Settles O58: what is fetched is the bytes of the word. -/
theorem loadedTableWordRunsNext : Obligations.LoadedTableWordRunsNext := by
  intro nbits w i hn h
  obtain ⟨rest, hdecode⟩ := decode_of_decodeTableWord h
  have hwindow : fetchWindow (State.reset.withFetchWord nbits w) = tableBytes nbits w := by
    have hfetch := fetchBytes_of_standsAt (standsAt_withFetchWord_reset hn w) 0
    rw [Nat.add_zero, tableBytes_length hn, fetchBytes, List.append_nil] at hfetch
    exact hfetch
  exact step_of_decode_ok rfl nofun (by rw [hwindow]; exact hdecode)

/-! ## Runs -/

theorem core_run_succ_next {s t : State} {k : Nat} (h : core.run (k + 1) s = .next t) :
    ∃ u, step s = .next u ∧ core.run k u = .next t := by
  cases hs : step s with
  | next u => exact ⟨u, rfl, by simpa only [Host.Core.run, show core.step s = .next u from hs] using h⟩
  | fault r => simp only [Host.Core.run, show core.step s = .fault r from hs] at h; cases h
  | refused r => simp only [Host.Core.run, show core.step s = .refused r from hs] at h; cases h

/-- A run that ends without a fault starts without one. -/
theorem fault_eq_none_of_run {s t : State} {k : Nat} (h : core.run k s = .next t) (ht : t.fault = none) :
    s.fault = none := by
  cases k with
  | zero => cases h; exact ht
  | succ k =>
    obtain ⟨u, hstep, -⟩ := core_run_succ_next h
    exact (step_next hstep).1

/-- A step that ends without a fault has advanced `pc` by the length of an encoding. -/
theorem pc_of_step {s t : State} (h : step s = .next t) (ht : t.fault = none) :
    s.pc.toNat + 3 ≤ t.pc.toNat ∧ t.pc.toNat ≤ s.pc.toNat + 10 := by
  obtain ⟨-, ⟨e, rfl⟩ | ⟨i, -, hexec⟩⟩ := step_next h
  · cases ht
  obtain ⟨e, rfl⟩ | ⟨hp, mm, ymm, rfl⟩ := exec_next hexec
  · cases ht
  · obtain ⟨hmin, hmax⟩ := encode_length_bounds i
    rw [encode_length] at hmin hmax
    simp only [toNat_pc_add hp]
    omega

/-- Settles O52, by induction on the number of steps. -/
theorem runsOnlyAdvancePc : Obligations.RunsOnlyAdvancePc := by
  intro s t k h ht
  induction k generalizing s with
  | zero => cases h; simp
  | succ k ih =>
    obtain ⟨u, hstep, hrun⟩ := core_run_succ_next h
    have hu := pc_of_step hstep (fault_eq_none_of_run hrun ht)
    have ht := ih u hrun
    omega

end Sys2Proof.Proofs

/-! # The packed shift: composition, edges of a lane, and the narrower beside the wider -/

namespace Sys2Proof.Proofs

open Machine Safety

/-! ## One lane -/

theorem shiftLane_shiftLane {w : Nat} (l : BitVec w) (a b : Nat) :
    shiftLane (shiftLane l a) b = shiftLane l (a + b) := by
  simp only [shiftLane_eq_shiftLeft, BitVec.shiftLeft_add]

theorem shiftLane_zero {w : Nat} (l : BitVec w) : shiftLane l 0 = l := by
  rw [shiftLane_eq_shiftLeft, BitVec.shiftLeft_zero]

theorem shiftLane_of_width_le {w count : Nat} (h : w ≤ count) (l : BitVec w) : shiftLane l count = 0#w := by
  rw [shiftLane_eq_shiftLeft, BitVec.shiftLeft_eq_zero h]

theorem lane_zero (w n j : Nat) : lane w 0#n j = 0#w := BitVec.extractLsb'_zero

/-- A lane as a number. -/
theorem toNat_lane (w : Nat) {n : Nat} (v : BitVec n) (j : Nat) : (lane w v j).toNat = laneNat w v.toNat j := by
  rw [lane, BitVec.extractLsb'_toNat, Nat.shiftRight_eq_div_pow, Nat.mul_comm, laneNat]

/-- Of a number shifted left by `w - 1`, bit 0 alone stays in `w` bits. -/
theorem mul_two_pow_pred_mod {w : Nat} (hw : 0 < w) (x : Nat) : x * 2 ^ (w - 1) % 2 ^ w = x % 2 * 2 ^ (w - 1) :=
  calc x * 2 ^ (w - 1) % 2 ^ w
      = x * 2 ^ (w - 1) % (2 * 2 ^ (w - 1)) := by rw [← Nat.pow_succ', Nat.succ_eq_add_one, Nat.sub_add_cancel hw]
    _ = x % 2 * 2 ^ (w - 1) := Nat.mul_mod_mul_right ..

/-! ## All lanes -/

section Lanes

variable {w n : Nat} (hw : 0 < w) (hn : w ∣ n)

include hw hn

theorem sll_sll (v : BitVec n) (a b : Nat) : sll w (sll w v a) b = sll w v (a + b) :=
  eq_of_lanes hw hn fun j hj => by
    rw [lane_sll hw hn _ _ hj, lane_sll hw hn _ _ hj, lane_sll hw hn _ _ hj, shiftLane_shiftLane]

theorem sll_zero (v : BitVec n) : sll w v 0 = v :=
  eq_of_lanes hw hn fun j hj => by rw [lane_sll hw hn _ _ hj, shiftLane_zero]

theorem sll_of_width_le {count : Nat} (h : w ≤ count) (v : BitVec n) : sll w v count = 0#n :=
  eq_of_lanes hw hn fun j hj => by rw [lane_sll hw hn _ _ hj, shiftLane_of_width_le h, lane_zero]

/-- A lane of the result as a number (`40_shift_functions.md` R85 law 6). -/
theorem laneNat_sll (v : BitVec n) (count : Nat) {j : Nat} (hj : j < n / w) :
    laneNat w (sll w v count).toNat j = laneNat w v.toNat j * 2 ^ count % 2 ^ w := by
  rw [← toNat_lane, lane_sll hw hn _ _ hj, toNat_shiftLane, toNat_lane]

/-- The bits that stay in their narrow lane are those that the wider shift moves and that do not cross a boundary. -/
theorem getLsbD_sll_of_dvd {w' : Nat} (hw' : 0 < w') (hww' : w ∣ w') (hn' : w' ∣ n) (v : BitVec n) (count i : Nat) :
    (sll w v count).getLsbD i = (decide (count ≤ i % w) && (sll w' v count).getLsbD i) := by
  rw [getLsbD_sll hw hn, getLsbD_sll hw' hn']
  have hle : i % w ≤ i % w' := Nat.mod_mod_of_dvd i hww' ▸ Nat.mod_le (i % w') w
  by_cases hc : count ≤ i % w
  · simp only [hc, decide_eq_false (Nat.not_lt.mpr hc), decide_eq_false (Nat.not_lt.mpr (hc.trans hle)), decide_true,
      Bool.true_and]
  · simp [hc]

end Lanes

/-! ## The widths of the forms -/

theorem lanes_tile_value : ∀ w ∈ [16, 32, 64], ∀ n ∈ [64, 128, 256], 0 < w ∧ w ∣ n := by decide

/-- Settles O12, lane by lane. -/
theorem shiftsCompose : Obligations.ShiftsCompose := by
  intro w hw n hn v a b
  obtain ⟨hpos, hdvd⟩ := lanes_tile_value w hw n hn
  exact sll_sll hpos hdvd v a b

/-- Settles O13: every clause is about a lane of the result as a number, or about all lanes at once. -/
theorem shiftCountsAtTheEdgesOfALane : Obligations.ShiftCountsAtTheEdgesOfALane := by
  intro w hw n hn u v count
  obtain ⟨hpos, hdvd⟩ := lanes_tile_value w hw n hn
  refine ⟨fun j hj => laneNat_sll hpos hdvd v count hj, sll_zero hpos hdvd v, fun j hj => ?_,
    fun h => sll_of_width_le hpos hdvd h v, fun j hj huv => ?_⟩
  · rw [laneNat_sll hpos hdvd v _ hj, mul_two_pow_pred_mod hpos]
  · rw [laneNat_sll hpos hdvd u _ hj, laneNat_sll hpos hdvd v _ hj, huv]

/-- Settles O14: the narrower width divides the wider one, and both divide the value's. -/
theorem narrowerShiftLosesExactlyTheCrossingBits : Obligations.NarrowerShiftLosesExactlyTheCrossingBits := by
  intro p hp n hn v count i
  have widths : ∀ p ∈ [(16, 32), (16, 64), (32, 64)], p.1 ∈ [16, 32, 64] ∧ p.2 ∈ [16, 32, 64] ∧ p.1 ∣ p.2 := by decide
  obtain ⟨hnarrow, hwide, hdvd⟩ := widths p hp
  obtain ⟨hpos, hn1⟩ := lanes_tile_value p.1 hnarrow n hn
  obtain ⟨hpos', hn2⟩ := lanes_tile_value p.2 hwide n hn
  exact getLsbD_sll_of_dvd hpos hn1 hpos' hdvd hn2 v count i

end Sys2Proof.Proofs

/-! # Where the count stands: what beside its quadword has no influence -/

namespace Sys2Proof.Proofs

open Machine Safety

/-! ## The count register -/

theorem passive_setYmm (c : BitVec 4) (v : Vec) : Passive fun t => t.setYmm c v where
  cfg _ := rfl
  ctl _ := rfl
  pc _ := rfl
  setPc _ _ := rfl
  setFault _ _ := rfl

/-- Writes to two vector registers commute. -/
theorem setYmm_comm (s : State) {c d : BitVec 4} (h : c ≠ d) (v u : Vec) :
    (s.setYmm d u).setYmm c v = (s.setYmm c v).setYmm d u := by
  have hne : d.toNat ≠ c.toNat := fun e => h (BitVec.eq_of_toNat_eq e.symm)
  simp only [State.setYmm, Vector.set_comm _ _ hne]

/-- A write that keeps the low quadword of a vector register keeps what every register gives as a count. -/
theorem countXmmReg_setYmm {s : State} {c : BitVec 4} {v : Vec}
    (h : v.toNat % 2 ^ 64 = (s.ymmReg c).toNat % 2 ^ 64) (r : BitVec 4) :
    countXmmReg (s.setYmm c v) r = countXmmReg s r := by
  rw [countXmmReg_eq, countXmmReg_eq, State.ymmReg_setYmm]
  split
  next hr =>
    rw [← hr]
    apply BitVec.eq_of_toNat_eq
    simpa only [BitVec.extractLsb'_toNat, Nat.shiftRight_zero] using h
  next => rfl

/-- Settles O43: the write is passive, keeps the count, and commutes with the write of a register that is neither. -/
theorem upperBitsOfTheCountRegisterHaveNoInfluence : Obligations.UpperBitsOfTheCountRegisterHaveNoInfluence := by
  intro s i c v _ hvalue hdest hlow
  have other {o : Option (BitVec 4)} (ho : o ≠ some c) (r : BitVec 4) (hr : o = some r) : c ≠ r :=
    fun e => ho (hr.trans (congrArg some e.symm))
  refine (passive_setYmm c v).exec_map (i := i) (s := s) ?_ ?_
  · exact instrCount_congr rfl rfl rfl rfl rfl (fun _ => rfl) (fun _ => rfl) fun _ => countXmmReg_setYmm hlow _
  · exact instrWrite_map (f := fun t => t.setYmm c v) rfl rfl (fun _ _ => rfl)
      (fun d hd u => setYmm_comm s (other hdest d hd) v u)
      (fun d hd => State.ymmReg_setYmm_ne s (other hdest d hd) v)
      (fun r hr => State.ymmReg_setYmm_ne s (other hvalue r hr) v)

/-! ## The memory operand -/

/-- The state with other contents of memory. -/
def withMem (mem' : Memory) (s : State) : State := { s with mem := mem' }

theorem passive_withMem (mem' : Memory) : Passive (withMem mem') where
  cfg _ := rfl
  ctl _ := rfl
  pc _ := rfl
  setPc _ _ := rfl
  setFault _ _ := rfl

/-- A little-endian number depends on its own bytes alone. -/
theorem leNat_congr {m m' : Memory} {a n : Nat} (h : ∀ k < n, m'.read (a + k) = m.read (a + k)) :
    leNat m' a n = leNat m a n := by
  induction n generalizing a with
  | zero => rfl
  | succ n ih =>
    have hrest : leNat m' (a + 1) n = leNat m (a + 1) n := ih fun k hk => by
      rw [Nat.add_right_comm, Nat.add_assoc]; exact h (k + 1) (by omega)
    rw [leNat, leNat, hrest, show m'.read a = m.read a from h 0 (by omega)]

/-- Whether a read is answered does not depend on the contents of memory. -/
theorem memRead_withMem_cases (mem' : Memory) (s : State) (a : Quad) (n : Nat) :
    (∃ e, memRead s a n = .error e ∧ memRead (withMem mem' s) a n = .error e) ∨
      memRead s a n = .ok (s.mem.readLe a.toNat n) ∧
        memRead (withMem mem' s) a n = .ok (mem'.readLe a.toNat n) := by
  rcases memRead_cases s a n with ⟨he, hno⟩ | ⟨hok, hfits, hadmit⟩
  · exact .inl ⟨_, he, memRead_error (s := withMem mem' s) hno⟩
  · exact .inr ⟨hok, memRead_ok (s := withMem mem' s) hfits hadmit⟩

section FirstEightBytes

variable {mem' : Memory} {s : State} {a : Quad}

/-- An `m64` operand is its 8 bytes. -/
theorem memRead_eight_withMem (h : ∀ k < 8, mem'.read (a.toNat + k) = s.mem.read (a.toNat + k)) :
    memRead (withMem mem' s) a 8 = memRead s a 8 := by
  rcases memRead_withMem_cases mem' s a 8 with ⟨e, hs, ht⟩ | ⟨hs, ht⟩ <;> rw [hs, ht]
  have hread : mem'.readLe a.toNat 8 = s.mem.readLe a.toNat 8 :=
    BitVec.eq_of_toNat_eq (by rw [toNat_readLe, toNat_readLe, leNat_congr h])
  rw [hread]

/-- An `m128` count depends on the first 8 of the 16 bytes that are read. -/
theorem countM128_withMem (h : ∀ k < 8, mem'.read (a.toNat + k) = s.mem.read (a.toNat + k)) :
    countM128 (withMem mem' s) a = countM128 s a := by
  rcases memRead_withMem_cases mem' s a 16 with ⟨e, hs, ht⟩ | ⟨hs, ht⟩
  · rw [countM128_of_error hs, countM128_of_error ht]
  · have hs' : countM128 s a = .ok ((s.mem.readLe a.toNat 16).extractLsb' 0 64) := by simp only [countM128, hs]
    have ht' : countM128 (withMem mem' s) a = .ok ((mem'.readLe a.toNat 16).extractLsb' 0 64) := by
      simp only [countM128, ht]
    rw [hs', ht']
    refine congrArg Except.ok (BitVec.eq_of_toNat_eq ?_)
    rw [toNat_of_countM128_ok hs', toNat_of_countM128_ok ht']
    exact leNat_congr h

end FirstEightBytes

/-- The count of a form with a memory operand depends on the operand's first 8 bytes alone. -/
theorem instrCount_withMem {i : Instr} {s : State} {m : MemOperand} {mem' : Memory} (hm : memOperandOf i = some m)
    (h : ∀ k < 8, mem'.read ((operandAddr s i m).toNat + k) = s.mem.read ((operandAddr s i m).toNat + k)) :
    instrCount i (withMem mem' s) = instrCount i s := by
  obtain ⟨reg, ht⟩ := tailOf_of_memOperandOf hm
  have haddr : effAddr (withMem mem' s) (extOf s.cfg.mode i) i.length m =
      effAddr s (extOf s.cfg.mode i) i.length m :=
    effAddr_congr rfl rfl (fun _ => rfl) (fun _ => rfl) _ _
  have hmode : (withMem mem' s).cfg.mode = s.cfg.mode := rfl
  have hac : alignCheckOn (withMem mem' s) = alignCheckOn s := rfl
  unfold operandAddr at h
  unfold instrCount
  rw [ht, hmode]
  cases familyOf i with
  | mmx => simp only [countMm_mem, haddr, hac, memRead_eight_withMem h]
  | sse2 => simp only [countSse, haddr, countM128_withMem h]
  | avx => simp only [countVex, haddr, countM128_withMem h]
  | avx2 => simp only [countVex, haddr, countM128_withMem h]

/-- Settles O44: the change of memory is passive, keeps the count, and the write does not read memory. -/
theorem upperBytesOfTheMemoryCountHaveNoInfluence : Obligations.UpperBytesOfTheMemoryCountHaveNoInfluence := by
  intro s i m mem' hm hbytes
  exact (passive_withMem mem').exec_map (instrCount_withMem hm hbytes)
    (instrWrite_map rfl rfl (fun _ _ => rfl) (fun _ _ _ => rfl) (fun _ _ => rfl) fun _ _ => rfl)

end Sys2Proof.Proofs

/-! # Results of the forms: completion, and the lanes of an MMX destination -/

namespace Sys2Proof.Proofs

open Machine Safety Statements

/-! ## Completion -/

/-- A form that may run, whose count is read and whose length fits, makes its one write and advances `pc`. -/
theorem exec_of_instrCount_ok {i : Instr} {s : State} {c : Quad} (hcheck : instrCheck i s = none)
    (hcount : instrCount i s = .ok c) (hfits : Fits s i) :
    exec i s = .next { instrWrite i s c with pc := s.pc + BitVec.ofNat 64 i.length } := by
  obtain ⟨hpc, hcfg, -⟩ := instrWrite_keeps i s c
  rw [exec_eq_runForm, hcheck, hcount, runForm_ok, advance_of_fits (by rwa [hpc, hcfg]), hpc]

theorem elementBits_mem (i : Instr) : elementBits i ∈ [16, 32, 64] := by
  cases i <;> simp [elementBits]

/-! ## An MMX destination -/

/-- An MMX destination is that of an MMX form that has a meaning. -/
theorem mmx_of_destMm {i : Instr} {d : BitVec 3} (h : destMm i = some d) :
    familyOf i = .mmx ∧ immMemForm i = false := by
  unfold destMm at h
  split at h
  next hfam htail => exact ⟨hfam, by rw [immMemForm, htail]⟩
  next hfam htail => exact ⟨hfam, by rw [immMemForm, htail]⟩
  next => cases h

theorem instrWrite_of_destMm {i : Instr} {d : BitVec 3} (h : destMm i = some d) (s : State) (c : Quad) :
    instrWrite i s c = s.setMm d (sll (elementBits i) (s.mmReg d) c.toNat) := by
  obtain ⟨hfam, -⟩ := mmx_of_destMm h
  simp only [instrWrite, hfam, h]

/-- An MMX form whose count is read completes: its destination holds its own lanes shifted by the count
(`41_legacy_mmx.md` R96). -/
theorem exec_mmx_of_instrCount_ok {i : Instr} {s : State} {d : BitVec 3} {c : Quad} (hdest : destMm i = some d)
    (hready : MmxReady s) (hfits : Fits s i) (hcount : instrCount i s = .ok c) :
    ∃ v : Quad,
      exec i s = .next { s with mm := s.mm.set d.toNat v d.isLt, pc := s.pc + BitVec.ofNat 64 i.length } ∧
      LanesShifted (elementBits i) (64 / elementBits i) (s.mmReg d).toNat v.toNat c.toNat := by
  obtain ⟨hfam, hform⟩ := mmx_of_destMm hdest
  have hcheck : instrCheck i s = none := instrCheck_eq_none_iff.mpr ⟨hform, by rw [hfam]; exact hready⟩
  obtain ⟨hpos, hdvd⟩ := lanes_tile_value _ (elementBits_mem i) 64 (by decide)
  refine ⟨sll (elementBits i) (s.mmReg d) c.toNat, ?_, fun j hj => laneNat_sll hpos hdvd _ _ hj⟩
  rw [exec_of_instrCount_ok hcheck hcount hfits, instrWrite_of_destMm hdest]
  rfl

/-! ## The counts of the MMX forms -/

theorem alignCheckOn_eq_false_iff {s : State} : alignCheckOn s = false ↔ AlignCheckOff s := by
  rw [← Bool.not_eq_true, alignCheckOn, acFlag, Bool.and_eq_true, Bool.and_eq_true, beq_iff_eq, and_assoc]

/-- An `m64` that is readable, and aligned where alignment is checked, is read whole (`20_memory.md` R32, R35). -/
theorem countMm_mem_of_readable {s : State} {ext : ExtBits} {len : Nat} {m : MemOperand}
    (hread : Readable s (effAddr s ext len m) 8)
    (halign : AlignCheckOff s ∨ (effAddr s ext len m).toNat % 8 = 0) :
    countMm s ext len (.mem m) = .ok (s.mem.readLe (effAddr s ext len m).toNat 8) := by
  obtain ⟨htop, hadmit⟩ := hread
  rw [countMm_mem, memRead_ok htop hadmit]
  rcases halign with hoff | haligned
  · simp [alignCheckOn_eq_false_iff.mpr hoff]
  · simp [haligned]

theorem toNat_countImm (imm8 : Byte) : (countImm imm8).toNat = imm8.toNat :=
  BitVec.toNat_setWidth_of_le (by decide)

/-! ## The six MMX forms by their element -/

/-- The element width that the opcode table gives to W, D and Q. -/
def laneBits : Elem → Nat
  | .word => 16
  | .dword => 32
  | .qword => 64

section MmxForms

variable (e : Elem) (rex : Option Rex)

theorem elementBits_mkMmRm (reg : BitVec 3) (rm : RmOperand) : elementBits (mkMmRm e rex reg rm) = laneBits e := by
  cases e <;> rfl

theorem elementBits_mkMmImm (rm : ImmOperand) : elementBits (mkMmImm e rex rm) = laneBits e := by
  cases e <;> rfl

theorem destMm_mkMmRm (reg : BitVec 3) (rm : RmOperand) : destMm (mkMmRm e rex reg rm) = some reg := by
  cases e <;> rfl

theorem destMm_mkMmImm (n : BitVec 3) (imm8 : Byte) : destMm (mkMmImm e rex (.reg n imm8)) = some n := by
  cases e <;> rfl

theorem instrCount_mkMmRm (reg : BitVec 3) (rm : RmOperand) (s : State) :
    instrCount (mkMmRm e rex reg rm) s =
      countMm s (rexExt s.cfg.mode rex) (mkMmRm e rex reg rm).length rm := by
  cases e <;> rfl

theorem instrCount_mkMmImm (n : BitVec 3) (imm8 : Byte) (s : State) :
    instrCount (mkMmImm e rex (.reg n imm8)) s = .ok (countImm imm8) := by
  cases e <;> rfl

end MmxForms

theorem mmxRegisterCount_mkMmRm (e : Elem) : MmxRegisterCount (laneBits e) (mkMmRm e) := by
  intro s rex d src hready hfits
  rw [← elementBits_mkMmRm e rex d (.reg src)]
  exact exec_mmx_of_instrCount_ok (destMm_mkMmRm ..) hready hfits (instrCount_mkMmRm ..)

theorem mmxMemoryCount_mkMmRm (e : Elem) : MmxMemoryCount (laneBits e) (mkMmRm e) := by
  intro s rex d m a ha hready hfits hread halign
  subst ha
  rw [← elementBits_mkMmRm e rex d (.mem m), ← toNat_readLe]
  exact exec_mmx_of_instrCount_ok (destMm_mkMmRm ..) hready hfits
    ((instrCount_mkMmRm ..).trans (countMm_mem_of_readable hread halign))

theorem mmxImmediateCount_mkMmImm (e : Elem) : MmxImmediateCount (laneBits e) (mkMmImm e) := by
  intro s rex d imm8 hready hfits
  rw [← elementBits_mkMmImm e rex (.reg d imm8), ← toNat_countImm]
  exact exec_mmx_of_instrCount_ok (destMm_mkMmImm ..) hready hfits (instrCount_mkMmImm ..)

/-- Settles O15: the count of a register operand is always read. -/
theorem mmxRegisterCountShiftsEveryLane : Obligations.MmxRegisterCountShiftsEveryLane :=
  ⟨mmxRegisterCount_mkMmRm .word, mmxRegisterCount_mkMmRm .dword, mmxRegisterCount_mkMmRm .qword⟩

/-- Settles O16: the count is read where the operand is readable and passes the alignment check. -/
theorem mmxMemoryCountShiftsEveryLane : Obligations.MmxMemoryCountShiftsEveryLane :=
  ⟨mmxMemoryCount_mkMmRm .word, mmxMemoryCount_mkMmRm .dword, mmxMemoryCount_mkMmRm .qword⟩

/-- Settles O17: the count is the immediate, and the destination the r/m register. -/
theorem mmxImmediateCountShiftsEveryLane : Obligations.MmxImmediateCountShiftsEveryLane :=
  ⟨mmxImmediateCount_mkMmImm .word, mmxImmediateCount_mkMmImm .dword, mmxImmediateCount_mkMmImm .qword⟩

end Sys2Proof.Proofs

/-! # Results of the SSE2 forms: the lanes of the low half, and the upper half kept -/

namespace Sys2Proof.Proofs

open Machine Safety Statements

/-! ## The low half of a vector register -/

/-- The lanes that lie in the low `bits` bits do not depend on the bits above them. -/
theorem laneNat_mod_two_pow {w bits j : Nat} (hw : w ∣ bits) (hj : j < bits / w) (x : Nat) :
    laneNat w (x % 2 ^ bits) j = laneNat w x j := by
  have hfit : w * j + w ≤ bits :=
    calc w * j + w = w * (j + 1) := (Nat.mul_succ w j).symm
      _ ≤ w * (bits / w) := Nat.mul_le_mul_left w hj
      _ = bits := Nat.mul_div_cancel' hw
  have hsplit : 2 ^ bits = 2 ^ (w * j) * 2 ^ (bits - w * j) := by rw [← pow_add, Nat.add_sub_cancel' (by omega)]
  rw [laneNat, laneNat, hsplit, Nat.mod_mul_right_div_self,
    Nat.mod_mod_of_dvd _ (Nat.pow_dvd_pow 2 (by omega : w ≤ bits - w * j))]

/-- `XMM[r]` is the low half of `YMM[r]` (`10_state.md` R12). -/
theorem toNat_xmmReg (s : State) (r : BitVec 4) : (s.xmmReg r).toNat = (s.ymmReg r).toNat % 2 ^ 128 := by
  rw [State.xmmReg, BitVec.extractLsb'_toNat, Nat.shiftRight_zero]

/-- The packed shift of `XMM[r]` shifts the lanes of the low half of `YMM[r]`. -/
theorem lanesShifted_sll_xmmReg {w : Nat} (hw : w ∈ [16, 32, 64]) (s : State) (r : BitVec 4) (count : Nat) :
    LanesShifted w (128 / w) (s.ymmReg r).toNat (sll w (s.xmmReg r) count).toNat count := by
  obtain ⟨hpos, hdvd⟩ := lanes_tile_value w hw 128 (by decide)
  intro j hj
  rw [laneNat_sll hpos hdvd _ _ hj, toNat_xmmReg, laneNat_mod_two_pow hdvd hj]

section Halves

variable (hi lo : BitVec 128)

theorem toNat_append_halves : (hi ++ lo : BitVec 256).toNat = hi.toNat * 2 ^ 128 + lo.toNat := by
  rw [BitVec.toNat_append, ← Nat.shiftLeft_add_eq_or_of_lt lo.isLt, Nat.shiftLeft_eq]

theorem toNat_append_div : (hi ++ lo : BitVec 256).toNat / 2 ^ 128 = hi.toNat := by
  have := lo.isLt
  rw [toNat_append_halves]
  omega

theorem toNat_append_mod : (hi ++ lo : BitVec 256).toNat % 2 ^ 128 = lo.toNat := by
  rw [toNat_append_halves, Nat.mul_add_mod_self_right, Nat.mod_eq_of_lt lo.isLt]

/-- The lanes of the low half are those of a value written below a kept upper half. -/
theorem lanesShifted_append {w : Nat} (hw : w ∣ 128) {old count : Nat}
    (h : LanesShifted w (128 / w) old lo.toNat count) :
    LanesShifted w (128 / w) old (hi ++ lo : BitVec 256).toNat count := by
  intro j hj
  rw [← laneNat_mod_two_pow hw hj, toNat_append_mod, h j hj]

end Halves

/-! ## An SSE2 destination -/

/-- A vector destination is that of a form that has a meaning. -/
theorem immMemForm_of_destYmm {m : Mode} {i : Instr} {d : BitVec 4} (h : destYmm m i = some d) :
    immMemForm i = false := by
  unfold destYmm at h
  split at h
  next => cases h
  next htail _ => rw [immMemForm, htail]
  next htail _ => rw [immMemForm, htail]
  next htail _ => rw [immMemForm, htail]
  next => cases h

theorem prefixOf_of_sse2 {i : Instr} (h : familyOf i = .sse2) : ∃ rex, prefixOf i = .legacy rex := by
  cases i with
  | psllwXmmXmmm128 rex | pslldXmmXmmm128 rex | psllqXmmXmmm128 rex
  | psllwXmmImm8 rex | pslldXmmImm8 rex | psllqXmmImm8 rex => exact ⟨rex, rfl⟩
  | _ => cases h

/-- An SSE2 form shifts its own destination (`42_legacy_sse2.md` R106). -/
theorem valueYmm_of_sse2 {i : Instr} (h : familyOf i = .sse2) (m : Mode) : valueYmm m i = destYmm m i := by
  obtain ⟨rex, hprefix⟩ := prefixOf_of_sse2 h
  simp only [valueYmm, h, hprefix]

theorem instrWrite_of_sse2 {i : Instr} {s : State} {d : BitVec 4} (hfam : familyOf i = .sse2)
    (hdest : destYmm s.cfg.mode i = some d) (c : Quad) :
    instrWrite i s c = s.setXmmKeep d (sll (elementBits i) (s.xmmReg d) c.toNat) := by
  simp only [instrWrite, hfam, valueYmm_of_sse2 hfam, hdest]

/-- An SSE2 form whose count is read completes: the low half of its destination holds its own lanes shifted by the count,
above the upper half as it was (`42_legacy_sse2.md` R106). -/
theorem sseResult_of_instrCount_ok {i : Instr} {s : State} {d : BitVec 4} {c : Quad} (hfam : familyOf i = .sse2)
    (hdest : destYmm s.cfg.mode i = some d) (hready : Sse2Ready s) (hfits : Fits s i) (hcount : instrCount i s = .ok c) :
    SseResult (elementBits i) s i d c.toNat := by
  have hcheck : instrCheck i s = none :=
    instrCheck_eq_none_iff.mpr ⟨immMemForm_of_destYmm hdest, by rw [hfam]; exact hready⟩
  obtain ⟨-, hdvd⟩ := lanes_tile_value _ (elementBits_mem i) 128 (by decide)
  refine ⟨(s.ymmReg d).extractLsb' 128 128 ++ sll (elementBits i) (s.xmmReg d) c.toNat, ?_, ?_, ?_⟩
  · rw [exec_of_instrCount_ok hcheck hcount hfits, instrWrite_of_sse2 hfam hdest]
    rfl
  · rw [toNat_append_div, BitVec.extractLsb'_toNat, Nat.shiftRight_eq_div_pow, Nat.mod_eq_of_lt]
    have := (s.ymmReg d).isLt
    omega
  · exact lanesShifted_append _ _ hdvd (lanesShifted_sll_xmmReg (elementBits_mem i) s d c.toNat)

/-! ## The counts of a vector form -/

/-- A count register gives its low quadword (`40_shift_functions.md` R80). -/
theorem toNat_countXmmReg (s : State) (r : BitVec 4) : (countXmmReg s r).toNat = (s.ymmReg r).toNat % 2 ^ 64 := by
  rw [countXmmReg_eq, BitVec.extractLsb'_toNat, Nat.shiftRight_zero]

/-- An `m128` that is readable is read whole, and its first 8 bytes are the count (`20_memory.md` R35). -/
theorem countM128_of_readable {s : State} {a : Quad} (h : Readable s a 16) :
    ∃ c, countM128 s a = .ok c ∧ c.toNat = leNat s.mem a.toNat 8 := by
  obtain ⟨htop, hadmit⟩ := h
  have hcount : countM128 s a = .ok ((s.mem.readLe a.toNat 16).extractLsb' 0 64) := by
    rw [countM128, memRead_ok htop hadmit]
  exact ⟨_, hcount, toNat_of_countM128_ok hcount⟩

/-! ## The six SSE2 forms by their element -/

section SseForms

variable (e : Elem) (rex : Option Rex)

theorem familyOf_mkXmmRm (reg : BitVec 3) (rm : RmOperand) : familyOf (mkXmmRm e rex reg rm) = .sse2 := by
  cases e <;> rfl

theorem familyOf_mkXmmImm (rm : ImmOperand) : familyOf (mkXmmImm e rex rm) = .sse2 := by
  cases e <;> rfl

theorem elementBits_mkXmmRm (reg : BitVec 3) (rm : RmOperand) : elementBits (mkXmmRm e rex reg rm) = laneBits e := by
  cases e <;> rfl

theorem elementBits_mkXmmImm (rm : ImmOperand) : elementBits (mkXmmImm e rex rm) = laneBits e := by
  cases e <;> rfl

theorem destYmm_mkXmmRm (m : Mode) (reg : BitVec 3) (rm : RmOperand) :
    destYmm m (mkXmmRm e rex reg rm) = some (regNum (rexExt m rex).r reg) := by
  cases e <;> rfl

theorem destYmm_mkXmmImm (m : Mode) (n : BitVec 3) (imm8 : Byte) :
    destYmm m (mkXmmImm e rex (.reg n imm8)) = some (regNum (rexExt m rex).b n) := by
  cases e <;> rfl

theorem instrCount_mkXmmRm (reg : BitVec 3) (rm : RmOperand) (s : State) :
    instrCount (mkXmmRm e rex reg rm) s =
      countSse s (rexExt s.cfg.mode rex) (mkXmmRm e rex reg rm).length rm := by
  cases e <;> rfl

theorem instrCount_mkXmmImm (n : BitVec 3) (imm8 : Byte) (s : State) :
    instrCount (mkXmmImm e rex (.reg n imm8)) s = .ok (countImm imm8) := by
  cases e <;> rfl

end SseForms

theorem sseRegisterCount_mkXmmRm (e : Elem) : SseRegisterCount (laneBits e) (mkXmmRm e) := by
  intro s rex reg src hready hfits
  rw [← elementBits_mkXmmRm e rex reg (.reg src), ← toNat_countXmmReg]
  exact sseResult_of_instrCount_ok (familyOf_mkXmmRm ..) (destYmm_mkXmmRm ..) hready hfits (instrCount_mkXmmRm ..)

theorem sseMemoryCount_mkXmmRm (e : Elem) : SseMemoryCount (laneBits e) (mkXmmRm e) := by
  intro s rex reg m a ha hready hfits hread haligned
  subst ha
  obtain ⟨c, hcount, hc⟩ := countM128_of_readable hread
  rw [← elementBits_mkXmmRm e rex reg (.mem m), ← hc]
  exact sseResult_of_instrCount_ok (familyOf_mkXmmRm ..) (destYmm_mkXmmRm ..) hready hfits
    ((instrCount_mkXmmRm ..).trans ((countSse_aligned haligned).trans hcount))

theorem sseImmediateCount_mkXmmImm (e : Elem) : SseImmediateCount (laneBits e) (mkXmmImm e) := by
  intro s rex n imm8 hready hfits
  rw [← elementBits_mkXmmImm e rex (.reg n imm8), ← toNat_countImm]
  exact sseResult_of_instrCount_ok (familyOf_mkXmmImm ..) (destYmm_mkXmmImm ..) hready hfits (instrCount_mkXmmImm ..)

/-- Settles O18: the count of a register operand is always read. -/
theorem sseRegisterCountShiftsLowHalfAndKeepsUpper : Obligations.SseRegisterCountShiftsLowHalfAndKeepsUpper :=
  ⟨sseRegisterCount_mkXmmRm .word, sseRegisterCount_mkXmmRm .dword, sseRegisterCount_mkXmmRm .qword⟩

/-- Settles O19: the count is read where the operand is aligned and readable. -/
theorem sseMemoryCountShiftsLowHalfAndKeepsUpper : Obligations.SseMemoryCountShiftsLowHalfAndKeepsUpper :=
  ⟨sseMemoryCount_mkXmmRm .word, sseMemoryCount_mkXmmRm .dword, sseMemoryCount_mkXmmRm .qword⟩

/-- Settles O20: the count is the immediate, and the destination the r/m register. -/
theorem sseImmediateCountShiftsLowHalfAndKeepsUpper : Obligations.SseImmediateCountShiftsLowHalfAndKeepsUpper :=
  ⟨sseImmediateCount_mkXmmImm .word, sseImmediateCount_mkXmmImm .dword, sseImmediateCount_mkXmmImm .qword⟩

end Sys2Proof.Proofs

/-! # Results of the VEX forms: the lanes of the first source, and the bits above them zero

One argument for `L = 0` and `L = 1`: the two families differ in the width of the value that is shifted
(`43_vex128_avx.md` R117, `44_vex256_avx2.md` R126). -/

namespace Sys2Proof.Proofs

open Machine Safety Statements

/-! ## The value that a VEX form writes -/

/-- The family of the VEX forms with a value of `VEX.L`. -/
def vexFamily : Bool → Family
  | false => .avx
  | true => .avx2

/-- The number of bits that the VEX forms with a value of `VEX.L` shift. -/
def vexBits : Bool → Nat
  | false => 128
  | true => 256

/-- What a VEX form writes to all 256 bits of its destination: `XMM[value]` or `YMM[value]` shifted, with zeros above. -/
def vexShifted (l : Bool) (w : Nat) (s : State) (value : BitVec 4) (count : Nat) : Vec :=
  match l with
  | false => (sll w (s.xmmReg value) count).setWidth 256
  | true => sll w (s.ymmReg value) count

theorem toNat_vexShifted_false (w : Nat) (s : State) (value : BitVec 4) (count : Nat) :
    (vexShifted false w s value count).toNat = (sll w (s.xmmReg value) count).toNat :=
  BitVec.toNat_setWidth_of_le (by decide)

theorem toNat_vexShifted_lt (l : Bool) (w : Nat) (s : State) (value : BitVec 4) (count : Nat) :
    (vexShifted l w s value count).toNat < 2 ^ vexBits l := by
  cases l with
  | false => rw [toNat_vexShifted_false]; exact BitVec.isLt _
  | true => exact BitVec.isLt _

theorem lanesShifted_vexShifted (l : Bool) {w : Nat} (hw : w ∈ [16, 32, 64]) (s : State) (value : BitVec 4)
    (count : Nat) :
    LanesShifted w (vexBits l / w) (s.ymmReg value).toNat (vexShifted l w s value count).toNat count := by
  cases l with
  | false => rw [toNat_vexShifted_false]; exact lanesShifted_sll_xmmReg hw s value count
  | true =>
    obtain ⟨hpos, hdvd⟩ := lanes_tile_value w hw 256 (by decide)
    exact fun j hj => laneNat_sll hpos hdvd _ _ hj

theorem instrWrite_of_vex {l : Bool} {i : Instr} {s : State} {d value : BitVec 4} (hfam : familyOf i = vexFamily l)
    (hdest : destYmm s.cfg.mode i = some d) (hvalue : valueYmm s.cfg.mode i = some value) (c : Quad) :
    instrWrite i s c = s.setYmm d (vexShifted l (elementBits i) s value c.toNat) := by
  cases l with
  | false => simp only [instrWrite, hfam, vexFamily, hdest, hvalue, State.setXmmZero, vexShifted]
  | true => simp only [instrWrite, hfam, vexFamily, hdest, hvalue, vexShifted]

/-- A VEX form whose count is read completes: its destination holds the lanes of its first source shifted by the count. -/
theorem vexResult_of_instrCount_ok {l : Bool} {i : Instr} {s : State} {d value : BitVec 4} {c : Quad}
    (hfam : familyOf i = vexFamily l) (hdest : destYmm s.cfg.mode i = some d)
    (hvalue : valueYmm s.cfg.mode i = some value) (hready : FamilyReady s (vexFamily l)) (hfits : Fits s i)
    (hcount : instrCount i s = .ok c) : VexResult (vexBits l) (elementBits i) s i d value c.toNat := by
  have hcheck : instrCheck i s = none :=
    instrCheck_eq_none_iff.mpr ⟨immMemForm_of_destYmm hdest, by rwa [hfam]⟩
  refine ⟨vexShifted l (elementBits i) s value c.toNat, ?_, toNat_vexShifted_lt ..,
    lanesShifted_vexShifted l (elementBits_mem i) s value c.toNat⟩
  rw [exec_of_instrCount_ok hcheck hcount hfits, instrWrite_of_vex hfam hdest hvalue]
  rfl

/-! ## The VEX forms by `VEX.L` and their element -/

section VexForms

variable (l : Bool) (e : Elem) (vex : Vex)

theorem familyOf_mkVexRm (reg : BitVec 3) (rm : RmOperand) : familyOf (mkVexRm l e vex reg rm) = vexFamily l := by
  cases l <;> cases e <;> rfl

theorem familyOf_mkVexImm (rm : ImmOperand) : familyOf (mkVexImm l e vex rm) = vexFamily l := by
  cases l <;> cases e <;> rfl

theorem elementBits_mkVexRm (reg : BitVec 3) (rm : RmOperand) : elementBits (mkVexRm l e vex reg rm) = laneBits e := by
  cases l <;> cases e <;> rfl

theorem elementBits_mkVexImm (rm : ImmOperand) : elementBits (mkVexImm l e vex rm) = laneBits e := by
  cases l <;> cases e <;> rfl

theorem destYmm_mkVexRm (m : Mode) (reg : BitVec 3) (rm : RmOperand) :
    destYmm m (mkVexRm l e vex reg rm) = some (regNum (vexExt m vex).r reg) := by
  cases l <;> cases e <;> rfl

theorem destYmm_mkVexImm (m : Mode) (n : BitVec 3) (imm8 : Byte) :
    destYmm m (mkVexImm l e vex (.reg n imm8)) = some (vvvvNum m vex) := by
  cases l <;> cases e <;> rfl

theorem valueYmm_mkVexRm (m : Mode) (reg : BitVec 3) (rm : RmOperand) :
    valueYmm m (mkVexRm l e vex reg rm) = some (vvvvNum m vex) := by
  cases l <;> cases e <;> rfl

theorem valueYmm_mkVexImm (m : Mode) (n : BitVec 3) (imm8 : Byte) :
    valueYmm m (mkVexImm l e vex (.reg n imm8)) = some (regNum (vexExt m vex).b n) := by
  cases l <;> cases e <;> rfl

theorem instrCount_mkVexImm_reg (n : BitVec 3) (imm8 : Byte) (s : State) :
    instrCount (mkVexImm l e vex (.reg n imm8)) s = .ok (countImm imm8) := by
  cases l <;> cases e <;> rfl

end VexForms

theorem vexRegisterCount_mkVexRm (l : Bool) (e : Elem) :
    VexRegisterCount (FamilyReady · (vexFamily l)) (vexBits l) (laneBits e) (mkVexRm l e) := by
  intro s vex reg src hready hfits
  rw [← elementBits_mkVexRm l e vex reg (.reg src), ← toNat_countXmmReg]
  exact vexResult_of_instrCount_ok (familyOf_mkVexRm ..) (destYmm_mkVexRm ..) (valueYmm_mkVexRm ..) hready hfits
    (instrCount_mkVexRm ..)

theorem vexMemoryCount_mkVexRm (l : Bool) (e : Elem) :
    VexMemoryCount (FamilyReady · (vexFamily l)) (vexBits l) (laneBits e) (mkVexRm l e) := by
  intro s vex reg m a ha hready hfits hread
  obtain ⟨c, hcount, hc⟩ := countM128_of_readable hread
  rw [ha, length_mkVexRm] at hcount
  rw [← elementBits_mkVexRm l e vex reg (.mem m), ← hc]
  exact vexResult_of_instrCount_ok (familyOf_mkVexRm ..) (destYmm_mkVexRm ..) (valueYmm_mkVexRm ..) hready hfits
    ((instrCount_mkVexRm ..).trans hcount)

theorem vexImmediateCount_mkVexImm (l : Bool) (e : Elem) :
    VexImmediateCount (FamilyReady · (vexFamily l)) (vexBits l) (laneBits e) (mkVexImm l e) := by
  intro s vex n imm8 hready hfits
  rw [← elementBits_mkVexImm l e vex (.reg n imm8), ← toNat_countImm]
  exact vexResult_of_instrCount_ok (familyOf_mkVexImm ..) (destYmm_mkVexImm ..) (valueYmm_mkVexImm ..) hready hfits
    (instrCount_mkVexImm_reg ..)

/-- Settles O21: the count of a register operand is always read. -/
theorem avxRegisterCountShiftsSourceAndZeroesUpper : Obligations.AvxRegisterCountShiftsSourceAndZeroesUpper :=
  ⟨vexRegisterCount_mkVexRm false .word, vexRegisterCount_mkVexRm false .dword, vexRegisterCount_mkVexRm false .qword⟩

/-- Settles O22: the count is read where the operand is readable, at any alignment. -/
theorem avxMemoryCountShiftsSourceAndZeroesUpper : Obligations.AvxMemoryCountShiftsSourceAndZeroesUpper :=
  ⟨vexMemoryCount_mkVexRm false .word, vexMemoryCount_mkVexRm false .dword, vexMemoryCount_mkVexRm false .qword⟩

/-- Settles O23: the count is the immediate, and the destination the register `vvvv`. -/
theorem avxImmediateCountShiftsSourceAndZeroesUpper : Obligations.AvxImmediateCountShiftsSourceAndZeroesUpper :=
  ⟨vexImmediateCount_mkVexImm false .word, vexImmediateCount_mkVexImm false .dword,
    vexImmediateCount_mkVexImm false .qword⟩

/-! ## The upper half of the destination -/

/-- The count that an instruction reads is `COUNT` (`40_shift_functions.md` R80). -/
theorem toNat_of_instrCount_ok {i : Instr} {s : State} {c : Quad} (h : instrCount i s = .ok c) :
    c.toNat = countOf s i := by
  unfold instrCount at h
  unfold countOf
  cases htail : tailOf i with
  | rm reg rm =>
    rw [htail] at h
    cases rm with
    | reg n =>
      cases hfam : familyOf i <;> rw [hfam] at h
      case mmx => cases h; rfl
      all_goals cases h; exact toNat_countXmmReg ..
    | mem m =>
      cases hfam : familyOf i <;> rw [hfam] at h
      case mmx => exact toNat_of_countMm_mem_ok h
      case sse2 =>
        by_cases haligned : (operandAddr s i m).toNat % 16 = 0
        · exact toNat_of_countM128_ok ((countSse_aligned haligned).symm.trans h)
        · cases (countSse_misaligned haligned).symm.trans h
      all_goals exact toNat_of_countM128_ok h
  | imm rm =>
    rw [htail] at h
    cases rm with
    | reg n imm8 => cases hfam : familyOf i <;> rw [hfam] at h <;> cases h <;> exact toNat_countImm imm8
    | memForm mod rm => cases hfam : familyOf i <;> rw [hfam] at h <;> cases h

/-- A form that completes has made its write with `COUNT`. -/
theorem ymmReg_of_completed {s t : State} {i : Instr} (h : exec i s = .next t) (ht : t.fault = none) :
    ∃ c, c.toNat = countOf s i ∧ ∀ r, t.ymmReg r = (instrWrite i s c).ymmReg r := by
  rcases exec_next_instrWrite h with ⟨e, rfl⟩ | ⟨c, hcount, rfl⟩
  · cases ht
  · exact ⟨c, toNat_of_instrCount_ok hcount, fun _ => rfl⟩

theorem toNat_upperHalf (v : Vec) : (v.extractLsb' 128 128).toNat = v.toNat / 2 ^ 128 := by
  have := v.isLt
  rw [BitVec.extractLsb'_toNat, Nat.shiftRight_eq_div_pow, Nat.mod_eq_of_lt (by omega)]

/-- A register is its upper half above `XMM[r]`. -/
theorem upperHalf_append_xmmReg (s : State) (r : BitVec 4) :
    ((s.ymmReg r).extractLsb' 128 128 ++ s.xmmReg r : BitVec 256) = s.ymmReg r :=
  BitVec.eq_of_toNat_eq <| by
    rw [toNat_append_halves, toNat_upperHalf, toNat_xmmReg, Nat.mul_comm, Nat.div_add_mod]

section Completed

variable {s t : State} {i : Instr} {d value : BitVec 4} (hexec : exec i s = .next t) (hfault : t.fault = none)
  (hdest : destYmm s.cfg.mode i = some d)

include hexec hfault hdest

theorem ymmReg_of_completed_avx (hfam : familyOf i = .avx) (hvalue : valueYmm s.cfg.mode i = some value) :
    t.ymmReg d = vexShifted false (elementBits i) s value (countOf s i) := by
  obtain ⟨c, hc, hreg⟩ := ymmReg_of_completed hexec hfault
  rw [hreg, instrWrite_of_vex (l := false) hfam hdest hvalue, State.ymmReg_setYmm_self, hc]

theorem ymmReg_of_completed_sse2 (hfam : familyOf i = .sse2) :
    t.ymmReg d = (s.ymmReg d).extractLsb' 128 128 ++ sll (elementBits i) (s.xmmReg d) (countOf s i) := by
  obtain ⟨c, hc, hreg⟩ := ymmReg_of_completed hexec hfault
  rw [hreg, instrWrite_of_sse2 hfam hdest, State.ymmReg_setXmmKeep, if_pos rfl, hc]

end Completed

/-- Settles O42: the destination is the shifted value below zeros, or below the upper half as it was; the shift copies at a
count of 0 and clears at a count above the limit. -/
theorem vex128ZeroesTheUpperHalfAndSse2KeepsIt : Obligations.Vex128ZeroesTheUpperHalfAndSse2KeepsIt := by
  intro s t i d v _ hexec hfault hdest hvalue
  obtain ⟨hpos, hdvd⟩ := lanes_tile_value _ (elementBits_mem i) 128 (by decide)
  refine ⟨fun hfam => ?_, fun hfam => ?_⟩
  · rw [ymmReg_of_completed_avx hexec hfault hdest hfam hvalue]
    refine ⟨toNat_vexShifted_lt .., fun hzero => ?_, fun hlimit => ?_⟩
    · rw [toNat_vexShifted_false, hzero, sll_zero hpos hdvd, toNat_xmmReg]
    · rw [vexShifted, sll_of_width_le hpos hdvd hlimit, BitVec.setWidth_zero]
  · rw [ymmReg_of_completed_sse2 hexec hfault hdest hfam]
    refine ⟨?_, fun hzero => ?_, fun hlimit => ?_⟩
    · rw [toNat_append_div, toNat_upperHalf]
    · rw [hzero, sll_zero hpos hdvd, upperHalf_append_xmmReg]
    · rw [toNat_append_mod, sll_of_width_le hpos hdvd hlimit, BitVec.toNat_zero]

end Sys2Proof.Proofs

/-! # Results of the AVX2 forms: every lane of the 256 bits

The case `VEX.L = 1` of the results of the VEX forms: the value shifted has 256 bits, so its lanes are all those of the
destination (`44_vex256_avx2.md` R126). -/

namespace Sys2Proof.Proofs

open Machine Safety Statements

/-- Settles O24: the count of a register operand is always read. -/
theorem avx2RegisterCountShiftsEveryLaneOfTheSource : Obligations.Avx2RegisterCountShiftsEveryLaneOfTheSource :=
  ⟨vexRegisterCount_mkVexRm true .word, vexRegisterCount_mkVexRm true .dword, vexRegisterCount_mkVexRm true .qword⟩

/-- Settles O25: the count is read where the operand is readable, at any alignment. -/
theorem avx2MemoryCountShiftsEveryLaneOfTheSource : Obligations.Avx2MemoryCountShiftsEveryLaneOfTheSource :=
  ⟨vexMemoryCount_mkVexRm true .word, vexMemoryCount_mkVexRm true .dword, vexMemoryCount_mkVexRm true .qword⟩

/-- Settles O26: the count is the immediate, and the destination the register `vvvv`. -/
theorem avx2ImmediateCountShiftsEveryLaneOfTheSource : Obligations.Avx2ImmediateCountShiftsEveryLaneOfTheSource :=
  ⟨vexImmediateCount_mkVexImm true .word, vexImmediateCount_mkVexImm true .dword,
    vexImmediateCount_mkVexImm true .qword⟩

end Sys2Proof.Proofs

/-! # Exceptions: which one is taken, and when none is

The causes of `60_exceptions.md` R141 are a list in `Sys2Proof/Safety.lean`; the machine has a check and a count.
`firstCause_eq` ties the two: the first present cause is the exception of the check, or else the one of the count. What
the exceptions of a form are is then read off the list. -/

namespace Sys2Proof.Proofs

open Machine Safety

/-! ## The first present cause of a list -/

/-- The exception of the first cause that is present. -/
def firstPresent (l : List (Bool × Exc)) : Option Exc := (l.find? Prod.fst).map Prod.snd

@[simp] theorem firstPresent_nil : firstPresent [] = none := rfl

@[simp] theorem firstPresent_cons (b : Bool) (e : Exc) (l : List (Bool × Exc)) :
    firstPresent ((b, e) :: l) = if b = true then some e else firstPresent l := by
  cases b <;> rfl

theorem firstPresent_cons_eq_some {b : Bool} {e e' : Exc} {l : List (Bool × Exc)} :
    firstPresent ((b, e) :: l) = some e' ↔ b = true ∧ e = e' ∨ b = false ∧ firstPresent l = some e' := by
  cases b <;> simp

theorem firstPresent_append (l l' : List (Bool × Exc)) :
    firstPresent (l ++ l') = (firstPresent l).or (firstPresent l') := by
  rw [firstPresent, List.find?_append, Option.map_or]
  rfl

/-- The exception of the first present cause stands in the list. -/
theorem mem_of_firstPresent {l : List (Bool × Exc)} {e : Exc} (h : firstPresent l = some e) : (true, e) ∈ l := by
  obtain ⟨⟨b, e'⟩, hfind, rfl⟩ := Option.map_eq_some_iff.mp h
  obtain rfl : b = true := List.find?_some hfind
  exact List.mem_of_find?_eq_some hfind

/-! ## The two halves of R141's list -/

/-- The causes that are tested before the operands are read. -/
def checkCauses (s : State) (i : Instr) : List (Bool × Exc) :=
  [(immMemForm i || !featureSet s (familyOf i), .ud),
    (osStateUd s (familyOf i), .ud),
    (s.ctl.cr0Ts, .nm),
    (familyOf i == .mmx && s.ctl.x87Pending, .mf)]

/-- The causes that an operand at an address has, by the family of the form. -/
def addressCauses (s : State) (f : Family) (a : Quad) (bytes : Nat) : List (Bool × Exc) :=
  [(f == .sse2 && a.toNat % 16 != 0, .gp0),
    (!decide (Readable s a bytes), .memFault a),
    (f == .mmx && a.toNat % 8 != 0 && !decide (AlignCheckOff s), .ac0)]

/-- The causes that the memory operand has; none without one. -/
def operandCauses (s : State) (i : Instr) : List (Bool × Exc) :=
  match memOperandOf i with
  | none => []
  | some m => addressCauses s (familyOf i) (operandAddr s i m) (operandBytes i)

theorem operandCauses_of_none {s : State} {i : Instr} (h : memOperandOf i = none) : operandCauses s i = [] := by
  rw [operandCauses, h]

theorem operandCauses_of_some {s : State} {i : Instr} {m : MemOperand} (h : memOperandOf i = some m) :
    operandCauses s i = addressCauses s (familyOf i) (operandAddr s i m) (operandBytes i) := by
  rw [operandCauses, h]

theorem firstCause_eq_or (s : State) (i : Instr) :
    firstCause s i = (firstPresent (checkCauses s i)).or (firstPresent (operandCauses s i)) :=
  firstPresent_append (checkCauses s i) (operandCauses s i)

/-- The operating-system state of a family, as its part of the list of causes (R132 to R134). -/
theorem osCheck_eq_firstPresent (s : State) (f : Family) :
    osCheck s f = firstPresent
      [(osStateUd s f, .ud), (s.ctl.cr0Ts, .nm), (f == .mmx && s.ctl.x87Pending, .mf)] := by
  cases f with
  | mmx => simp [osCheck, osMmx, osStateUd]
  | sse2 => simp [osCheck, osSse, osStateUd]
  | avx => simp [osCheck, osAvx, osStateUd, or_assoc]
  | avx2 => simp [osCheck, osAvx, osStateUd, or_assoc]

/-- The check of an instruction is the first half of the list. -/
theorem instrCheck_eq_firstPresent (i : Instr) (s : State) : instrCheck i s = firstPresent (checkCauses s i) := by
  rw [instrCheck, checkCauses, firstPresent_cons, ← osCheck_eq_firstPresent]
  cases immMemForm i <;> cases featureSet s (familyOf i) <;> rfl

/-! ## The exception of a count -/

/-- The exception that a count answers, if any. -/
def countFault : Except Exc Quad → Option Exc
  | .error e => some e
  | .ok _ => none

theorem memRead_of_readable {s : State} {a : Quad} {n : Nat} (h : Readable s a n) :
    memRead s a n = .ok (s.mem.readLe a.toNat n) := by
  obtain ⟨htop, hadmit⟩ := h
  exact memRead_ok htop hadmit

theorem memRead_of_not_readable {s : State} {a : Quad} {n : Nat} (h : ¬Readable s a n) :
    memRead s a n = .error (.memFault a) := by
  rcases memRead_cases s a n with ⟨he, -⟩ | ⟨-, htop, hadmit⟩
  · exact he
  · exact absurd ⟨htop, hadmit⟩ h

theorem countFault_countM128 (s : State) (a : Quad) :
    countFault (countM128 s a) = firstPresent [(!decide (Readable s a 16), .memFault a)] := by
  by_cases hread : Readable s a 16
  · rw [countM128, memRead_of_readable hread, decide_eq_true hread]
    rfl
  · rw [countM128_of_error (memRead_of_not_readable hread), decide_eq_false hread]
    rfl

/-- The condition of `#AC(0)`, as the list of causes spells it. -/
theorem not_decide_alignCheckOff (s : State) : (!decide (AlignCheckOff s)) = alignCheckOn s := by
  have hoff : decide (AlignCheckOff s) = decide (alignCheckOn s = false) :=
    decide_eq_decide.mpr alignCheckOn_eq_false_iff.symm
  rw [hoff, Bool.decide_eq_false, Bool.not_not]

section AddressCauses

variable (s : State) (ext : ExtBits) (len : Nat) (m : MemOperand)

theorem countFault_countMm :
    countFault (countMm s ext len (.mem m)) = firstPresent (addressCauses s .mmx (effAddr s ext len m) 8) := by
  rw [addressCauses, not_decide_alignCheckOff]
  by_cases hread : Readable s (effAddr s ext len m) 8
  · rw [countMm_mem, memRead_of_readable hread, decide_eq_true hread]
    by_cases hac : alignCheckOn s = true ∧ (effAddr s ext len m).toNat % 8 ≠ 0
    · simp [hac, countFault]
    · simp [hac, countFault, and_comm]
  · rw [countMm_of_error (memRead_of_not_readable hread), decide_eq_false hread]
    rfl

theorem countFault_countSse :
    countFault (countSse s ext len (.mem m)) = firstPresent (addressCauses s .sse2 (effAddr s ext len m) 16) := by
  by_cases haligned : (effAddr s ext len m).toNat % 16 = 0
  · rw [countSse_aligned haligned, countFault_countM128]
    simp [addressCauses, haligned]
  · rw [countSse_misaligned haligned]
    simp [addressCauses, haligned, countFault]

theorem countFault_countVex {f : Family} (hf : f = .avx ∨ f = .avx2) :
    countFault (countVex s ext len (.mem m)) = firstPresent (addressCauses s f (effAddr s ext len m) 16) := by
  refine (countFault_countM128 s (effAddr s ext len m)).trans ?_
  rcases hf with rfl | rfl <;> simp [addressCauses]

end AddressCauses

/-- The operands of a form without a memory operand: a register, or those of an immediate form. -/
theorem tailOf_of_no_memOperand {i : Instr} (h : memOperandOf i = none) :
    (∃ reg n, tailOf i = .rm reg (.reg n)) ∨ ∃ rm, tailOf i = .imm rm := by
  unfold memOperandOf at h
  cases htail : tailOf i with
  | imm rm => exact .inr ⟨rm, rfl⟩
  | rm reg rm =>
    cases rm with
    | reg n => exact .inl ⟨reg, n, rfl⟩
    | mem m => rw [htail] at h; cases h

/-- A form that has a meaning and no memory operand finds its count. -/
theorem instrCount_of_no_memOperand {i : Instr} (hform : immMemForm i = false) (hm : memOperandOf i = none) (s : State) :
    ∃ c, instrCount i s = .ok c := by
  unfold immMemForm at hform
  unfold instrCount
  rcases tailOf_of_no_memOperand hm with ⟨reg, n, htail⟩ | ⟨rm, htail⟩ <;> rw [htail] at hform ⊢
  · cases familyOf i <;> exact ⟨_, rfl⟩
  · cases rm with
    | reg n imm8 => cases familyOf i <;> exact ⟨_, rfl⟩
    | memForm mod rm => cases hform

/-- The exception of the count is the second half of the list. -/
theorem countFault_instrCount {i : Instr} (hform : immMemForm i = false) (s : State) :
    countFault (instrCount i s) = firstPresent (operandCauses s i) := by
  cases hm : memOperandOf i with
  | none =>
    obtain ⟨c, hc⟩ := instrCount_of_no_memOperand hform hm s
    rw [hc, operandCauses_of_none hm]
    rfl
  | some m =>
    obtain ⟨reg, ht⟩ := tailOf_of_memOperandOf hm
    rw [operandCauses_of_some hm, instrCount, ht, operandBytes, operandAddr]
    cases familyOf i with
    | mmx => exact countFault_countMm ..
    | sse2 => exact countFault_countSse ..
    | avx => exact countFault_countVex _ _ _ _ (.inl rfl)
    | avx2 => exact countFault_countVex _ _ _ _ (.inr rfl)

/-! ## The first present cause decides -/

/-- The first present cause of R141 is the exception of the check, or else that of the count. -/
theorem firstCause_eq (s : State) (i : Instr) :
    firstCause s i = (instrCheck i s).or (countFault (instrCount i s)) := by
  rw [firstCause_eq_or, ← instrCheck_eq_firstPresent]
  cases hform : immMemForm i with
  | true => rw [instrCheck, if_pos hform, Option.some_or, Option.some_or]
  | false => rw [countFault_instrCount hform]

theorem exec_of_firstCause {s : State} {i : Instr} {e : Exc} (h : firstCause s i = some e) :
    exec i s = .next (faultedWith s e) := by
  rw [firstCause_eq] at h
  rw [exec_eq_runForm]
  rcases runForm_cases s (instrCheck i s) (instrCount i s) (instrWrite i s) i.length with
    ⟨e', hcheck, he⟩ | ⟨e', hcheck, hcount, he⟩ | ⟨c, hcheck, hcount, -⟩
  · rw [hcheck, Option.some_or] at h; cases h; exact he
  · rw [hcheck, hcount] at h; cases h; exact he
  · rw [hcheck, hcount] at h; cases h

/-- Without a present cause the checks pass and the count is found. -/
theorem instrCount_of_firstCause_none {s : State} {i : Instr} (h : firstCause s i = none) :
    instrCheck i s = none ∧ ∃ c, instrCount i s = .ok c := by
  rw [firstCause_eq, Option.or_eq_none_iff] at h
  obtain ⟨hcheck, hcount⟩ := h
  refine ⟨hcheck, ?_⟩
  cases hc : instrCount i s with
  | error e => rw [hc] at hcount; cases hcount
  | ok c => exact ⟨c, rfl⟩

/-- The write of an instruction changes register files alone. -/
theorem instrWrite_fields (i : Instr) (s : State) (c : Quad) :
    ∃ mm ymm, instrWrite i s c = { s with mm := mm, ymm := ymm } := by
  unfold instrWrite
  split <;> exact ⟨_, _, rfl⟩

/-- Settles O35: the first present cause is the exception of the check or of the count; without one the form makes its write
and advances, or the advance is refused. -/
theorem firstPresentCauseDecidesTheOutcome : Obligations.FirstPresentCauseDecidesTheOutcome := by
  intro s i
  refine ⟨fun e => exec_of_firstCause, fun hnone hfits => ?_, fun hnone hfits => ?_⟩
  · obtain ⟨hcheck, c, hcount⟩ := instrCount_of_firstCause_none hnone
    obtain ⟨mm, ymm, hwrite⟩ := instrWrite_fields i s c
    exact ⟨mm, ymm, by rw [exec_of_instrCount_ok hcheck hcount hfits, hwrite]⟩
  · obtain ⟨hcheck, c, hcount⟩ := instrCount_of_firstCause_none hnone
    obtain ⟨hpc, hcfg, -⟩ := instrWrite_keeps i s c
    rw [exec_eq_runForm, hcheck, hcount, runForm_ok, advance_refused (by rw [hpc, hcfg]; exact Nat.lt_of_not_le hfits)]

/-- The exception that an instruction takes is the first present cause. -/
theorem firstCause_of_fault {s t : State} {i : Instr} {r : FaultRecord} (hf : s.fault = none) (h : exec i s = .next t)
    (hr : t.fault = some r) : firstCause s i = some r.kind := by
  cases hcause : firstCause s i with
  | some e => rw [exec_of_firstCause hcause] at h; cases h; cases hr; rfl
  | none =>
    obtain ⟨hcheck, c, hcount⟩ := instrCount_of_firstCause_none hcause
    obtain ⟨-, -, hfault⟩ := instrWrite_keeps i s c
    rw [exec_eq_runForm, hcheck, hcount, runForm_ok] at h
    obtain ⟨-, rfl⟩ := advance_next h
    cases hr.symm.trans (hfault.trans hf)

/-- An exception is taken exactly where it is the first present cause. -/
theorem exec_eq_faultedWith_iff {s : State} {i : Instr} {e : Exc} (hf : s.fault = none) :
    exec i s = .next (faultedWith s e) ↔ firstCause s i = some e :=
  ⟨fun h => firstCause_of_fault hf h rfl, exec_of_firstCause⟩

/-! ## The checks: feature flag and operating-system state -/

theorem exec_of_instrCheck {s : State} {i : Instr} {e : Exc} (h : instrCheck i s = some e) :
    exec i s = .next (faultedWith s e) := by
  rw [exec_eq_runForm, h, runForm_check, raiseExc_eq]

/-- Settles O27: the feature flag is the second check, and the first raises `#UD` too. -/
theorem clearFeatureFlagRaisesUd : Obligations.ClearFeatureFlagRaisesUd := by
  intro s i hclear
  refine exec_of_instrCheck ?_
  rw [instrCheck, hclear, formCheck_false, ite_self]

/-- With `mod` and the feature flag in order, the check is that of the operating-system state. -/
theorem exec_of_osCheck {s : State} {i : Instr} {f : Family} {e : Exc} (hfam : familyOf i = f)
    (hform : immMemForm i = false) (hset : featureSet s f = true) (h : osCheck s f = some e) :
    exec i s = .next (faultedWith s e) := by
  refine exec_of_instrCheck ?_
  rw [instrCheck, hform, hfam, hset, formCheck_true, h, if_neg Bool.false_ne_true]

/-- The check raises `#UD`, `#NM` or `#MF` and nothing else. -/
theorem kind_of_instrCheck {s : State} {i : Instr} {e : Exc} (h : instrCheck i s = some e) :
    e = .ud ∨ e = .nm ∨ e = .mf := by
  have hmem := mem_of_firstPresent ((instrCheck_eq_firstPresent i s).symm.trans h)
  simp only [checkCauses, List.mem_cons, Prod.mk.injEq, List.not_mem_nil, or_false] at hmem
  tauto

/-- A memory operand raises none of them. -/
theorem kind_of_operandCauses {s : State} {i : Instr} {e : Exc} (h : firstPresent (operandCauses s i) = some e) :
    e ≠ .ud ∧ e ≠ .nm ∧ e ≠ .mf := by
  cases hm : memOperandOf i with
  | none => rw [operandCauses_of_none hm] at h; cases h
  | some m =>
    rw [operandCauses_of_some hm] at h
    have hmem := mem_of_firstPresent h
    simp only [addressCauses, List.mem_cons, Prod.mk.injEq, List.not_mem_nil, or_false] at hmem
    rcases hmem with ⟨-, rfl⟩ | ⟨-, rfl⟩ | ⟨-, rfl⟩ <;> exact ⟨nofun, nofun, nofun⟩

/-- Where the checks pass, the exception that is taken is none of theirs. -/
theorem kind_of_fault_of_ready {s t : State} {i : Instr} {r : FaultRecord} (hcheck : instrCheck i s = none)
    (hf : s.fault = none) (h : exec i s = .next t) (hr : t.fault = some r) :
    r.kind ≠ .ud ∧ r.kind ≠ .nm ∧ r.kind ≠ .mf := by
  have hcause := firstCause_of_fault hf h hr
  rw [firstCause_eq_or, ← instrCheck_eq_firstPresent, hcheck, Option.none_or] at hcause
  exact kind_of_operandCauses hcause

/-- Settles O28: the tests of `osMmx`, in their order. -/
theorem mmxOperatingSystemState : Obligations.MmxOperatingSystemState := by
  intro s i hfam hform hset
  have hos {e : Exc} (h : osMmx s = some e) := exec_of_osCheck (f := .mmx) hfam hform hset h
  refine ⟨fun hem => hos ?_, fun hem hts => hos ?_, fun hem hts hpending => hos ?_, fun hready hf t r h hr => ?_⟩
  · simp [osMmx, hem]
  · simp [osMmx, hem, hts]
  · simp [osMmx, hem, hts, hpending]
  · exact kind_of_fault_of_ready (instrCheck_eq_none_iff.mpr ⟨hform, by rw [hfam]; exact ⟨hset, hready⟩⟩) hf h hr

/-- Settles O29: the tests of `osSse`, in their order. -/
theorem sseOperatingSystemState : Obligations.SseOperatingSystemState := by
  intro s i hfam hform hset
  have hos {e : Exc} (h : osSse s = some e) := exec_of_osCheck (f := .sse2) hfam hform hset h
  refine ⟨fun hud => hos ?_, fun hem hfxsr hts => hos ?_, fun hready hf t r h hr => ?_⟩
  · simp [osSse, hud]
  · simp [osSse, hem, hfxsr, hts]
  · have hcheck := instrCheck_eq_none_iff.mpr ⟨hform, by rw [hfam]; exact ⟨hset, hready⟩⟩
    obtain ⟨hud, hnm, -⟩ := kind_of_fault_of_ready hcheck hf h hr
    exact ⟨hud, hnm⟩

/-- AVX and AVX2 forms have one check of the operating-system state, and one set of premises beside the feature flag. -/
theorem osCheck_and_ready_of_vex {s : State} {f : Family} (h : f = .avx ∨ f = .avx2) :
    osCheck s f = osAvx s ∧ (featureSet s f = true → OsAvxOk s → FamilyReady s f) := by
  rcases h with rfl | rfl <;> exact ⟨rfl, And.intro⟩

/-- Settles O30: the tests of `osAvx`, in their order. -/
theorem avxOperatingSystemState : Obligations.AvxOperatingSystemState := by
  intro s i hfam hform hset
  obtain ⟨hosAvx, hfamilyReady⟩ := osCheck_and_ready_of_vex (s := s) hfam
  have hos {e : Exc} (h : osAvx s = some e) := exec_of_osCheck rfl hform hset (hosAvx.trans h)
  refine ⟨fun hud => hos ?_, fun hsave hsse havx hts => hos ?_, fun hready hf t r h hr => ?_⟩
  · simp [osAvx, hud]
  · simp [osAvx, hsave, hsse, havx, hts]
  · have hcheck := instrCheck_eq_none_iff.mpr ⟨hform, hfamilyReady hset hready⟩
    obtain ⟨hud, hnm, -⟩ := kind_of_fault_of_ready hcheck hf h hr
    exact ⟨hud, hnm⟩

/-! ## The alignment of a memory operand -/

/-- An exception that no check raises is taken exactly where the checks pass and it is the operand's first cause. -/
theorem firstCause_eq_some_iff {s : State} {i : Instr} {e : Exc} (h : ¬(e = .ud ∨ e = .nm ∨ e = .mf)) :
    firstCause s i = some e ↔ instrCheck i s = none ∧ firstPresent (operandCauses s i) = some e := by
  rw [firstCause_eq_or, ← instrCheck_eq_firstPresent]
  cases hcheck : instrCheck i s with
  | none => simp
  | some e' =>
    have hne : e' ≠ e := fun he => h (he ▸ kind_of_instrCheck hcheck)
    simp [hne]

/-- The same with the operand written out. -/
theorem exec_eq_operandFault_iff {s : State} {i : Instr} {e : Exc} (hf : s.fault = none)
    (h : ¬(e = .ud ∨ e = .nm ∨ e = .mf)) :
    exec i s = .next (faultedWith s e) ↔ FamilyReady s (familyOf i) ∧ ∃ m, memOperandOf i = some m ∧
      firstPresent (addressCauses s (familyOf i) (operandAddr s i m) (operandBytes i)) = some e := by
  rw [exec_eq_faultedWith_iff hf, firstCause_eq_some_iff h, instrCheck_eq_none_iff]
  cases hm : memOperandOf i with
  | none => simp [operandCauses_of_none hm]
  | some m => simp [operandCauses_of_some hm, immMemForm_of_memOperandOf hm]

theorem firstPresent_addressCauses_gp0 {s : State} {f : Family} {a : Quad} {n : Nat} :
    firstPresent (addressCauses s f a n) = some .gp0 ↔ f = .sse2 ∧ a.toNat % 16 ≠ 0 := by
  simp only [addressCauses, firstPresent_cons_eq_some]
  simp

/-- `#AC(0)` comes after the memory faults; `#GP(0)` does not stand before it, since no form has both. -/
theorem firstPresent_addressCauses_ac0 {s : State} {f : Family} {a : Quad} {n : Nat} :
    firstPresent (addressCauses s f a n) = some .ac0 ↔
      f = .mmx ∧ Readable s a n ∧ a.toNat % 8 ≠ 0 ∧ ¬AlignCheckOff s := by
  rw [addressCauses, not_decide_alignCheckOff, ← alignCheckOn_eq_false_iff, Bool.not_eq_false]
  simp only [firstPresent_cons_eq_some, Bool.not_eq_false', decide_eq_true_iff]
  cases f with
  | mmx => simp
  | sse2 | avx | avx2 => simp

/-- Settles O33: `#GP(0)` is the first cause of an operand, and SSE2 forms alone have it. -/
theorem misalignmentFaultsExactlyTheLegacyM128Forms : Obligations.MisalignmentFaultsExactlyTheLegacyM128Forms := by
  intro s i hf
  rw [exec_eq_operandFault_iff hf (by simp)]
  simp only [firstPresent_addressCauses_gp0]
  constructor
  · rintro ⟨hready, m, hm, hfam, halign⟩
    rw [hfam] at hready
    exact ⟨hfam, hready, m, hm, halign⟩
  · rintro ⟨hfam, hready, m, hm, halign⟩
    rw [hfam]
    exact ⟨hready, m, hm, rfl, halign⟩

/-- Settles O34: `#AC(0)` is the last cause of an operand, and MMX forms alone have it. -/
theorem alignmentCheckConcernsMisalignedM64Alone : Obligations.AlignmentCheckConcernsMisalignedM64Alone := by
  intro s i hf
  rw [exec_eq_operandFault_iff hf (by simp)]
  simp only [firstPresent_addressCauses_ac0]
  have hbytes (hfam : familyOf i = .mmx) : operandBytes i = 8 := by rw [operandBytes, hfam]
  constructor
  · rintro ⟨hready, m, hm, hfam, hread, halign, hon⟩
    rw [hbytes hfam] at hread
    rw [hfam] at hready
    exact ⟨hfam, hready, hon, m, hm, hread, halign⟩
  · rintro ⟨hfam, hready, hon, m, hm, hread, halign⟩
    rw [hbytes hfam, hfam]
    exact ⟨hready, m, hm, rfl, hread, halign, hon⟩

/-! ## Precise and terminal -/

/-- Settles O36: a step starts without a fault, so the fault that it leaves is the exception it took. -/
theorem faultsArePreciseAndTerminal : Obligations.FaultsArePreciseAndTerminal := by
  refine ⟨fun s t r h hr => ?_, fun s r hr => ⟨fun t h => ?_, fun ⟨hf, _⟩ => ?_⟩, rfl⟩
  · obtain ⟨hf, ⟨e, rfl⟩ | ⟨len, mm, ymm, -, rfl⟩⟩ := step_next_fields h
    · cases hr; exact ⟨rfl, rfl⟩
    · cases hr.symm.trans hf
  · rw [step_of_fault hr] at h; cases h
  · cases hr.symm.trans hf

/-! ## Forms without a memory operand -/

theorem instrCount_withMem_of_no_memOperand {i : Instr} (hm : memOperandOf i = none) (mem' : Memory) (s : State) :
    instrCount i (withMem mem' s) = instrCount i s := by
  unfold instrCount
  rcases tailOf_of_no_memOperand hm with ⟨reg, n, htail⟩ | ⟨rm, htail⟩ <;> rw [htail]
  · cases familyOf i <;> rfl
  · cases rm <;> cases familyOf i <;> rfl

/-- Settles O39: other contents of memory are a passive change that keeps the count, and without an operand the only causes
are those of the check. -/
theorem registerAndImmediateFormsAccessNoMemory : Obligations.RegisterAndImmediateFormsAccessNoMemory := by
  intro s i hm
  refine ⟨fun mem' => ?_, fun hf t r h hr => ?_⟩
  · exact (passive_withMem mem').exec_map (instrCount_withMem_of_no_memOperand hm mem' s)
      (instrWrite_map rfl rfl (fun _ _ => rfl) (fun _ _ _ => rfl) (fun _ _ => rfl) fun _ _ => rfl)
  · have hcause := firstCause_of_fault hf h hr
    rw [firstCause_eq_or, operandCauses_of_none hm, firstPresent_nil, Option.or_none,
      ← instrCheck_eq_firstPresent] at hcause
    exact kind_of_instrCheck hcause

end Sys2Proof.Proofs

/-! # Reset, the end of a run, and fetches that end before an instruction does -/

namespace Sys2Proof.Proofs

open Machine Safety

/-! ## How many bytes can be too few

No instruction has more than ten bytes (`30_encoding.md` R62), so bytes that the decoder finds too few are at most nine:
the window of a fetch holds them all. The walk through the readers is that of `ReadsOn`. -/

/-- Bytes that `f` finds too few are fewer than `n`. -/
def TruncatesBelow {α : Type} (n : Nat) (f : List Byte → Decoded α) : Prop :=
  ∀ bs, f bs = .error .truncated → bs.length < n

section TruncatesBelow

variable {α β : Type} {f g : List Byte → Decoded α} {n k : Nat}

theorem truncatesBelow_error (e : DecodeRefusal) (he : e ≠ .truncated := by nofun) :
    TruncatesBelow n fun _ => (.error e : Decoded α) :=
  fun _ h => absurd (Except.error.inj h) he

theorem truncatesBelow_ok (x : α) : TruncatesBelow n fun bs => (.ok (x, bs) : Decoded α) := nofun

theorem TruncatesBelow.mono (h : TruncatesBelow n f) (hnk : n ≤ k) : TruncatesBelow k f :=
  fun bs hbs => Nat.lt_of_lt_of_le (h bs hbs) hnk

/-- A reader of one byte and then more. -/
theorem truncatesBelow_of_cons (h : ∀ b, TruncatesBelow n fun bs => f (b :: bs)) : TruncatesBelow (n + 1) f := by
  intro bs hbs
  cases bs with
  | nil => exact Nat.succ_pos n
  | cons b bs => exact Nat.succ_lt_succ (h b bs hbs)

theorem TruncatesBelow.cons (h : TruncatesBelow (n + 1) f) (b : Byte) : TruncatesBelow n fun bs => f (b :: bs) :=
  fun bs hbs => Nat.lt_of_succ_lt_succ (h (b :: bs) hbs)

theorem TruncatesBelow.ite {c : Prop} [Decidable c] (hf : TruncatesBelow n f) (hg : TruncatesBelow n g) :
    TruncatesBelow n fun bs => if c then f bs else g bs := by
  by_cases hc : c
  · simpa only [hc, if_true] using hf
  · simpa only [hc, if_false] using hg

/-- A reader that refuses by name before it reads. -/
theorem TruncatesBelow.guarded {c : Prop} [Decidable c] {e : DecodeRefusal} (hg : TruncatesBelow n g)
    (he : e ≠ .truncated := by nofun) : TruncatesBelow n fun bs => if c then .error e else g bs :=
  (truncatesBelow_error e he).ite hg

theorem TruncatesBelow.mapValue (h : TruncatesBelow n f) (m : α → β) :
    TruncatesBelow n fun bs => mapValue m (f bs) := by
  intro bs hbs
  cases hf : f bs with
  | error e =>
    simp only [hf, Proofs.mapValue] at hbs
    cases hbs
    exact h bs hf
  | ok r => simp only [hf, Proofs.mapValue] at hbs; cases hbs

end TruncatesBelow

theorem truncatesBelow_takeDisp32 : TruncatesBelow 4 takeDisp32 :=
  truncatesBelow_of_cons fun _ => truncatesBelow_of_cons fun _ => truncatesBelow_of_cons fun _ =>
    truncatesBelow_of_cons fun _ => nofun

theorem truncatesBelow_takeDisp {mod : BitVec 2} (hmod : mod ≠ 3#2) : TruncatesBelow 4 (takeDisp mod) := by
  rcases mod_cases hmod with rfl | rfl | rfl
  · exact truncatesBelow_ok Disp.none
  · exact truncatesBelow_of_cons fun d => truncatesBelow_ok (Disp.disp8 d)
  · rw [funext takeDisp_two]
    exact truncatesBelow_takeDisp32.mapValue Disp.disp32

theorem truncatesBelow_takeMem {mod : BitVec 2} (hmod : mod ≠ 3#2) (rm : BitVec 3) :
    TruncatesBelow 5 (takeMem mod rm) := by
  have hdisp := truncatesBelow_takeDisp hmod
  by_cases hrm : rm = 4#3
  · refine truncatesBelow_of_cons fun b => ?_
    simp only [hrm, takeMem_of_sib, takeSib_cons]
    exact (truncatesBelow_takeDisp32.mapValue _).ite (hdisp.mapValue _)
  · rw [funext (takeMem_of_not_sib hrm)]
    exact ((truncatesBelow_takeDisp32.mapValue _).ite (hdisp.mapValue _)).mono (by decide)

theorem truncatesBelow_takeRm (modrm : Byte) : TruncatesBelow 5 (takeRm modrm) := by
  by_cases h : bits76 modrm = 3#2
  · rw [funext (takeRm_of_reg h)]
    exact truncatesBelow_ok _
  · rw [funext (takeRm_of_mem h)]
    exact (truncatesBelow_takeMem h _).mapValue _

theorem truncatesBelow_takeImm (modrm : Byte) : TruncatesBelow 5 (takeImm modrm) := by
  by_cases h : bits76 modrm = 3#2
  · refine truncatesBelow_of_cons fun imm8 => ?_
    simp only [takeImm_of_reg h]
    exact truncatesBelow_ok _
  · rw [funext (takeImm_of_mem h)]
    exact truncatesBelow_ok _

theorem truncatesBelow_decodeLegacyOperands (p66 : Bool) (rex : Option Rex) (e : Elem) (imm : Bool) (modrm : Byte) :
    TruncatesBelow 5 (decodeLegacyOperands p66 rex e imm modrm) := by
  unfold decodeLegacyOperands
  simp only [decodeLegacyImm_eq, decodeLegacyRm_eq]
  exact ((truncatesBelow_takeImm _).mapValue _).guarded.guarded.guarded.ite
    ((truncatesBelow_takeRm _).mapValue _).guarded.guarded

theorem truncatesBelow_decodeVexOperands (vex : Vex) (l : Bool) (e : Elem) (imm : Bool) (modrm : Byte) :
    TruncatesBelow 5 (decodeVexOperands vex l e imm modrm) := by
  unfold decodeVexOperands
  exact ((truncatesBelow_takeImm _).mapValue _).guarded.guarded.ite ((truncatesBelow_takeRm _).mapValue _)

theorem truncatesBelow_decodeAfterEscape (p66 : Bool) (rex : Option Rex) :
    TruncatesBelow 7 (decodeAfterEscape p66 rex) := by
  refine truncatesBelow_of_cons fun op => ?_
  cases h : opcodeRow op with
  | none => simpa only [decodeAfterEscape_unlisted h] using truncatesBelow_error (.opcodeNotListed op)
  | some row =>
    refine truncatesBelow_of_cons fun modrm => ?_
    simpa only [decodeAfterEscape_cons h] using truncatesBelow_decodeLegacyOperands p66 rex row.1 row.2 modrm

theorem truncatesBelow_decodeVexOpcode (vex : Vex) (l : Bool) : TruncatesBelow 7 (decodeVexOpcode vex l) := by
  refine truncatesBelow_of_cons fun op => ?_
  cases h : opcodeRow op with
  | none => simpa only [decodeVexOpcode_unlisted h] using truncatesBelow_error (.opcodeNotListed op)
  | some row =>
    refine truncatesBelow_of_cons fun modrm => ?_
    simpa only [decodeVexOpcode_cons h] using truncatesBelow_decodeVexOperands vex l row.1 row.2 modrm

/-- No refusal of a byte in the place of the escape byte is that of bytes that end too soon. -/
theorem escapeRefusal_ne_truncated (m : Mode) (p : Bool) (b : Byte) : escapeRefusal m p b ≠ .truncated := by
  unfold escapeRefusal
  split_ifs <;> exact nofun

theorem truncatesBelow_decodeEscape (m : Mode) (p66 : Bool) (rex : Option Rex) :
    TruncatesBelow 8 (decodeEscape m p66 rex) :=
  truncatesBelow_of_cons fun b =>
    (truncatesBelow_decodeAfterEscape p66 rex).ite (truncatesBelow_error _ (escapeRefusal_ne_truncated m _ b))

theorem truncatesBelow_decodeRex (m : Mode) (p66 : Bool) : TruncatesBelow 9 (decodeRex m p66) :=
  truncatesBelow_of_cons fun b => (truncatesBelow_decodeEscape m p66 _).ite
    (((truncatesBelow_decodeEscape m p66 none).cons b).mono (by decide))

theorem truncatesBelow_decodeLegacy (m : Mode) : TruncatesBelow 10 (decodeLegacy m) :=
  truncatesBelow_of_cons fun b => (truncatesBelow_decodeRex m true).ite
    (((truncatesBelow_decodeRex m false).cons b).mono (by decide))

theorem truncatesBelow_decodeVex2 (b1 : Byte) : TruncatesBelow 7 (decodeVex2 b1) :=
  (truncatesBelow_decodeVexOpcode _ _).guarded

theorem truncatesBelow_decodeVex3 (b1 : Byte) : TruncatesBelow 8 (decodeVex3 b1) :=
  truncatesBelow_of_cons fun _ => (truncatesBelow_decodeVexOpcode _ _).guarded.guarded

theorem truncatesBelow_decode (m : Mode) : TruncatesBelow maxLength (decode m) := by
  refine truncatesBelow_of_cons fun b => ?_
  by_cases hb : b = 0xC4#8 ∨ b = 0xC5#8
  · refine truncatesBelow_of_cons fun b1 => ?_
    by_cases hm : m = .mode64 ∨ bits76 b1 = 3#2
    · rcases hb with rfl | rfl
      · simpa only [decode_C4 hm] using truncatesBelow_decodeVex3 b1
      · simpa only [decode_C5 hm] using (truncatesBelow_decodeVex2 b1).mono (by decide)
    · simpa only [decode_of_not_vex fun h => hm h.2] using ((truncatesBelow_decodeLegacy m).cons b).cons b1
  · obtain ⟨h4, h5⟩ := not_or.mp hb
    simpa only [decode_of_ne_vex h4 h5] using (truncatesBelow_decodeLegacy m).cons b

/-! ## The window of a fetch that ends too soon -/

/-- Nothing is fetched from an address that does not exist or is not admitted. -/
theorem fetchBytes_of_stop {s : State} {a : Nat} (h : ¬(a < 2 ^ addrWidth s.cfg.mode ∧ admitsByte s.cfg a = true))
    (n : Nat) : fetchBytes s a n = [] := by
  cases n with
  | zero => rfl
  | succ n => exact if_neg h

/-- Bytes that stand at `pc` up to an address where fetching stops are the whole window. -/
theorem fetchWindow_of_standsAt {s : State} {bytes : List Byte} (h : StandsAt s s.pc.toNat bytes)
    (hlen : bytes.length ≤ maxLength)
    (hstop : ¬(s.pc.toNat + bytes.length < 2 ^ addrWidth s.cfg.mode ∧
      admitsByte s.cfg (s.pc.toNat + bytes.length) = true)) :
    fetchWindow s = bytes := by
  calc fetchWindow s
      = fetchBytes s s.pc.toNat (bytes.length + (maxLength - bytes.length)) := by
        rw [fetchWindow, Nat.add_sub_cancel' hlen]
    _ = bytes ++ fetchBytes s (s.pc.toNat + bytes.length) (maxLength - bytes.length) := fetchBytes_of_standsAt h _
    _ = bytes := by rw [fetchBytes_of_stop hstop, List.append_nil]

/-- Too few bytes before an address that exists run into a byte that is not admitted. -/
theorem fetch_of_truncated_inside {s : State} (h : decode s.cfg.mode (fetchWindow s) = .error .truncated)
    (hlt : s.pc.toNat + (fetchWindow s).length < 2 ^ addrWidth s.cfg.mode) : fetch s = .notAdmitted := by
  simp only [fetch, h, if_pos hlt]

/-- Too few bytes before the end of the address space run off its top. -/
theorem fetch_of_truncated_at_top {s : State} (h : decode s.cfg.mode (fetchWindow s) = .error .truncated)
    (hle : 2 ^ addrWidth s.cfg.mode ≤ s.pc.toNat + (fetchWindow s).length) : fetch s = .pastTop := by
  simp only [fetch, h, if_neg (Nat.not_lt.mpr hle)]

/-- Settles O55: bytes that are too few fit in the window, and fetching stops after them, so they are the window. -/
theorem fetchFromUnadmittedMemoryFaults : Obligations.FetchFromUnadmittedMemoryFaults := by
  intro s bytes hf he hbytes htrunc
  have hlen : bytes.length ≤ maxLength := (truncatesBelow_decode s.cfg.mode bytes htrunc).le
  have hwindow := fetchWindow_of_standsAt hbytes hlen
  refine ⟨fun hlt hadmit => ?_, fun hle => ?_⟩
  · have hw : fetchWindow s = bytes := hwindow (by simp [hadmit])
    rw [step_of_fetch hf he, fetch_of_truncated_inside (by rwa [hw]) (by rwa [hw])]
    rfl
  · have hw : fetchWindow s = bytes := hwindow fun h => Nat.not_lt.mpr hle h.1
    rw [step_of_fetch hf he, fetch_of_truncated_at_top (by rwa [hw]) (by rwa [hw])]
    rfl

/-- The last two bytes of the address space, `0F F1`, begin an instruction that ends beyond it. -/
def atTop : State :=
  { State.reset with
    pc := 0xFFFFFFFFFFFFFFFE#64
    mem := State.reset.mem.writeBytes 0xFFFFFFFFFFFFFFFE [0x0F#8, 0xF1#8] }

/-- Truncated bytes do stand at the top of the space, where the second clause of O55 refuses the step. -/
theorem step_atTop : step atTop = .refused .pcPastTop :=
  (fetchFromUnadmittedMemoryFaults atTop [0x0F#8, 0xF1#8] rfl nofun (by decide) rfl).2 (by decide)

/-! ## Bytes that are refused, the end of a run, and reset -/

theorem fetch_of_refused {s : State} {why : DecodeRefusal} (h : decode s.cfg.mode (fetchWindow s) = .error why)
    (hwhy : why ≠ .truncated) : fetch s = .refused why := by
  cases why with
  | truncated => exact absurd rfl hwhy
  | _ => simp only [fetch, h]

/-- Settles O57, by the fetch. -/
theorem refusedBytesGiveNoStep : Obligations.RefusedBytesGiveNoStep := by
  intro s why hf he h hwhy
  rw [step_of_fetch hf he, fetch_of_refused h hwhy, afterFetch]

/-- Settles O56: `END` is asked for before the fetch. -/
theorem runIsOverAtEnd : Obligations.RunIsOverAtEnd := by
  intro s hf
  exact ⟨⟨fun he => ⟨hf, he⟩, fun ⟨_, he⟩ => he⟩, fun ⟨_, he⟩ => step_of_end hf he⟩

/-- Settles O59, by evaluation: each premise is a bit of the one state after reset. -/
theorem resetIsALaunchState : Obligations.ResetIsALaunchState := by
  unfold Obligations.ResetIsALaunchState
  decide

end Sys2Proof.Proofs

/-! # Words of the spec -/

namespace Sys2Proof.Proofs

/-- Settles O4: each word is the encoding of its instruction, which is well formed in its mode, so it decodes to it. -/
theorem specWordsDecodeToTheirInstruction : Obligations.SpecWordsDecodeToTheirInstruction := by
  unfold Obligations.SpecWordsDecodeToTheirInstruction
  simp only [decode_eq_ok_iff]
  decide

end Sys2Proof.Proofs
